-- ==== Sys2Proof/Word.lean ====
section
/-! DEFINITION. The widths the spec gives its values (00_scope.md R13; 10_state.md R34, R40). -/

namespace Sys2Proof

/-- A logical or physical byte of a buffer (20_memory.md R103). -/
abbrev Byte := BitVec 8

/-- A 16-bit RAM entry: STRIP, CM, FIN, FOUT and RES (10_state.md R34), and the CRC. -/
abbrev Half := BitVec 16

/-- A register, an IBUF or OBUF word, or a command word (10_state.md R40; 30_encoding.md R140). -/
abbrev Word := BitVec 32

/-- A header or trailer word (30_encoding.md R150). -/
abbrev DWord := BitVec 64

/-- A block byte address a[19:0] (20_memory.md R101). -/
abbrev BusAddr := BitVec 20

end Sys2Proof
end

