-- ==== Sys2Proof/Syntax.lean ====
section
/-! DEFINITION. The 18 commands of the block (30_encoding.md R141), one constructor per row of the opcode table.
Operands are plain numbers, as R142 reads them; `WellFormed` says what their fields can hold. -/

namespace Sys2Proof

/-- The buffer a SWAP64 acts on: ARG[0] = TGT (30_encoding.md R142). -/
inductive SwapTarget where
  /-- TGT = 0. -/
  | ibuf
  /-- TGT = 1. -/
  | obuf
  deriving DecidableEq, Repr

/-- A command. -/
inductive Instr where
  /-- NOP (44_encoder.md R370). -/
  | nop
  /-- CUR_BYTE: `k` is ARG[22:0] (40_cursor.md R222). -/
  | curByte (k : Nat)
  /-- CUR_U16: `k` is ARG[22:0], `swap` is ARG[23] (40_cursor.md R223). -/
  | curU16 (k : Nat) (swap : Bool)
  /-- CUR_U32: `k` is ARG[22:0], `swap` is ARG[23] (40_cursor.md R224). -/
  | curU32 (k : Nat) (swap : Bool)
  /-- CUR_ADVANCE: `n` is ARG[23:0] (40_cursor.md R225). -/
  | curAdv (n : Nat)
  /-- CUR_NORMALIZE (40_cursor.md R226). -/
  | curNorm
  /-- CRC16 (41_crc.md R243). -/
  | crc
  /-- CRC16_BE (41_crc.md R245). -/
  | crcBe
  /-- REORDER (42_reorder.md R262). -/
  | reorder
  /-- DISORDER (42_reorder.md R263). -/
  | disorder
  /-- DEC_PARSE (43_decoder.md R284). -/
  | decParse
  /-- DEC_CHANNEL: `idx` is ARG[7:0] (43_decoder.md R290). -/
  | decChan (idx : Nat)
  /-- DEC_SAMPLES: `idx` is ARG[7:0] (43_decoder.md R295). -/
  | decSamples (idx : Nat)
  /-- DEC_CHECK (43_decoder.md R315). -/
  | decCheck
  /-- DEC_STATUSES (43_decoder.md R320). -/
  | decStatus
  /-- ENC_BUILD (44_encoder.md R340). -/
  | encBuild
  /-- SWAP64: `tgt` is ARG[0] (44_encoder.md R371). -/
  | swap64 (tgt : SwapTarget)
  /-- COPY_O2I (44_encoder.md R372). -/
  | copyO2i
  deriving DecidableEq, Repr

end Sys2Proof
end

