-- ==== Sys2Proof/WellFormed.lean ====
section
/-! DEFINITION. What an operand field can hold (30_encoding.md R142): a well-formed instruction is one a command word can say. -/

namespace Sys2Proof

/-- Every operand fits its ARG field (30_encoding.md R142). -/
def Instr.wellFormed : Instr → Bool
  | .nop => true
  | .curByte k => decide (k < 2 ^ 23)
  | .curU16 k _ => decide (k < 2 ^ 23)
  | .curU32 k _ => decide (k < 2 ^ 23)
  | .curAdv n => decide (n < 2 ^ 24)
  | .curNorm => true
  | .crc => true
  | .crcBe => true
  | .reorder => true
  | .disorder => true
  | .decParse => true
  | .decChan idx => decide (idx < 2 ^ 8)
  | .decSamples idx => decide (idx < 2 ^ 8)
  | .decCheck => true
  | .decStatus => true
  | .encBuild => true
  | .swap64 _ => true
  | .copyO2i => true

end Sys2Proof
end

