-- ==== Sys2Proof/Decode.lean ====
section
/-! DEFINITION. Reading a command word and writing one (30_encoding.md R140-R144). -/

namespace Sys2Proof

/-- OP = bits [7:0] of a command word (30_encoding.md R140). -/
def commandOp (w : Word) : Byte := w.extractLsb' 0 8

/-- ARG = bits [31:8] of a command word (30_encoding.md R140). -/
def commandArg (w : Word) : BitVec 24 := w.extractLsb' 8 24

/-- A command word from its two fields (30_encoding.md R140). -/
def commandWord (op : Byte) (arg : BitVec 24) : Word := arg ++ op

/-- ARG[22:0], the cursor offset k (30_encoding.md R142). -/
def argOffset (arg : BitVec 24) : Nat := (arg.extractLsb' 0 23).toNat

/-- ARG[23], SWAP (30_encoding.md R142). -/
def argSwap (arg : BitVec 24) : Bool := arg.getLsbD 23

/-- ARG[7:0], the fed channel index (30_encoding.md R142). -/
def argIndex (arg : BitVec 24) : Nat := (arg.extractLsb' 0 8).toNat

/-- ARG[0], TGT (30_encoding.md R142). -/
def argTarget (arg : BitVec 24) : SwapTarget := if arg.getLsbD 0 then .obuf else .ibuf

/-- Why a command word stands for no instruction. -/
inductive DecodeError where
  /-- A reserved OP value (30_encoding.md R143): the engine raises ILLEGAL_OPCODE. -/
  | reservedOp (op : Byte)
  deriving DecidableEq, Repr

/-- The opcode map (30_encoding.md R141), with the operand fields of R142. ARG bits that R142 gives to no operand are not
looked at (R144); every other OP is reserved (R143). -/
def decode (w : Word) : Except DecodeError Instr :=
  match (commandOp w).toNat with
  | 0x00 => .ok .nop
  | 0x01 => .ok (.curByte (argOffset (commandArg w)))
  | 0x02 => .ok (.curU16 (argOffset (commandArg w)) (argSwap (commandArg w)))
  | 0x03 => .ok (.curU32 (argOffset (commandArg w)) (argSwap (commandArg w)))
  | 0x04 => .ok (.curAdv (commandArg w).toNat)
  | 0x05 => .ok .curNorm
  | 0x10 => .ok .crc
  | 0x11 => .ok .crcBe
  | 0x20 => .ok .reorder
  | 0x21 => .ok .disorder
  | 0x30 => .ok .decParse
  | 0x31 => .ok (.decChan (argIndex (commandArg w)))
  | 0x32 => .ok (.decSamples (argIndex (commandArg w)))
  | 0x33 => .ok .decCheck
  | 0x34 => .ok .decStatus
  | 0x40 => .ok .encBuild
  | 0x41 => .ok (.swap64 (argTarget (commandArg w)))
  | 0x42 => .ok .copyO2i
  | _ => .error (.reservedOp (commandOp w))

/-- The OP value of an instruction (30_encoding.md R141). -/
def opcode : Instr → Byte
  | .nop => 0x00
  | .curByte _ => 0x01
  | .curU16 _ _ => 0x02
  | .curU32 _ _ => 0x03
  | .curAdv _ => 0x04
  | .curNorm => 0x05
  | .crc => 0x10
  | .crcBe => 0x11
  | .reorder => 0x20
  | .disorder => 0x21
  | .decParse => 0x30
  | .decChan _ => 0x31
  | .decSamples _ => 0x32
  | .decCheck => 0x33
  | .decStatus => 0x34
  | .encBuild => 0x40
  | .swap64 _ => 0x41
  | .copyO2i => 0x42

/-- ARG of a cursor read: SWAP above the 23-bit offset (30_encoding.md R142, R201). -/
def offsetArg (k : Nat) (swap : Bool) : BitVec 24 := BitVec.ofBool swap ++ BitVec.ofNat 23 k

/-- The ARG an assembler writes, unused bits 0 (30_encoding.md R201). -/
def argument : Instr → BitVec 24
  | .nop => 0
  | .curByte k => offsetArg k false
  | .curU16 k swap => offsetArg k swap
  | .curU32 k swap => offsetArg k swap
  | .curAdv n => BitVec.ofNat 24 n
  | .curNorm => 0
  | .crc => 0
  | .crcBe => 0
  | .reorder => 0
  | .disorder => 0
  | .decParse => 0
  | .decChan idx => BitVec.ofNat 24 (idx % 256)
  | .decSamples idx => BitVec.ofNat 24 (idx % 256)
  | .decCheck => 0
  | .decStatus => 0
  | .encBuild => 0
  | .swap64 .ibuf => 0
  | .swap64 .obuf => 1
  | .copyO2i => 0

/-- The command word of an instruction: (ARG << 8) | OP (30_encoding.md R201). -/
def encode (i : Instr) : Word := commandWord (opcode i) (argument i)

/-- The command word whose low `nbits` bits are those of `w`, all others 0. -/
def tableWord (nbits w : Nat) : Word := BitVec.ofNat 32 (w % 2 ^ nbits)

/-- The instruction read from an opcode-table word; a command is always one 32-bit word (30_encoding.md R140). -/
def decodeTableWord (nbits w : Nat) : Option Instr :=
  match decode (tableWord nbits w) with
  | .ok i => some i
  | .error _ => none

end Sys2Proof
end

