-- ==== Sys2Proof/Config.lean ====
section
/-! DEFINITION. The named parameters of 00_scope.md R11, at the values the spec decides, and the free values:
what the spec leaves to an unconstrained draw (93_implementation_defined.md U1, U2). -/

namespace Sys2Proof.Config

/-- Depth of the input event buffer in words (00_scope.md R11). -/
def ibufWords : Nat := 16384

/-- Depth of the output event buffer in words (00_scope.md R11). -/
def obufWords : Nat := 16384

/-- Depth of the result RAM in 16-bit entries (00_scope.md R11). -/
def resDepth : Nat := 65536

/-- CRC_POLY (00_scope.md R11; 41_crc.md R240). -/
def crcPoly : Half := 0x1021

/-- CRC_INIT (00_scope.md R11; 41_crc.md R240). -/
def crcInit : Half := 0xFFFF

/-- LEGACY_TSH_BYTES: the size of the tracker-special header in legacy data (00_scope.md R11). -/
def legacyTshBytes : Nat := 0

/-- The constant of the ID register, "FEDC" (10_state.md R40). -/
def idWord : Word := 0x46454443

/-- What a byte of RAM that nothing has written reads as. DESIGN CHOICE (log entry 1): the spec leaves RAM after reset
unspecified (10_state.md R58). -/
def unwrittenByte : Byte := 0

/-- FREE VALUE (log entry 2): the byte that RAM address `a` holds after the reset input was asserted with the draw counter
at `n` (10_state.md R58; 93_implementation_defined.md U1: one draw per entry, fixed until written). -/
opaque ramAfterReset (n a : Nat) : Byte

/-- FREE VALUE (log entry 3): what a host read refused during BUSY returns, a fresh draw per read (20_memory.md R110;
93_implementation_defined.md U2). -/
opaque refusedRead (n : Nat) : Word

end Sys2Proof.Config
end

