-- ==== Sys2Proof/Machine/State.lean ====
section
/-! DEFINITION. Everything the spec gives the block, as plain data, and its state after reset (10_state.md; 70_reset_and_hazards.md
R450). Two flags are not stored beside what they say: STATUS.BUSY is "a command is latched" (R31) and STATUS.DEC_VALID is
"an event record is held" (R56), so they can never disagree with it. -/

namespace Sys2Proof.Machine

/-- EventFormat (00_scope.md R4; 10_state.md R44). -/
inductive EventFormat where
  | standard
  | oldVme
  deriving DecidableEq, Repr

/-- HeaderFormat (00_scope.md R4; 10_state.md R44). -/
inductive HeaderFormat where
  | fullDebug
  | apvError
  deriving DecidableEq, Repr

/-- DaqMode (00_scope.md R4; 10_state.md R44). -/
inductive DaqMode where
  | virginRaw
  | processedRaw
  | zeroSuppressed
  | zeroSuppressedLite
  | scope
  deriving DecidableEq, Repr

/-- The width variant of a packet code (30_encoding.md R181). -/
inductive Width where
  | std
  | w10
  | botbot
  | topbot
  deriving DecidableEq, Repr

/-- The RAMs of the block (10_state.md R34). -/
inductive Ram where
  | ibuf
  | obuf
  | strip
  | cm
  | fin
  | fout
  | res
  deriving DecidableEq, Repr

/-- RAM contents: the bytes that differ from what an unwritten byte reads as, by block byte address
(20_memory.md R101), strictly rising. -/
abbrev Memory := List Host.Cell

/-- A latched command, PEND_OP and PEND_ARG (10_state.md R36). -/
structure Pending where
  op : Byte
  arg : BitVec 24
  deriving DecidableEq, Repr

/-- The stored STATUS bits (10_state.md R41). -/
structure Flags where
  done : Bool
  err : Bool
  lenMismatch : Bool
  crcMismatch : Bool
  crcChecked : Bool
  encValid : Bool
  cmdOverrun : Bool
  busyAccess : Bool
  deriving DecidableEq, Repr

/-- IRQ_EN and IRQ_PEND (10_state.md R42). -/
structure IrqRegs where
  doneEn : Bool
  errEn : Bool
  doneP : Bool
  errP : Bool
  deriving DecidableEq, Repr

/-- The error registers (10_state.md R43). -/
structure ErrorRegs where
  code : Byte
  offset : Word
  channel : Byte
  expected : Word
  actual : Word
  deriving DecidableEq, Repr

/-- The per-unit decoder result registers UNIT_OFF, UNIT_LEN, FEH_MAJ and FEH_RSV of one unit (10_state.md R46). -/
structure UnitRegs where
  off : Word
  len : Word
  maj : Byte
  rsv : Word
  deriving DecidableEq, Repr

/-- The decoder header result registers (10_state.md R46). -/
structure HeaderRegs where
  daqhHi : Word
  daqhLo : Word
  tshHi : Word
  tshLo : Word
  trlHi : Word
  trlLo : Word
  evtNum : BitVec 24
  bx : BitVec 12
  srcId : BitVec 12
  evtInfo : BitVec 8
  feRegs : Word
  tshInfo : Word
  decBytes : Word
  trlLen : BitVec 24
  trlInfo : BitVec 25
  units : Vector UnitRegs 8
  deriving DecidableEq, Repr

/-- CH_SEL, CH_INFO and CH_OFFSET (10_state.md R48). -/
structure ChannelRegs where
  sel : Byte
  info : Word
  offset : Word
  deriving DecidableEq, Repr

/-- RES_KIND, RES_COUNT, RES_CM and RES_NCLUS (10_state.md R48). -/
structure ResultRegs where
  kind : BitVec 11
  count : Word
  cm : Word
  nclus : Word
  deriving DecidableEq, Repr

/-- STAT_BAD0..2 and STAT_BAD_COUNT (10_state.md R48). -/
structure StatRegs where
  bad0 : Word
  bad1 : Word
  bad2 : Word
  count : BitVec 7
  deriving DecidableEq, Repr

/-- ENC_CFG0..2, ENC_LEN and ENC_CRC (10_state.md R49-R51). -/
structure EncoderRegs where
  cfg0 : Word
  cfg1 : Word
  cfg2 : Word
  len : Word
  crc : Half
  deriving DecidableEq, Repr

/-- CUR_BASE, CUR_OFF, CUR_REM and CUR_DATA (10_state.md R52). -/
structure CursorRegs where
  base : Word
  off : Word
  rem : Word
  data : Word
  deriving DecidableEq, Repr

/-- CRC_START, CRC_LEN and CRC_RESULT (10_state.md R53). -/
structure CrcRegs where
  start : Word
  len : Word
  result : Half
  deriving DecidableEq, Repr

/-- EV.chan[ch]: a channel's byte offset, its length field and its packet code byte (10_state.md R56). -/
structure ChannelEntry where
  off : Nat
  len : Nat
  pcode : Byte
  deriving DecidableEq, Repr

/-- The decoded event record EV (10_state.md R56). `chan` has an entry for every fed channel; those of disabled units are
never read. EV.declen is `t + 8` and is computed where it is used. -/
structure EventRecord where
  evfmt : EventFormat
  hdrfmt : HeaderFormat
  legacy : Bool
  mode : DaqMode
  nbytes : Nat
  h0 : Nat
  enable : BitVec 8
  chan : Vector ChannelEntry 96
  t : Nat
  deriving DecidableEq, Repr

/-- What reaches the block from outside in one step: the host agent's bus accesses (10_state.md R30; 20_memory.md R100), the
reset input RST (70_reset_and_hazards.md R450), or nothing. -/
inductive HostEvent where
  /-- Nothing arrives: the engine may step (10_state.md R31). -/
  | idle
  /-- MemRead(a, 4). -/
  | read (a : BusAddr)
  /-- MemWrite(a, 4, v). -/
  | write (a : BusAddr) (v : Word)
  /-- RST is asserted. -/
  | rst
  deriving DecidableEq, Repr

/-- The machine. `inbox`, `outbox` and `draws` are the MODEL's own fields (log entries 3 to 5): what the outside world does
next, what the host's reads returned (oldest first), and how many free values have been drawn. -/
structure State where
  mem : Memory
  pend : Option Pending
  flags : Flags
  irq : IrqRegs
  errs : ErrorRegs
  decCfg : Word
  decLen : Word
  hdr : HeaderRegs
  crcComputed : Half
  chan : ChannelRegs
  res : ResultRegs
  stat : StatRegs
  enc : EncoderRegs
  cur : CursorRegs
  crc : CrcRegs
  ev : Option EventRecord
  inbox : List HostEvent
  outbox : List Word
  draws : Nat
  deriving DecidableEq, Repr

/-- No fault exists: the spec gives the block no trap and no access that stops it (60_exceptions.md R410; 20_memory.md R101,
R108). An error ends one command and the machine goes on. Safe: a type without values promises that no step faults. -/
inductive Fault
  deriving DecidableEq, Repr

/-- Why a step has no meaning. -/
inductive Refusal where
  /-- Raised by an arm of `exec` whose instruction has no meaning yet (none has this outcome now). Safe: the machine stops. -/
  | notModelled (mnemonic : String)
  deriving DecidableEq, Repr

/-- STATUS.BUSY (10_state.md R31, R41). -/
def State.busy (s : State) : Bool := s.pend.isSome

/-- STATUS.DEC_VALID (10_state.md R41, R56). -/
def State.decValid (s : State) : Bool := s.ev.isSome

/-- The reset value of UNIT_OFF, UNIT_LEN, FEH_MAJ and FEH_RSV (70_reset_and_hazards.md R450). -/
def UnitRegs.zero : UnitRegs := { off := 0, len := 0, maj := 0, rsv := 0 }

/-- The reset value of the header result registers (70_reset_and_hazards.md R450). -/
def HeaderRegs.zero : HeaderRegs :=
  { daqhHi := 0, daqhLo := 0, tshHi := 0, tshLo := 0, trlHi := 0, trlLo := 0, evtNum := 0, bx := 0, srcId := 0,
    evtInfo := 0, feRegs := 0, tshInfo := 0, decBytes := 0, trlLen := 0, trlInfo := 0,
    units := Vector.replicate 8 UnitRegs.zero }

/-- The machine right after reset (70_reset_and_hazards.md R450). The RAM contents are unspecified there; log entry 1 says
what this state holds, and entry 5 that nothing is under way outside. -/
def State.reset : State :=
  { mem := []
    pend := none
    flags := { done := false, err := false, lenMismatch := false, crcMismatch := false, crcChecked := false,
               encValid := false, cmdOverrun := false, busyAccess := false }
    irq := { doneEn := false, errEn := false, doneP := false, errP := false }
    errs := { code := 0, offset := 0, channel := 0xFF, expected := 0, actual := 0 }
    decCfg := 0x0000FF00
    decLen := 0
    hdr := HeaderRegs.zero
    crcComputed := 0
    chan := { sel := 0, info := 0, offset := 0 }
    res := { kind := 0, count := 0, cm := 0, nclus := 0 }
    stat := { bad0 := 0, bad1 := 0, bad2 := 0, count := 0 }
    enc := { cfg0 := 0, cfg1 := 0, cfg2 := 0, len := 0, crc := 0 }
    cur := { base := 0, off := 0, rem := 0, data := 0 }
    crc := { start := 0, len := 0, result := 0 }
    ev := none
    inbox := []
    outbox := []
    draws := 0 }

end Sys2Proof.Machine
end

