-- ==== Sys2Proof/Machine/Ops.lean ====
section
/-! DEFINITION. The named operations over memory and registers: the address space of the RAMs, the logical byte view, the end
of a command (completion and raising an error), invalidating EV, the command latch and the reset input. -/

namespace Sys2Proof.Machine

/-- The byte at address `a` (20_memory.md R101, R103). -/
def Memory.read : Memory → Nat → Byte
  | [], _ => Config.unwrittenByte
  | c :: m, a => if c.1 = a then c.2 else Memory.read m a

/-- The cells that `bytes` need when stored from address `lo` on. -/
def Memory.cells : Nat → List Byte → Memory
  | _, [] => []
  | lo, b :: bytes =>
    if b = Config.unwrittenByte then Memory.cells (lo + 1) bytes else (lo, b) :: Memory.cells (lo + 1) bytes

/-- Store `bytes` from address `lo` on, every other byte as before. -/
def Memory.store (m : Memory) (lo : Nat) (bytes : List Byte) : Memory :=
  m.filter (fun c => decide (c.1 < lo)) ++ Memory.cells lo bytes
    ++ m.filter (fun c => decide (lo + bytes.length ≤ c.1))

/-- The canonical form of memory: addresses strictly rising, no cell equal to what an unlisted address reads as. -/
abbrev Memory.wf (m : Memory) : Prop :=
  m.Pairwise (fun c d => c.1 < d.1) ∧ ∀ c ∈ m, c.2 ≠ Config.unwrittenByte

/-- First block byte address of a RAM (20_memory.md R101). -/
def ramBase : Ram → Nat
  | .ibuf => 0x10000
  | .obuf => 0x20000
  | .strip => 0x40000
  | .cm => 0x60000
  | .fin => 0x61000
  | .fout => 0x61200
  | .res => 0x80000

/-- Number of entries of a RAM (10_state.md R34). -/
def ramEntries : Ram → Nat
  | .ibuf => Config.ibufWords
  | .obuf => Config.obufWords
  | .strip => 24576
  | .cm => 192
  | .fin => 128
  | .fout => 128
  | .res => Config.resDepth

/-- How many bytes of an entry's 32-bit host word exist: bits [31:16] of a 16-bit RAM do not (10_state.md R34). -/
def ramEntryBytes : Ram → Nat
  | .ibuf => 4
  | .obuf => 4
  | _ => 2

/-- The address of an entry's host word (20_memory.md R101). -/
def ramAddr (r : Ram) (i : Nat) : Nat := ramBase r + 4 * i

/-- The RAM entry at a block byte address, address bits [1:0] ignored, for one RAM (20_memory.md R100, R101). -/
def ramIndex? (r : Ram) (a : Nat) : Option Nat :=
  if ramBase r ≤ a ∧ a < ramBase r + 4 * ramEntries r then some ((a - ramBase r) / 4) else none

/-- Every RAM of the block (10_state.md R34). -/
def allRams : List Ram := [.ibuf, .obuf, .strip, .cm, .fin, .fout, .res]

/-- The RAM entry at a block byte address (20_memory.md R101); none where no RAM is mapped. -/
def ramAt (a : Nat) : Option (Ram × Nat) :=
  allRams.findSome? fun r => (ramIndex? r a).map fun i => (r, i)

/-- A block byte address at which a RAM byte exists (10_state.md R34; 20_memory.md R101). -/
def isRamByte (a : Nat) : Bool :=
  match ramAt a with
  | some (r, _) => decide (a % 4 < ramEntryBytes r)
  | none => false

/-- The 16-bit value at an address, lane 0 first (20_memory.md R103). -/
def Memory.half (m : Memory) (a : Nat) : Half := Memory.read m (a + 1) ++ Memory.read m a

/-- The 32-bit word at an address: lane 0 is bits [7:0] (20_memory.md R103). -/
def Memory.word (m : Memory) (a : Nat) : Word :=
  Memory.read m (a + 3) ++ Memory.read m (a + 2) ++ Memory.read m (a + 1) ++ Memory.read m a

/-- `n` consecutive 32-bit words from an address on. -/
def Memory.words (m : Memory) (a n : Nat) : List Word := (List.range n).map fun i => Memory.word m (a + 4 * i)

/-- `n` consecutive 16-bit entries from an address on, one in each host word (10_state.md R34). -/
def Memory.halves (m : Memory) (a n : Nat) : List Half := (List.range n).map fun i => Memory.half m (a + 4 * i)

/-- The four physical bytes of a word, lane 0 first (20_memory.md R103). -/
def wordBytes (w : Word) : List Byte :=
  [w.extractLsb' 0 8, w.extractLsb' 8 8, w.extractLsb' 16 8, w.extractLsb' 24 8]

/-- The host word of a 16-bit entry: bits [31:16] do not exist and read as 0 (10_state.md R34). -/
def halfSlot (h : Half) : List Byte := [h.extractLsb' 0 8, h.extractLsb' 8 8, 0, 0]

/-- Store 32-bit words from an address on. -/
def Memory.storeWords (m : Memory) (a : Nat) (ws : List Word) : Memory := Memory.store m a (ws.flatMap wordBytes)

/-- Store 16-bit entries from an address on, one in each host word. -/
def Memory.storeHalves (m : Memory) (a : Nat) (hs : List Half) : Memory := Memory.store m a (hs.flatMap halfSlot)

/-- STRIP[s], CM[k], FIN[i], FOUT[i] or RES[k] (00_scope.md R16). -/
def ramHalf (m : Memory) (r : Ram) (i : Nat) : Half := Memory.half m (ramAddr r i)

/-- IBUF[w] or OBUF[w] (00_scope.md R16). -/
def ramWord (m : Memory) (r : Ram) (i : Nat) : Word := Memory.word m (ramAddr r i)

/-- Number of bytes of IBUF, 4 × IBUF_WORDS (20_memory.md R103). -/
def ibufBytes : Nat := 4 * Config.ibufWords

/-- Number of bytes of OBUF, 4 × OBUF_WORDS (20_memory.md R103). -/
def obufBytes : Nat := 4 * Config.obufWords

/-- B(q), logical byte q of IBUF: physical byte `q ^ 3` (20_memory.md R104). The rule requires q < 4 × IBUF_WORDS; a q past
the end, which no command reads from a state that a run reaches, reads as 0 (log entry 9). -/
def logicalByte (m : Memory) (q : Nat) : Byte :=
  if q < ibufBytes then Memory.read m (ramBase .ibuf + (q ^^^ 3)) else 0

/-- B(q), ..., B(q + n - 1) (00_scope.md R16). -/
def logicalBytes (m : Memory) (q n : Nat) : List Byte := (List.range n).map fun i => logicalByte m (q + i)

/-- The little-endian 16-bit payload field at q (30_encoding.md R149). -/
def u16le (m : Memory) (q : Nat) : Half := logicalByte m (q + 1) ++ logicalByte m q

/-- The little-endian 32-bit payload field at q (30_encoding.md R149). -/
def u32le (m : Memory) (q : Nat) : Word := u16le m (q + 2) ++ u16le m q

/-- The most-significant-byte-first 16-bit field at q (40_cursor.md R223). -/
def u16be (m : Memory) (q : Nat) : Half := logicalByte m q ++ logicalByte m (q + 1)

/-- `be32(q)` (00_scope.md R16). -/
def be32 (m : Memory) (q : Nat) : Word := u16be m q ++ u16be m (q + 2)

/-- A 64-bit header or trailer word at logical offset o; OldVme swaps its 32-bit halves (30_encoding.md R150). -/
def rd64 (m : Memory) (o : Nat) : EventFormat → DWord
  | .standard => be32 m o ++ be32 m (o + 4)
  | .oldVme => be32 m (o + 4) ++ be32 m o

/-- The error names of 60_exceptions.md R401. -/
inductive ErrorName where
  | bufferTooShort
  | outOfRange
  | badChannelLength
  | unitOverrun
  | badBufferLength
  | channelOutOfBounds
  | feUnitDisabled
  | packetCodeCorrupt
  | payloadCorrupt
  | noEvent
  | capacityExceeded
  | illegalOpcode
  | configInvalid
  deriving DecidableEq, Repr

/-- ERR_CODE of an error (60_exceptions.md R401). -/
def errorCode : ErrorName → Byte
  | .bufferTooShort => 0x01
  | .outOfRange => 0x02
  | .badChannelLength => 0x03
  | .unitOverrun => 0x04
  | .badBufferLength => 0x05
  | .channelOutOfBounds => 0x10
  | .feUnitDisabled => 0x11
  | .packetCodeCorrupt => 0x12
  | .payloadCorrupt => 0x13
  | .noEvent => 0x14
  | .capacityExceeded => 0x20
  | .illegalOpcode => 0x30
  | .configInvalid => 0x31

/-- ERR_CHANNEL where no channel is concerned (10_state.md R43). -/
def noChannel : Nat := 0xFF

/-- The arguments of a `raise E(offset, channel, expected, actual)` (60_exceptions.md R404), not yet truncated. What each error
puts there is what the rule that raises it says; R401's table agrees, but for DEC_PARSE's OUT_OF_RANGE (log entry 16). -/
structure CommandError where
  name : ErrorName
  offset : Nat
  channel : Nat
  expected : Nat
  actual : Nat
  deriving DecidableEq, Repr

/-- The values a raise puts into the error registers, truncated to their widths (00_scope.md R14; 60_exceptions.md R401, R404). -/
def errorRegs (e : CommandError) : ErrorRegs :=
  { code := errorCode e.name
    offset := BitVec.ofNat 32 e.offset
    channel := BitVec.ofNat 8 e.channel
    expected := BitVec.ofNat 32 e.expected
    actual := BitVec.ofNat 32 e.actual }

/-- The error registers after a command that succeeded (60_exceptions.md R403). -/
def noError : ErrorRegs := { code := 0, offset := 0, channel := 0xFF, expected := 0, actual := 0 }

/-- The common completion of a command that succeeded (60_exceptions.md R403). -/
def complete (s : State) : State :=
  { s with
    pend := none
    flags := { s.flags with done := true, err := false }
    irq := { s.irq with doneP := true }
    errs := noError }

/-- Raising an error: the common completion of a command that failed (60_exceptions.md R403, R404). The block has no trap and
nothing to return to (R410): the error registers hold the record until the next command completes. -/
def raiseError (e : CommandError) (s : State) : State :=
  { s with
    pend := none
    flags := { s.flags with done := true, err := true }
    irq := { s.irq with doneP := true, errP := true }
    errs := errorRegs e }

/-- The end of a command: what it computed is committed and it completes, or nothing of it is, the writes of
60_exceptions.md R405 (`onFail`) are made, and the error is raised. -/
def finish (s : State) (onFail : State → State) : Except CommandError State → Host.Outcome State Fault Refusal
  | .ok t => .next (complete t)
  | .error e => .next (raiseError e (onFail s))

/-- Discard EV: DEC_VALID and the integrity flags become 0 (10_state.md R55, R57). -/
def invalidate (s : State) : State :=
  { s with
    ev := none
    flags := { s.flags with lenMismatch := false, crcMismatch := false, crcChecked := false } }

/-- A reserved OP: ILLEGAL_OPCODE and nothing else (30_encoding.md R143). -/
def illegalOpcode (op : Byte) (s : State) : State :=
  raiseError { name := .illegalOpcode, offset := 0, channel := noChannel, expected := 0, actual := op.toNat } s

/-- An accepted CMD write (10_state.md R36). -/
def latchCommand (w : Word) (s : State) : State :=
  { s with
    pend := some { op := commandOp w, arg := commandArg w }
    flags := { s.flags with done := false } }

/-- What the RAM byte at `a` holds after the reset input was asserted with the draw counter at `n`: a free byte where a RAM
byte exists (10_state.md R58; 93_implementation_defined.md U1). -/
def ramDrawByte (n a : Nat) : Byte := if isRamByte a then Config.ramAfterReset n a else Config.unwrittenByte

/-- RAM after the reset input was asserted, in the canonical form; the RAMs lie in 0x10000..0xBFFFF (20_memory.md R101). -/
def ramDraw (n : Nat) : Memory :=
  Memory.cells (ramBase .ibuf) ((List.range' (ramBase .ibuf) 0xB0000).map (ramDrawByte n))

/-- RST: every register at its reset value, the latch emptied, EV discarded, RAM unspecified (70_reset_and_hazards.md R450).
What the outside world has received and will still do is no part of the block. -/
def resetBlock (s : State) : State :=
  { State.reset with mem := ramDraw s.draws, inbox := s.inbox, outbox := s.outbox, draws := s.draws + 1 }

end Sys2Proof.Machine
end

