-- ==== Sys2Proof/Machine/Flags.lean ====
section
/-! DEFINITION. The flag words and the flag computations (10_state.md R41, R42, R55; 60_exceptions.md R420). -/

namespace Sys2Proof.Machine

/-- A bit of a register word, at its position. -/
def bitAt (b : Bool) (i : Nat) : Word := if b then BitVec.ofNat 32 (2 ^ i) else 0

/-- STATUS as the host reads it (10_state.md R41). -/
def statusWord (s : State) : Word :=
  bitAt s.busy 0 ||| bitAt s.flags.done 1 ||| bitAt s.flags.err 2 ||| bitAt s.decValid 3 |||
  bitAt s.flags.lenMismatch 4 ||| bitAt s.flags.crcMismatch 5 ||| bitAt s.flags.crcChecked 6 |||
  bitAt s.flags.encValid 7 ||| bitAt s.flags.cmdOverrun 8 ||| bitAt s.flags.busyAccess 9

/-- A write to STATUS: bits [9:8] are W1C, the others read-only (10_state.md R40, R41). -/
def clearStatus (v : Word) (f : Flags) : Flags :=
  { f with
    cmdOverrun := f.cmdOverrun && !v.getLsbD 8
    busyAccess := f.busyAccess && !v.getLsbD 9 }

/-- IRQ_EN as the host reads it (10_state.md R42). -/
def irqEnWord (q : IrqRegs) : Word := bitAt q.doneEn 0 ||| bitAt q.errEn 1

/-- A write to IRQ_EN (10_state.md R42; 60_exceptions.md R420). -/
def writeIrqEn (v : Word) (q : IrqRegs) : IrqRegs := { q with doneEn := v.getLsbD 0, errEn := v.getLsbD 1 }

/-- IRQ_PEND as the host reads it (10_state.md R42). -/
def irqPendWord (q : IrqRegs) : Word := bitAt q.doneP 0 ||| bitAt q.errP 1

/-- A write to IRQ_PEND: both bits are W1C (10_state.md R42). -/
def clearIrqPend (v : Word) (q : IrqRegs) : IrqRegs :=
  { q with doneP := q.doneP && !v.getLsbD 0, errP := q.errP && !v.getLsbD 1 }

/-- The level of the IRQ output (60_exceptions.md R420). -/
def irqLine (s : State) : Bool := (s.irq.doneEn && s.irq.doneP) || (s.irq.errEn && s.irq.errP)

/-- LEN_MISMATCH: the trailer's length, in 64-bit words, against EV.declen = EV.t + 8 (43_decoder.md R315, R316). -/
def lengthMismatch (trlLen t : Nat) : Bool := decide (trlLen * 8 ≠ t + 8)

end Sys2Proof.Machine
end

