-- ==== Sys2Proof/Machine/Operands.lean ====
section
/-! DEFINITION. The operands of the commands: the fields of the configuration registers, the cursor position and its bounds
check, the packet codes and the value coding. -/

namespace Sys2Proof.Machine

/-- The value of the field of `w` that starts at bit `lo` and is `n` bits wide. -/
def field (w : Word) (lo n : Nat) : Nat := (w.extractLsb' lo n).toNat

/-- The DaqMode codes of DEC_CFG.MODE and ENC_CFG0.MODE; 5 to 7 are reserved (10_state.md R44, R49). -/
def modeOfCode : Nat → Option DaqMode
  | 0 => some .virginRaw
  | 1 => some .processedRaw
  | 2 => some .zeroSuppressed
  | 3 => some .zeroSuppressedLite
  | 4 => some .scope
  | _ => none

/-- The code of a DaqMode (10_state.md R44). -/
def modeCode : DaqMode → Nat
  | .virginRaw => 0
  | .processedRaw => 1
  | .zeroSuppressed => 2
  | .zeroSuppressedLite => 3
  | .scope => 4

/-- The width codes of ENC_CFG0.WIDTH (30_encoding.md R181). -/
def widthOfCode : Nat → Width
  | 0 => .std
  | 1 => .w10
  | 2 => .botbot
  | _ => .topbot

/-- The code of a width variant (30_encoding.md R181). -/
def widthCode : Width → Nat
  | .std => 0
  | .w10 => 1
  | .botbot => 2
  | .topbot => 3

/-- The bits of DEC_CFG that exist (10_state.md R44). -/
def decCfgMask : Word := 0x0000FF7F

/-- The bits of ENC_CFG0 that exist (10_state.md R49). -/
def encCfg0Mask : Word := 0x000FFFFF

/-- The bits of ENC_CFG2 that exist (10_state.md R50). -/
def encCfg2Mask : Word := 0x3FFFFFFF

/-- DEC_CFG.EVFMT (10_state.md R44). -/
def cfgEvfmt (cfg : Word) : EventFormat := if cfg.getLsbD 0 then .oldVme else .standard

/-- DEC_CFG.HDRFMT (10_state.md R44). -/
def cfgHdrfmt (cfg : Word) : HeaderFormat := if cfg.getLsbD 1 then .apvError else .fullDebug

/-- DEC_CFG.LEGACY (10_state.md R44). -/
def cfgLegacy (cfg : Word) : Bool := cfg.getLsbD 2

/-- DEC_CFG.SKIP_CRC (10_state.md R44). -/
def cfgSkipCrc (cfg : Word) : Bool := cfg.getLsbD 3

/-- DEC_CFG.MODE (10_state.md R44). -/
def cfgModeCode (cfg : Word) : Nat := field cfg 4 3

/-- DEC_CFG.EXT_ENABLE (10_state.md R44). -/
def cfgExtEnable (cfg : Word) : BitVec 8 := cfg.extractLsb' 8 8

/-- H0, where the FE header region starts (30_encoding.md R145). -/
def headerStart (legacy : Bool) : Nat := if legacy then 8 + Config.legacyTshBytes else 16

/-- FEH, the size of the FE header region (30_encoding.md R145, R146). -/
def feHeaderSize : HeaderFormat → Nat
  | .fullDebug => 128
  | .apvError => 24

/-- x rounded up to a multiple of 8 (00_scope.md R14). -/
def roundup8 (x : Nat) : Nat := (x + 7) / 8 * 8

/-- pos = (CUR_BASE + CUR_OFF) mod 2^32 (40_cursor.md R220). -/
def cursorPos (c : CursorRegs) : Nat := (c.base + c.off).toNat

/-- The bounds check `need(k, n)`, answering the offset to read from (40_cursor.md R221). -/
def cursorNeed (c : CursorRegs) (k n : Nat) : Except CommandError Nat :=
  if c.rem.toNat < k + n then
    .error { name := .outOfRange, offset := cursorPos c + k, channel := noChannel, expected := c.rem.toNat, actual := k + n }
  else if ibufBytes < cursorPos c + k + n then
    .error { name := .outOfRange, offset := cursorPos c + k, channel := noChannel, expected := ibufBytes,
             actual := cursorPos c + k + n }
  else .ok (cursorPos c + k)

/-- PCODE_MAP (30_encoding.md R180): the packet code of a mode and width; Scope has STD only. -/
def packetCode : DaqMode → Width → Option Byte
  | .scope, .std => some 0xE1
  | .scope, _ => none
  | .virginRaw, .std => some 0xE6
  | .virginRaw, .w10 => some 0x86
  | .virginRaw, .botbot => some 0xC6
  | .virginRaw, .topbot => some 0xA6
  | .processedRaw, .std => some 0xF2
  | .processedRaw, .w10 => some 0x92
  | .processedRaw, .botbot => some 0xD2
  | .processedRaw, .topbot => some 0xB2
  | .zeroSuppressed, .std => some 0xEA
  | .zeroSuppressed, .w10 => some 0x8A
  | .zeroSuppressed, .botbot => some 0xCA
  | .zeroSuppressed, .topbot => some 0xAA
  | .zeroSuppressedLite, .std => some 0xEC
  | .zeroSuppressedLite, .w10 => some 0x8C
  | .zeroSuppressedLite, .botbot => some 0xCC
  | .zeroSuppressedLite, .topbot => some 0xAC

/-- The STD packet code of a mode, the expected value of PACKET_CODE_CORRUPT (43_decoder.md R296). -/
def stdPacketCode : DaqMode → Byte
  | .scope => 0xE1
  | .virginRaw => 0xE6
  | .processedRaw => 0xF2
  | .zeroSuppressed => 0xEA
  | .zeroSuppressedLite => 0xEC

/-- Every width variant. -/
def allWidths : List Width := [.std, .w10, .botbot, .topbot]

/-- The width variant that a packet code has under the declared mode; none for an unknown code and for one of another mode
(30_encoding.md R180; 43_decoder.md R296). -/
def widthOfPacketCode (mode : DaqMode) (pc : Byte) : Option Width :=
  allWidths.find? fun w => packetCode mode w == some pc

/-- The tracker event type of a mode (30_encoding.md R162). -/
def tshEventType : DaqMode → BitVec 4
  | .scope => 0x1
  | .virginRaw => 0x2
  | .processedRaw => 0x6
  | .zeroSuppressed => 0xA
  | .zeroSuppressedLite => 0xC

/-- VirginRaw, ProcessedRaw and Scope are the raw modes (30_encoding.md R181). -/
def isRawMode : DaqMode → Bool
  | .virginRaw => true
  | .processedRaw => true
  | .scope => true
  | .zeroSuppressed => false
  | .zeroSuppressedLite => false

/-- nb10(n), the bytes of n packed 10-bit values (30_encoding.md R183). -/
def nb10 (n : Nat) : Nat := (10 * n + 7) / 8

/-- nbytes(n, mode, variant), the size of n coded values (30_encoding.md R184). -/
def codedSize (n : Nat) (mode : DaqMode) : Width → Nat
  | .std => if isRawMode mode then 2 * n else n
  | .w10 => nb10 n
  | .botbot => n
  | .topbot => n

/-- The clamp of a strip value to ten bits (30_encoding.md R182). -/
def clampStrip (v : Nat) : Nat := min v 1023

/-- Bit `k` of the most-significant-bit-first stream whose bytes start at logical offset `p` (30_encoding.md R183). -/
def streamBit (m : Memory) (p k : Nat) : Bool := (logicalByte m (p + k / 8)).getLsbD (7 - k % 8)

/-- Value `i` of a 10-bit packed list at logical offset `p` (30_encoding.md R183). -/
def unpack10 (m : Memory) (p i : Nat) : Half :=
  BitVec.ofNat 16 ((List.range 10).foldl (fun x j => 2 * x + (streamBit m p (10 * i + j)).toNat) 0)

/-- Value `i` of a coded list at logical offset `p`, decoded (30_encoding.md R182). -/
def decodedValue (m : Memory) (mode : DaqMode) (p i : Nat) : Width → Half
  | .std => if isRawMode mode then u16le m (p + 2 * i) else (logicalByte m (p + i)).zeroExtend 16
  | .w10 => unpack10 m p i
  | .botbot => (logicalByte m (p + i)).zeroExtend 16 <<< 2
  | .topbot => (logicalByte m (p + i)).zeroExtend 16 <<< 1

/-- The `n` decoded values of a coded list at logical offset `p`. -/
def decodedValues (m : Memory) (mode : DaqMode) (w : Width) (p n : Nat) : List Half :=
  (List.range n).map fun i => decodedValue m mode p i w

/-- The ten stream bits of a value, most significant first (30_encoding.md R183). -/
def valueBits (v : Nat) : List Bool := (List.range 10).map fun j => v.testBit (9 - j)

/-- A byte from its bits, most significant first. -/
def byteOfBits (bits : List Bool) : Byte := BitVec.ofNat 8 (bits.foldl (fun x b => 2 * x + b.toNat) 0)

/-- A bit stream stored most significant bit first, the last byte filled with 0 bits (30_encoding.md R183). -/
def packBits : List Bool → List Byte
  | b7 :: b6 :: b5 :: b4 :: b3 :: b2 :: b1 :: b0 :: rest => byteOfBits [b7, b6, b5, b4, b3, b2, b1, b0] :: packBits rest
  | [] => []
  | bits => [byteOfBits (bits ++ List.replicate (8 - bits.length) false)]

/-- A list of strip values, clamped and coded (30_encoding.md R182, R183). -/
def codeValues (mode : DaqMode) (w : Width) (vs : List Half) : List Byte :=
  match w with
  | .std =>
    if isRawMode mode then
      vs.flatMap fun v =>
        [(BitVec.ofNat 16 (clampStrip v.toNat)).extractLsb' 0 8, (BitVec.ofNat 16 (clampStrip v.toNat)).extractLsb' 8 8]
    else vs.map fun v => BitVec.ofNat 8 (min (clampStrip v.toNat) 255)
  | .w10 => packBits (vs.flatMap fun v => valueBits (clampStrip v.toNat))
  | .botbot => vs.map fun v => BitVec.ofNat 8 (clampStrip v.toNat >>> 2)
  | .topbot => vs.map fun v => BitVec.ofNat 8 (min (clampStrip v.toNat) 511 >>> 1)

end Sys2Proof.Machine
end

