-- ==== Sys2Proof/Machine/Bus.lean ====
section
/-! DEFINITION. The host bus: the register map, the RAM windows, and what a host access does when the engine is idle and when
it is busy (10_state.md R40; 20_memory.md R100, R101, R109, R110). -/

namespace Sys2Proof.Machine

/-- The registers of the map, the four arrays by unit index (10_state.md R40). -/
inductive Reg where
  | id | cmd | status | irqEn | irqPend
  | errCode | errOffset | errChannel | errExpected | errActual
  | decCfg | decLen
  | daqhHi | daqhLo | tshHi | tshLo | trlHi | trlLo
  | evtNum | bx | srcId | evtInfo | feRegs | tshInfo | decBytes | trlLen | trlInfo | crcComputed
  | chSel | chInfo | chOffset
  | resKind | resCount | resCm | resNclus
  | statBad0 | statBad1 | statBad2 | statBadCount
  | unitOff (u : Fin 8)
  | unitLen (u : Fin 8)
  | fehMaj (u : Fin 8)
  | fehRsv (u : Fin 8)
  | encCfg0 | encCfg1 | encCfg2 | encLen | encCrc
  | curBase | curOff | curRem | curData
  | crcStart | crcLen | crcResult
  deriving DecidableEq, Repr

/-- The unit index of a register array's word (10_state.md R40). -/
def unitIndex (w : Nat) : Fin 8 := ⟨w % 8, Nat.mod_lt w (by decide)⟩

/-- The register at word `w` of the register window, that is at offset 4w; none where the offset is reserved
(10_state.md R40). -/
def regAtWord (w : Nat) : Option Reg :=
  if 0x40 ≤ w ∧ w < 0x48 then some (.unitOff (unitIndex w))
  else if 0x48 ≤ w ∧ w < 0x50 then some (.unitLen (unitIndex w))
  else if 0x50 ≤ w ∧ w < 0x58 then some (.fehMaj (unitIndex w))
  else if 0x58 ≤ w ∧ w < 0x60 then some (.fehRsv (unitIndex w))
  else
    match 4 * w with
    | 0x000 => some .id
    | 0x004 => some .cmd
    | 0x008 => some .status
    | 0x00C => some .irqEn
    | 0x010 => some .irqPend
    | 0x014 => some .errCode
    | 0x018 => some .errOffset
    | 0x01C => some .errChannel
    | 0x020 => some .errExpected
    | 0x024 => some .errActual
    | 0x040 => some .decCfg
    | 0x044 => some .decLen
    | 0x080 => some .daqhHi
    | 0x084 => some .daqhLo
    | 0x088 => some .tshHi
    | 0x08C => some .tshLo
    | 0x090 => some .trlHi
    | 0x094 => some .trlLo
    | 0x098 => some .evtNum
    | 0x09C => some .bx
    | 0x0A0 => some .srcId
    | 0x0A4 => some .evtInfo
    | 0x0A8 => some .feRegs
    | 0x0AC => some .tshInfo
    | 0x0B0 => some .decBytes
    | 0x0B4 => some .trlLen
    | 0x0B8 => some .trlInfo
    | 0x0BC => some .crcComputed
    | 0x0C0 => some .chSel
    | 0x0C4 => some .chInfo
    | 0x0C8 => some .chOffset
    | 0x0CC => some .resKind
    | 0x0D0 => some .resCount
    | 0x0D4 => some .resCm
    | 0x0D8 => some .resNclus
    | 0x0E0 => some .statBad0
    | 0x0E4 => some .statBad1
    | 0x0E8 => some .statBad2
    | 0x0EC => some .statBadCount
    | 0x200 => some .encCfg0
    | 0x204 => some .encCfg1
    | 0x208 => some .encCfg2
    | 0x20C => some .encLen
    | 0x210 => some .encCrc
    | 0x300 => some .curBase
    | 0x304 => some .curOff
    | 0x308 => some .curRem
    | 0x30C => some .curData
    | 0x320 => some .crcStart
    | 0x324 => some .crcLen
    | 0x328 => some .crcResult
    | _ => none

/-- What a block address names (20_memory.md R101). -/
inductive BusTarget where
  | reg (r : Reg)
  | ram (r : Ram) (i : Nat)
  /-- A reserved register offset or an unmapped address: reads 0, writes ignored. -/
  | nothing
  deriving DecidableEq, Repr

/-- The address decoder; address bits [1:0] are ignored (20_memory.md R100, R101). -/
def busTarget (a : BusAddr) : BusTarget :=
  if a.toNat < 0x1000 then
    match regAtWord (a.toNat / 4) with
    | some r => .reg r
    | none => .nothing
  else
    match ramAt a.toNat with
    | some (r, i) => .ram r i
    | none => .nothing

/-- The value of a register, bits it does not have read as 0 (10_state.md R40-R53). CMD is write-only and reads 0. -/
def readReg (s : State) : Reg → Word
  | .id => Config.idWord
  | .cmd => 0
  | .status => statusWord s
  | .irqEn => irqEnWord s.irq
  | .irqPend => irqPendWord s.irq
  | .errCode => s.errs.code.zeroExtend 32
  | .errOffset => s.errs.offset
  | .errChannel => s.errs.channel.zeroExtend 32
  | .errExpected => s.errs.expected
  | .errActual => s.errs.actual
  | .decCfg => s.decCfg
  | .decLen => s.decLen
  | .daqhHi => s.hdr.daqhHi
  | .daqhLo => s.hdr.daqhLo
  | .tshHi => s.hdr.tshHi
  | .tshLo => s.hdr.tshLo
  | .trlHi => s.hdr.trlHi
  | .trlLo => s.hdr.trlLo
  | .evtNum => s.hdr.evtNum.zeroExtend 32
  | .bx => s.hdr.bx.zeroExtend 32
  | .srcId => s.hdr.srcId.zeroExtend 32
  | .evtInfo => s.hdr.evtInfo.zeroExtend 32
  | .feRegs => s.hdr.feRegs
  | .tshInfo => s.hdr.tshInfo
  | .decBytes => s.hdr.decBytes
  | .trlLen => s.hdr.trlLen.zeroExtend 32
  | .trlInfo => s.hdr.trlInfo.zeroExtend 32
  | .crcComputed => s.crcComputed.zeroExtend 32
  | .chSel => s.chan.sel.zeroExtend 32
  | .chInfo => s.chan.info
  | .chOffset => s.chan.offset
  | .resKind => s.res.kind.zeroExtend 32
  | .resCount => s.res.count
  | .resCm => s.res.cm
  | .resNclus => s.res.nclus
  | .statBad0 => s.stat.bad0
  | .statBad1 => s.stat.bad1
  | .statBad2 => s.stat.bad2
  | .statBadCount => s.stat.count.zeroExtend 32
  | .unitOff u => s.hdr.units[u].off
  | .unitLen u => s.hdr.units[u].len
  | .fehMaj u => s.hdr.units[u].maj.zeroExtend 32
  | .fehRsv u => s.hdr.units[u].rsv
  | .encCfg0 => s.enc.cfg0
  | .encCfg1 => s.enc.cfg1
  | .encCfg2 => s.enc.cfg2
  | .encLen => s.enc.len
  | .encCrc => s.enc.crc.zeroExtend 32
  | .curBase => s.cur.base
  | .curOff => s.cur.off
  | .curRem => s.cur.rem
  | .curData => s.cur.data
  | .crcStart => s.crc.start
  | .crcLen => s.crc.len
  | .crcResult => s.crc.result.zeroExtend 32

/-- A write to a register while the engine is idle; read-only registers ignore it (10_state.md R36, R40-R53). -/
def writeReg (v : Word) (s : State) : Reg → State
  | .cmd => latchCommand v s
  | .status => { s with flags := clearStatus v s.flags }
  | .irqEn => { s with irq := writeIrqEn v s.irq }
  | .irqPend => { s with irq := clearIrqPend v s.irq }
  | .decCfg => { s with decCfg := v &&& decCfgMask }
  | .decLen => { s with decLen := v }
  | .encCfg0 => { s with enc := { s.enc with cfg0 := v &&& encCfg0Mask } }
  | .encCfg1 => { s with enc := { s.enc with cfg1 := v } }
  | .encCfg2 => { s with enc := { s.enc with cfg2 := v &&& encCfg2Mask } }
  | .curBase => { s with cur := { s.cur with base := v } }
  | .curOff => { s with cur := { s.cur with off := v } }
  | .curRem => { s with cur := { s.cur with rem := v } }
  | .crcStart => { s with crc := { s.crc with start := v } }
  | .crcLen => { s with crc := { s.crc with len := v } }
  | .id => s
  | .errCode => s
  | .errOffset => s
  | .errChannel => s
  | .errExpected => s
  | .errActual => s
  | .daqhHi => s
  | .daqhLo => s
  | .tshHi => s
  | .tshLo => s
  | .trlHi => s
  | .trlLo => s
  | .evtNum => s
  | .bx => s
  | .srcId => s
  | .evtInfo => s
  | .feRegs => s
  | .tshInfo => s
  | .decBytes => s
  | .trlLen => s
  | .trlInfo => s
  | .crcComputed => s
  | .chSel => s
  | .chInfo => s
  | .chOffset => s
  | .resKind => s
  | .resCount => s
  | .resCm => s
  | .resNclus => s
  | .statBad0 => s
  | .statBad1 => s
  | .statBad2 => s
  | .statBadCount => s
  | .unitOff _ => s
  | .unitLen _ => s
  | .fehMaj _ => s
  | .fehRsv _ => s
  | .encLen => s
  | .encCrc => s
  | .curData => s
  | .crcResult => s

/-- The host word of a RAM entry (10_state.md R34). -/
def readRam (s : State) (r : Ram) (i : Nat) : Word :=
  match r with
  | .ibuf => ramWord s.mem .ibuf i
  | .obuf => ramWord s.mem .obuf i
  | .strip => (ramHalf s.mem .strip i).zeroExtend 32
  | .cm => (ramHalf s.mem .cm i).zeroExtend 32
  | .fin => (ramHalf s.mem .fin i).zeroExtend 32
  | .fout => (ramHalf s.mem .fout i).zeroExtend 32
  | .res => (ramHalf s.mem .res i).zeroExtend 32

/-- Write a 16-bit RAM entry; host bits [31:16] are ignored (10_state.md R34). -/
def writeHalfEntry (v : Word) (r : Ram) (i : Nat) (s : State) : State :=
  { s with mem := Memory.storeHalves s.mem (ramAddr r i) [v.extractLsb' 0 16] }

/-- A host write to a RAM entry: IBUF discards EV, OBUF clears ENC_VALID, RES is read-only (10_state.md R34, R57;
20_memory.md R109). -/
def writeRam (v : Word) (i : Nat) (s : State) : Ram → State
  | .ibuf => invalidate { s with mem := Memory.storeWords s.mem (ramAddr .ibuf i) [v] }
  | .obuf =>
    { s with
      mem := Memory.storeWords s.mem (ramAddr .obuf i) [v]
      flags := { s.flags with encValid := false } }
  | .strip => writeHalfEntry v .strip i s
  | .cm => writeHalfEntry v .cm i s
  | .fin => writeHalfEntry v .fin i s
  | .fout => writeHalfEntry v .fout i s
  | .res => s

/-- What a read of an idle block returns (20_memory.md R101). -/
def readTarget (s : State) : BusTarget → Word
  | .reg r => readReg s r
  | .ram r i => readRam s r i
  | .nothing => 0

/-- What a write to an idle block does (20_memory.md R101, R109). -/
def writeTarget (v : Word) (s : State) : BusTarget → State
  | .reg r => writeReg v s r
  | .ram r i => writeRam v i s r
  | .nothing => s

/-- Hand a read value to the host. -/
def respond (v : Word) (s : State) : State := { s with outbox := s.outbox ++ [v] }

/-- A read refused during BUSY: a free value, and BUSY_ACCESS (20_memory.md R110). -/
def refuseRead (s : State) : State :=
  respond (Config.refusedRead s.draws) { s with flags := { s.flags with busyAccess := true }, draws := s.draws + 1 }

/-- The registers that can be read during BUSY (20_memory.md R110). -/
def readableWhileBusy : BusTarget → Bool
  | .reg .id => true
  | .reg .status => true
  | .reg .irqEn => true
  | .reg .irqPend => true
  | _ => false

/-- MemRead(a, 4) (20_memory.md R100, R110). -/
def hostRead (a : BusAddr) (s : State) : State :=
  if s.busy && !readableWhileBusy (busTarget a) then refuseRead s else respond (readTarget s (busTarget a)) s

/-- A host write during BUSY (20_memory.md R110; 10_state.md R36). A write to ID is not refused: it is ignored, as of any
read-only register (92_eei_decisions.md D30; 10_state.md R40; log entry 7). -/
def busyWrite (v : Word) (s : State) : BusTarget → State
  | .reg .id => s
  | .reg .cmd => { s with flags := { s.flags with cmdOverrun := true } }
  | .reg .status => writeReg v s .status
  | .reg .irqEn => writeReg v s .irqEn
  | .reg .irqPend => writeReg v s .irqPend
  | _ => { s with flags := { s.flags with busyAccess := true } }

/-- MemWrite(a, 4, v) (20_memory.md R100, R110). -/
def hostWrite (a : BusAddr) (v : Word) (s : State) : State :=
  if s.busy then busyWrite v s (busTarget a) else writeTarget v s (busTarget a)

end Sys2Proof.Machine
end

