-- ==== Sys2Proof/Machine/Crc.lean ====
section
/-! DEFINITION. The CRC-16 and its two commands (41_crc.md). -/

namespace Sys2Proof.Machine

/-- One step of the inner loop (41_crc.md R240). -/
def crcBit (c : Half) : Half := if c.getLsbD 15 then (c <<< 1) ^^^ Config.crcPoly else c <<< 1

/-- The eight steps of the inner loop. -/
def crcEight (c : Half) : Half := crcBit (crcBit (crcBit (crcBit (crcBit (crcBit (crcBit (crcBit c)))))))

/-- One byte of the sequence (41_crc.md R240). -/
def crcByte (c : Half) (b : Byte) : Half := crcEight (c ^^^ (b.zeroExtend 16 <<< 8))

/-- crc16(s) (41_crc.md R240). -/
def crc16 (bytes : List Byte) : Half := bytes.foldl crcByte Config.crcInit

/-- The first of the two logical bytes of the CRC field of a trailer at `t` (30_encoding.md R176). -/
def crcFieldOffset (t : Nat) : EventFormat → Nat
  | .standard => t + 4
  | .oldVme => t

/-- The bytes of an event with its trailer at `t`, the CRC field read as zeros (41_crc.md R242). -/
def maskedEventBytes (m : Memory) (t : Nat) (fmt : EventFormat) : List Byte :=
  (List.range (t + 8)).map fun i =>
    if i = crcFieldOffset t fmt ∨ i = crcFieldOffset t fmt + 1 then 0 else logicalByte m i

/-- ecrc(T, fmt) (41_crc.md R242). -/
def eventCrc (m : Memory) (t : Nat) (fmt : EventFormat) : Half := crc16 (maskedEventBytes m t fmt)

/-- CRC16 (41_crc.md R243). -/
def execCrc (s : State) : Host.Outcome State Fault Refusal :=
  finish s id <|
    if ibufBytes < s.crc.start.toNat + s.crc.len.toNat then
      .error { name := .outOfRange, offset := s.crc.start.toNat, channel := noChannel, expected := ibufBytes,
               actual := s.crc.start.toNat + s.crc.len.toNat }
    else
      .ok { s with crc := { s.crc with result := crc16 (logicalBytes s.mem s.crc.start.toNat s.crc.len.toNat) } }

/-- CRC16_BE, the best-effort event CRC (41_crc.md R245). -/
def execCrcBe (s : State) : Host.Outcome State Fault Refusal :=
  finish s id <|
    if Config.ibufWords < s.decLen.toNat then
      .error { name := .configInvalid, offset := 0, channel := noChannel, expected := Config.ibufWords,
               actual := s.decLen.toNat }
    else if 4 * s.decLen.toNat < 8 then
      .error { name := .bufferTooShort, offset := 0, channel := noChannel, expected := 8, actual := 4 * s.decLen.toNat }
    else
      .ok { s with
        crc := { s.crc with result := eventCrc s.mem (4 * s.decLen.toNat - 8) (cfgEvfmt s.decCfg) } }

end Sys2Proof.Machine
end

