-- ==== Sys2Proof/Machine/Cursor.lean ====
section
/-! DEFINITION. The cursor commands (40_cursor.md). They touch CUR_BASE, CUR_OFF, CUR_REM, CUR_DATA and the completion state,
nothing else (R227). -/

namespace Sys2Proof.Machine

/-- A cursor read of `n` bytes at offset `k`: the bounds check, then CUR_DATA (40_cursor.md R221-R224). -/
def cursorRead (k n : Nat) (value : Nat → Word) (s : State) : Except CommandError State :=
  match cursorNeed s.cur k n with
  | .ok q => .ok { s with cur := { s.cur with data := value q } }
  | .error e => .error e

/-- CUR_BYTE (40_cursor.md R222). -/
def execCurByte (k : Nat) (s : State) : Host.Outcome State Fault Refusal :=
  finish s id (cursorRead k 1 (fun q => (logicalByte s.mem q).zeroExtend 32) s)

/-- CUR_U16 (40_cursor.md R223). -/
def execCurU16 (k : Nat) (swap : Bool) (s : State) : Host.Outcome State Fault Refusal :=
  finish s id (cursorRead k 2 (fun q => (if swap then u16le s.mem q else u16be s.mem q).zeroExtend 32) s)

/-- CUR_U32 (40_cursor.md R224). -/
def execCurU32 (k : Nat) (swap : Bool) (s : State) : Host.Outcome State Fault Refusal :=
  finish s id (cursorRead k 4 (fun q => if swap then u32le s.mem q else be32 s.mem q) s)

/-- CUR_ADVANCE (40_cursor.md R225). -/
def execCurAdv (n : Nat) (s : State) : Host.Outcome State Fault Refusal :=
  finish s id <|
    if s.cur.rem.toNat < n then
      .error { name := .outOfRange, offset := cursorPos s.cur, channel := noChannel, expected := s.cur.rem.toNat, actual := n }
    else
      .ok { s with cur := { s.cur with off := s.cur.off + BitVec.ofNat 32 n, rem := s.cur.rem - BitVec.ofNat 32 n } }

/-- CUR_NORMALIZE (40_cursor.md R226). -/
def execCurNorm (s : State) : Host.Outcome State Fault Refusal :=
  finish s id <|
    .ok { s with
      cur := { s.cur with
        base := BitVec.ofNat 32 (cursorPos s.cur) &&& 0xFFFFFFFC
        off := BitVec.ofNat 32 (cursorPos s.cur) &&& 3 } }

end Sys2Proof.Machine
end

