-- ==== Sys2Proof/Machine/Reorder.lean ====
section
/-! DEFINITION. The strip permutation and its two commands (42_reorder.md). -/

namespace Sys2Proof.Machine

/-- STRIP_PERM: the physical strip of MUX position i (42_reorder.md R260). -/
def stripOfMux (i : Nat) : Nat := 32 * (i % 4) + 8 * (i / 4 % 4) + i / 16

/-- The MUX position of physical strip s (42_reorder.md R260). -/
def muxOfStrip (s : Nat) : Nat := 16 * (s % 8) + 4 * (s / 8 % 4) + s / 32

/-- reorder: entry P(i) of the result is entry i of the MUX-order frame (42_reorder.md R262, R265). -/
def reorderFrame (mux : List Half) : List Half := (List.range 128).map fun s => mux.getD (muxOfStrip s) 0

/-- disorder: entry i of the result is entry P(i) of the physical-order frame (42_reorder.md R263, R265). -/
def disorderFrame (phys : List Half) : List Half := (List.range 128).map fun i => phys.getD (stripOfMux i) 0

/-- Write FOUT with a permutation of FIN. -/
def permuteFrame (perm : List Half → List Half) (s : State) : State :=
  { s with mem := Memory.storeHalves s.mem (ramBase .fout) (perm (Memory.halves s.mem (ramBase .fin) 128)) }

/-- REORDER (42_reorder.md R262). -/
def execReorder (s : State) : Host.Outcome State Fault Refusal := finish s id (.ok (permuteFrame reorderFrame s))

/-- DISORDER (42_reorder.md R263). -/
def execDisorder (s : State) : Host.Outcome State Fault Refusal := finish s id (.ok (permuteFrame disorderFrame s))

end Sys2Proof.Machine
end

