-- ==== Sys2Proof/Machine/Decoder.lean ====
section
/-! DEFINITION. The decoder commands (43_decoder.md). -/

namespace Sys2Proof.Machine

/-- The bits [hi:lo] of a header or trailer word, as a field `n` bits wide from `lo` on (00_scope.md R13). -/
def dfield (v : DWord) (lo n : Nat) : BitVec n := v.extractLsb' lo n

/-- The entry EV.chan holds for a channel of a disabled unit; nothing reads it (10_state.md R56). -/
def ChannelEntry.absent : ChannelEntry := { off := 0, len := 0, pcode := 0 }

/-- The channels of a unit, from channel `ch` at offset `q` on: their entries and the offset after the last
(43_decoder.md R287). OUT_OF_RANGE has the end needed as its expected value and the buffer's end as its actual value, as R287 writes
it; 60_exceptions.md R401 has them the other way round. DEDUCED (log entry 16): R287 is followed. -/
def walkChannels (m : Memory) (nb : Nat) : Nat → Nat → Nat → Except CommandError (List ChannelEntry × Nat)
  | 0, _, q => .ok ([], q)
  | n + 1, ch, q =>
    let len := (u16le m q).toNat
    if nb < q + 2 then .error { name := .outOfRange, offset := q, channel := ch, expected := q + 2, actual := nb }
    else if len < 3 then .error { name := .badChannelLength, offset := q, channel := ch, expected := 3, actual := len }
    else if nb < q + len then
      .error { name := .outOfRange, offset := q, channel := ch, expected := q + len, actual := nb }
    else
      match walkChannels m nb n (ch + 1) (q + len) with
      | .ok (entries, last) => .ok ({ off := q, len := len, pcode := logicalByte m (q + 2) } :: entries, last)
      | .error e => .error e

/-- What the walk of one unit finds: where its payload starts, its padded length and its twelve channels. -/
structure UnitWalk where
  off : Nat
  len : Nat
  chan : List ChannelEntry
  deriving DecidableEq, Repr

/-- The recorded unit length of a FullDebug slot (30_encoding.md R165). -/
def recordedLength (m : Memory) (h0 u : Nat) : Nat := (u16le m (h0 + 16 * u + 14)).toNat

/-- `walk(u, P)`: the channel walk and the effective unit length (43_decoder.md R287, R288). -/
def walkUnit (m : Memory) (hdrfmt : HeaderFormat) (nb h0 u p : Nat) : Except CommandError UnitWalk :=
  match walkChannels m nb 12 (12 * u) p with
  | .error e => .error e
  | .ok (entries, q) =>
    match hdrfmt with
    | .fullDebug =>
      if recordedLength m h0 u < q - p then
        .error { name := .unitOverrun, offset := p, channel := 12 * u + 11, expected := recordedLength m h0 u,
                 actual := q - p }
      else .ok { off := p, len := roundup8 (recordedLength m h0 u), chan := entries }
    | .apvError => .ok { off := p, len := roundup8 (q - p), chan := entries }

/-- The result of a disabled unit (43_decoder.md R284). -/
def UnitWalk.disabled : UnitWalk := { off := 0, len := 0, chan := List.replicate 12 ChannelEntry.absent }

/-- The units `us` in order, the next enabled one starting at `p`; also the offset after the last (43_decoder.md R284). -/
def walkUnits (m : Memory) (hdrfmt : HeaderFormat) (enable : BitVec 8) (nb h0 : Nat) :
    List Nat → Nat → Except CommandError (List UnitWalk × Nat)
  | [], p => .ok ([], p)
  | u :: us, p =>
    if enable.getLsbD u then
      match walkUnit m hdrfmt nb h0 u p with
      | .error e => .error e
      | .ok w =>
        match walkUnits m hdrfmt enable nb h0 us (p + w.len) with
        | .error e => .error e
        | .ok (ws, t) => .ok (w :: ws, t)
    else
      match walkUnits m hdrfmt enable nb h0 us p with
      | .error e => .error e
      | .ok (ws, t) => .ok (UnitWalk.disabled :: ws, t)

/-- The unit registers of unit u (43_decoder.md R284, R289). -/
def unitRegs (m : Memory) (hdrfmt : HeaderFormat) (enable : BitVec 8) (h0 u : Nat) (w : UnitWalk) : UnitRegs :=
  { off := BitVec.ofNat 32 w.off
    len := BitVec.ofNat 32 w.len
    maj := if enable.getLsbD u ∧ hdrfmt = .fullDebug then logicalByte m (h0 + 16 * u + 9) else 0
    rsv := if enable.getLsbD u ∧ hdrfmt = .fullDebug then u32le m (h0 + 16 * u + 10) else 0 }

/-- The header result registers from the DAQ header, the TSH, the trailer, the enabled-unit mask, the trailer's offset and
the unit registers (43_decoder.md R289; field positions of 30_encoding.md R155, R160, R175). -/
def headerRegs (dh ts tr : DWord) (enable : BitVec 8) (t : Nat) (units : Vector UnitRegs 8) : HeaderRegs :=
  { daqhHi := dfield dh 32 32
    daqhLo := dfield dh 0 32
    tshHi := dfield ts 32 32
    tshLo := dfield ts 0 32
    trlHi := dfield tr 32 32
    trlLo := dfield tr 0 32
    evtNum := dfield dh 32 24
    bx := dfield dh 20 12
    srcId := dfield dh 8 12
    evtInfo := dfield dh 4 4 ++ dfield dh 56 4
    feRegs := dfield ts 40 8 ++ dfield ts 48 8 ++ dfield ts 24 8 ++ enable
    tshInfo := dfield ts 0 16 ++ (0 : BitVec 8) ++ dfield ts 56 4 ++ dfield ts 60 4
    decBytes := BitVec.ofNat 32 (t + 8)
    trlLen := dfield tr 32 24
    trlInfo := dfield tr 15 1 ++ dfield tr 4 4 ++ dfield tr 8 4 ++ dfield tr 16 16
    units := units }

/-- What a successful parse commits (43_decoder.md R289). -/
structure Parsed where
  ev : EventRecord
  hdr : HeaderRegs
  deriving DecidableEq, Repr

/-- The enabled-unit mask (43_decoder.md R285). -/
def enabledMask (cfg : Word) (ts : DWord) : BitVec 8 := if cfgLegacy cfg then cfgExtEnable cfg else dfield ts 32 8

/-- The TSH, absent in legacy data (43_decoder.md R283). -/
def tshWord (m : Memory) (cfg : Word) : DWord := if cfgLegacy cfg then 0 else rd64 m 8 (cfgEvfmt cfg)

/-- The event record and the header registers, once the walk found the units and the trailer's offset (43_decoder.md R289). -/
def parsedEvent (m : Memory) (cfg : Word) (mode : DaqMode) (nb : Nat) (ws : List UnitWalk) (t : Nat) : Parsed :=
  { ev :=
      { evfmt := cfgEvfmt cfg
        hdrfmt := cfgHdrfmt cfg
        legacy := cfgLegacy cfg
        mode := mode
        nbytes := nb
        h0 := headerStart (cfgLegacy cfg)
        enable := enabledMask cfg (tshWord m cfg)
        chan := Vector.ofFn fun ch => (ws.flatMap UnitWalk.chan).getD ch ChannelEntry.absent
        t := t }
    hdr :=
      headerRegs (rd64 m 0 (cfgEvfmt cfg)) (tshWord m cfg) (rd64 m t (cfgEvfmt cfg)) (enabledMask cfg (tshWord m cfg)) t
        (Vector.ofFn fun u =>
          unitRegs m (cfgHdrfmt cfg) (enabledMask cfg (tshWord m cfg)) (headerStart (cfgLegacy cfg)) u
            (ws.getD u UnitWalk.disabled)) }

/-- The parse: the checks in the order of 43_decoder.md R282, then the walk and the trailer check (R284). The trailer's
OUT_OF_RANGE has its arguments in R284's order, against 60_exceptions.md R401. DEDUCED (log entry 16). -/
def parseEvent (m : Memory) (cfg : Word) (decLen : Nat) : Except CommandError Parsed :=
  let h0 := headerStart (cfgLegacy cfg)
  let p0 := h0 + feHeaderSize (cfgHdrfmt cfg)
  let nb := 4 * decLen
  match modeOfCode (cfgModeCode cfg) with
  | none =>
    .error { name := .configInvalid, offset := 0, channel := noChannel, expected := 4, actual := cfgModeCode cfg }
  | some mode =>
    if Config.ibufWords < decLen then
      .error { name := .configInvalid, offset := 0, channel := noChannel, expected := Config.ibufWords, actual := decLen }
    else if nb < p0 + 8 then
      .error { name := .bufferTooShort, offset := 0, channel := noChannel, expected := p0 + 8, actual := nb }
    else if decLen % 2 = 1 then
      .error { name := .badBufferLength, offset := nb, channel := noChannel, expected := decLen + 1, actual := decLen }
    else
      match walkUnits m (cfgHdrfmt cfg) (enabledMask cfg (tshWord m cfg)) nb h0 [0, 1, 2, 3, 4, 5, 6, 7] p0 with
      | .error e => .error e
      | .ok (ws, t) =>
        if nb < t + 8 then
          .error { name := .outOfRange, offset := t, channel := noChannel, expected := t + 8, actual := nb }
        else .ok (parsedEvent m cfg mode nb ws t)

/-- What a successful parse leaves (43_decoder.md R289): EV, the header registers, and every other decoder result register 0. -/
def commitParse (p : Parsed) (s : State) : State :=
  { s with
    ev := some p.ev
    hdr := p.hdr
    crcComputed := 0
    chan := { sel := 0, info := 0, offset := 0 }
    res := { kind := 0, count := 0, cm := 0, nclus := 0 }
    stat := { bad0 := 0, bad1 := 0, bad2 := 0, count := 0 } }

/-- DEC_PARSE (43_decoder.md R284): EV and the integrity flags are cleared first, whatever follows. -/
def execDecParse (s : State) : Host.Outcome State Fault Refusal :=
  finish s invalidate <|
    match parseEvent s.mem s.decCfg s.decLen.toNat with
    | .ok p => .ok (commitParse p (invalidate s))
    | .error e => .error e

/-- Field of `n` bits from bit `k` of the status bit string that starts at logical byte `start` (30_encoding.md R166). -/
def statusBits (m : Memory) (start k n : Nat) : BitVec n :=
  BitVec.ofNat n ((List.range n).foldl
    (fun x j => x + (((logicalByte m (start + (k + j) / 8)).getLsbD ((k + j) % 8)).toNat <<< j)) 0)

/-- st(ch), zero-extended to 6 bits (43_decoder.md R291). -/
def channelStatus (m : Memory) (ev : EventRecord) (ch : Nat) : BitVec 6 :=
  match ev.hdrfmt with
  | .fullDebug => statusBits m (ev.h0 + 16 * (ch / 12)) (6 * (ch % 12)) 6
  | .apvError => (statusBits m ev.h0 (2 * ch) 2).zeroExtend 6

/-- The all-ones status of a header format (43_decoder.md R320). -/
def goodStatus : HeaderFormat → BitVec 6
  | .fullDebug => 0x3F
  | .apvError => 0x3

/-- The NO_EVENT error of an accessor run without an event (43_decoder.md R280). -/
def noEvent : CommandError := { name := .noEvent, offset := 0, channel := noChannel, expected := 1, actual := 0 }

/-- Resolving a fed channel: the checks of DEC_CHANNEL, in order (43_decoder.md R290). -/
def resolveChannel (ev? : Option EventRecord) (idx : Nat) : Except CommandError (EventRecord × ChannelEntry) :=
  match ev? with
  | none => .error noEvent
  | some ev =>
    if h : idx < 96 then
      if ev.enable.getLsbD (idx / 12) then .ok (ev, ev.chan[idx])
      else .error { name := .feUnitDisabled, offset := 0, channel := idx, expected := 1, actual := 0 }
    else .error { name := .channelOutOfBounds, offset := 0, channel := idx, expected := 95, actual := idx }

/-- CH_SEL, CH_INFO and CH_OFFSET of a resolved channel (43_decoder.md R290). -/
def channelRegs (m : Memory) (ev : EventRecord) (idx : Nat) (c : ChannelEntry) : ChannelRegs :=
  { sel := BitVec.ofNat 8 idx
    info := BitVec.ofNat 16 c.len ++ (0 : BitVec 2) ++ channelStatus m ev idx ++ c.pcode
    offset := BitVec.ofNat 32 c.off }

/-- DEC_CHANNEL (43_decoder.md R290). -/
def execDecChan (idx : Nat) (s : State) : Host.Outcome State Fault Refusal :=
  finish s id <|
    match resolveChannel s.ev idx with
    | .ok (ev, c) => .ok { s with chan := channelRegs s.mem ev idx c }
    | .error e => .error e

/-- The decoded body of a channel (43_decoder.md R295). -/
structure Samples where
  kind : BitVec 2
  entries : List Half
  nclus : Nat
  cm0 : Half
  cm1 : Half
  deriving DecidableEq, Repr

/-- PAYLOAD_CORRUPT (60_exceptions.md R401). -/
def payloadCorrupt (offset idx expected actual : Nat) : CommandError :=
  { name := .payloadCorrupt, offset := offset, channel := idx, expected := expected, actual := actual }

/-- A VirginRaw or ProcessedRaw body (43_decoder.md R297). -/
def rawBody (m : Memory) (mode : DaqMode) (w : Width) (idx : Nat) (c : ChannelEntry) : Except CommandError Samples :=
  if c.len - 3 ≠ codedSize 256 mode w then
    .error (payloadCorrupt c.off idx (3 + codedSize 256 mode w) c.len)
  else
    .ok { kind := 1
          entries :=
            reorderFrame ((decodedValues m mode w (c.off + 3) 256).take 128) ++
              reorderFrame ((decodedValues m mode w (c.off + 3) 256).drop 128)
          nclus := 0
          cm0 := 0
          cm1 := 0 }

/-- A Scope body (43_decoder.md R298). -/
def scopeBody (m : Memory) (idx : Nat) (c : ChannelEntry) : Except CommandError Samples :=
  if (c.len - 3) % 2 ≠ 0 then .error (payloadCorrupt c.off idx (c.len - 1) c.len)
  else
    .ok { kind := 1
          entries := (List.range ((c.len - 3) / 2)).map fun k => u16le m (c.off + 3 + 2 * k)
          nclus := 0
          cm0 := 0
          cm1 := 0 }

/-- The cluster walk from offset `q` to `last`: the RES entries and the number of clusters (43_decoder.md R300, R301). A
cluster takes at least 3 bytes, so `last - q` rounds are more than enough. -/
def walkClusters (m : Memory) (mode : DaqMode) (w : Width) (idx last : Nat) :
    Nat → Nat → Except CommandError (List Half × Nat)
  | 0, _ => .ok ([], 0)
  | fuel + 1, q =>
    let a := (logicalByte m q).toNat
    let wd := (logicalByte m (q + 1)).toNat
    let n := codedSize wd mode w
    if last ≤ q then .ok ([], 0)
    else if last < q + 2 then .error (payloadCorrupt q idx (q + 2) last)
    else if wd = 0 then .error (payloadCorrupt (q + 1) idx 1 0)
    else if 256 < a + wd then .error (payloadCorrupt q idx 256 (a + wd))
    else if last < q + 2 + n then .error (payloadCorrupt q idx (q + 2 + n) last)
    else
      match walkClusters m mode w idx last fuel (q + 2 + n) with
      | .ok (entries, k) =>
        .ok (BitVec.ofNat 16 a :: BitVec.ofNat 16 wd :: decodedValues m mode w (q + 2) wd ++ entries, k + 1)
      | .error e => .error e

/-- The clusters of a body from `q` on, with its medians (43_decoder.md R299, R300). -/
def clusterBody (m : Memory) (mode : DaqMode) (w : Width) (idx last q : Nat) (cm0 cm1 : Half) :
    Except CommandError Samples :=
  match walkClusters m mode w idx last (last - q) q with
  | .ok (entries, k) => .ok { kind := 2, entries := entries, nclus := k, cm0 := cm0, cm1 := cm1 }
  | .error e => .error e

/-- A ZeroSuppressed body, `withMedians`, or a ZeroSuppressedLite body (43_decoder.md R299). -/
def zeroSuppressedBody (m : Memory) (mode : DaqMode) (w : Width) (idx : Nat) (c : ChannelEntry) (withMedians : Bool) :
    Except CommandError Samples :=
  if withMedians then
    if c.len - 3 < 4 then .error (payloadCorrupt c.off idx 7 c.len)
    else
      clusterBody m mode w idx (c.off + c.len) (c.off + 3 + 4) (u16le m (c.off + 3)) (u16le m (c.off + 3 + 2))
  else clusterBody m mode w idx (c.off + c.len) (c.off + 3) 0 0

/-- The body of a channel by its mode (43_decoder.md R295). -/
def channelBody (m : Memory) (mode : DaqMode) (w : Width) (idx : Nat) (c : ChannelEntry) : Except CommandError Samples :=
  match mode with
  | .virginRaw => rawBody m .virginRaw w idx c
  | .processedRaw => rawBody m .processedRaw w idx c
  | .scope => scopeBody m idx c
  | .zeroSuppressed => zeroSuppressedBody m .zeroSuppressed w idx c true
  | .zeroSuppressedLite => zeroSuppressedBody m .zeroSuppressedLite w idx c false

/-- The packet code check, then the body (43_decoder.md R295, R296). -/
def decodeSamples (m : Memory) (ev : EventRecord) (idx : Nat) (c : ChannelEntry) : Except CommandError (Width × Samples) :=
  match widthOfPacketCode ev.mode c.pcode with
  | none =>
    .error { name := .packetCodeCorrupt, offset := c.off + 2, channel := idx, expected := (stdPacketCode ev.mode).toNat,
             actual := c.pcode.toNat }
  | some w =>
    match channelBody m ev.mode w idx c with
    | .ok r => .ok (w, r)
    | .error e => .error e

/-- RES_KIND = [1:0] KIND, [5:4] WIDTH, [10:8] MODE (10_state.md R48). -/
def resKind (mode : DaqMode) (w : Width) (kind : BitVec 2) : BitVec 11 :=
  BitVec.ofNat 3 (modeCode mode) ++ (0 : BitVec 2) ++ BitVec.ofNat 2 (widthCode w) ++ (0 : BitVec 2) ++ kind

/-- RES_KIND, RES_COUNT, RES_CM and RES_NCLUS of a decoded body (43_decoder.md R295). -/
def resultRegs (mode : DaqMode) (w : Width) (r : Samples) : ResultRegs :=
  { kind := resKind mode w r.kind
    count := BitVec.ofNat 32 r.entries.length
    cm := r.cm1 ++ r.cm0
    nclus := BitVec.ofNat 32 r.nclus }

/-- A failed DEC_SAMPLES leaves RES_KIND, RES_COUNT, RES_NCLUS and RES_CM 0 (60_exceptions.md R405). -/
def clearResults (s : State) : State := { s with res := { kind := 0, count := 0, cm := 0, nclus := 0 } }

/-- DEC_SAMPLES (43_decoder.md R295). -/
def execDecSamples (idx : Nat) (s : State) : Host.Outcome State Fault Refusal :=
  finish s clearResults <|
    match resolveChannel s.ev idx with
    | .error e => .error e
    | .ok (ev, c) =>
      match decodeSamples s.mem ev idx c with
      | .error e => .error e
      | .ok (w, r) =>
        .ok { s with
          mem := Memory.storeHalves s.mem (ramBase .res) r.entries
          res := resultRegs ev.mode w r
          chan := channelRegs s.mem ev idx c }

/-- DEC_CHECK (43_decoder.md R315). -/
def execDecCheck (s : State) : Host.Outcome State Fault Refusal :=
  finish s id <|
    match s.ev with
    | none => .error noEvent
    | some ev =>
      if cfgSkipCrc s.decCfg then
        .ok { s with
          crcComputed := 0
          flags := { s.flags with
            lenMismatch := lengthMismatch s.hdr.trlLen.toNat ev.t
            crcMismatch := false
            crcChecked := false } }
      else
        .ok { s with
          crcComputed := eventCrc s.mem ev.t ev.evfmt
          flags := { s.flags with
            lenMismatch := lengthMismatch s.hdr.trlLen.toNat ev.t
            crcMismatch := decide (eventCrc s.mem ev.t ev.evfmt ≠ s.hdr.trlInfo.extractLsb' 0 16)
            crcChecked := true } }

/-- A channel of an enabled unit whose status is not all ones (43_decoder.md R320). -/
def badChannel (m : Memory) (ev : EventRecord) (ch : Nat) : Bool :=
  ev.enable.getLsbD (ch / 12) && channelStatus m ev ch != goodStatus ev.hdrfmt

/-- The 32 bits of the bad-channel map from channel `lo` on (43_decoder.md R320). -/
def badWord (m : Memory) (ev : EventRecord) (lo : Nat) : Word :=
  BitVec.ofNat 32 ((List.range 32).foldl (fun x k => x + ((badChannel m ev (lo + k)).toNat <<< k)) 0)

/-- STAT_BAD0..2 and STAT_BAD_COUNT (43_decoder.md R320). -/
def statRegs (m : Memory) (ev : EventRecord) : StatRegs :=
  { bad0 := badWord m ev 0
    bad1 := badWord m ev 32
    bad2 := badWord m ev 64
    count := BitVec.ofNat 7 ((List.range 96).countP (badChannel m ev)) }

/-- DEC_STATUSES (43_decoder.md R320). -/
def execDecStatus (s : State) : Host.Outcome State Fault Refusal :=
  finish s id <|
    match s.ev with
    | none => .error noEvent
    | some ev => .ok { s with stat := statRegs s.mem ev }

end Sys2Proof.Machine
end

