-- ==== Sys2Proof/Machine/Utility.lean ====
section
/-! DEFINITION. NOP and the buffer utility commands (44_encoder.md R370-R372). -/

namespace Sys2Proof.Machine

/-- Exchange words 2k and 2k + 1; a last odd word stays (44_encoder.md R353, R371). -/
def swapPairs : List Word → List Word
  | a :: b :: ws => b :: a :: swapPairs ws
  | ws => ws

/-- The first n words of a buffer, swapped in pairs, in place. -/
def swapBuffer (m : Memory) (r : Ram) (n : Nat) : Memory :=
  Memory.storeWords m (ramBase r) (swapPairs (Memory.words m (ramBase r) n))

/-- NOP (44_encoder.md R370). -/
def execNop (s : State) : Host.Outcome State Fault Refusal := finish s id (.ok s)

/-- SWAP64 (44_encoder.md R371). ENC_LEN never passes OBUF_WORDS in a run; words past OBUF do not exist (log entry 9). -/
def execSwap64 (tgt : SwapTarget) (s : State) : Host.Outcome State Fault Refusal :=
  finish s id <|
    match tgt with
    | .ibuf =>
      if Config.ibufWords < s.decLen.toNat then
        .error { name := .configInvalid, offset := 0, channel := noChannel, expected := Config.ibufWords,
                 actual := s.decLen.toNat }
      else .ok (invalidate { s with mem := swapBuffer s.mem .ibuf s.decLen.toNat })
    | .obuf => .ok { s with mem := swapBuffer s.mem .obuf (min s.enc.len.toNat Config.obufWords) }

/-- COPY_O2I (44_encoder.md R372). -/
def execCopyO2i (s : State) : Host.Outcome State Fault Refusal :=
  finish s id <|
    if Config.ibufWords < s.enc.len.toNat then
      .error { name := .configInvalid, offset := 0, channel := noChannel, expected := Config.ibufWords,
               actual := s.enc.len.toNat }
    else
      .ok (invalidate { s with
        mem := Memory.storeWords s.mem (ramBase .ibuf) (Memory.words s.mem (ramBase .obuf) s.enc.len.toNat)
        decLen := s.enc.len })

end Sys2Proof.Machine
end

