-- ==== Sys2Proof/Machine/Encoder.lean ====
section
/-! DEFINITION. ENC_BUILD (44_encoder.md R340-R354). The working copy X of R340 is built region by region as a list of logical
bytes, each region with the values R343-R351 leave in it after the back-fills. -/

namespace Sys2Proof.Machine

/-- The encoder's configuration, as ENC_CFG0, ENC_CFG1 and ENC_CFG2 give it (10_state.md R49, R50). -/
structure EncoderConfig where
  bx : BitVec 12
  mode : DaqMode
  hdrfmt : HeaderFormat
  width : Width
  slink64 : Bool
  cmValid : Bool
  evtNum : BitVec 24
  evtTy : BitVec 4
  fov : BitVec 4
  srcId : BitVec 12
  evtStat : BitVec 4
  tts : BitVec 4
  threshold : Nat
  deriving DecidableEq, Repr

/-- The fields of ENC_CFG0..2, given what MODE and WIDTH stand for (10_state.md R49, R50). -/
def encoderFields (e : EncoderRegs) (mode : DaqMode) (width : Width) : EncoderConfig :=
  { bx := e.cfg0.extractLsb' 0 12
    mode := mode
    hdrfmt := if e.cfg0.getLsbD 15 then .apvError else .fullDebug
    width := width
    slink64 := e.cfg0.getLsbD 18
    cmValid := e.cfg0.getLsbD 19
    evtNum := e.cfg1.extractLsb' 0 24
    evtTy := e.cfg1.extractLsb' 24 4
    fov := e.cfg1.extractLsb' 28 4
    srcId := e.cfg2.extractLsb' 0 12
    evtStat := e.cfg2.extractLsb' 12 4
    tts := e.cfg2.extractLsb' 16 4
    threshold := field e.cfg2 20 10 }

/-- The configuration checks of ENC_BUILD, in order, answering the configuration and the packet code (44_encoder.md R342). -/
def encoderConfig (e : EncoderRegs) : Except CommandError (EncoderConfig × Byte) :=
  let modeField := field e.cfg0 12 3
  let widthField := field e.cfg0 16 2
  match modeOfCode modeField with
  | none => .error { name := .configInvalid, offset := 0, channel := noChannel, expected := 4, actual := modeField }
  | some mode =>
    match packetCode mode (widthOfCode widthField) with
    | none => .error { name := .configInvalid, offset := 0, channel := noChannel, expected := 0, actual := widthField }
    | some pc => .ok (encoderFields e mode (widthOfCode widthField), pc)

/-- The logical bytes of a 64-bit word in Standard order (30_encoding.md R151). -/
def dwordBytes (v : DWord) : List Byte := (List.range 8).map fun i => v.extractLsb' (56 - 8 * i) 8

/-- A 16-bit field in little-endian order (30_encoding.md R149). -/
def le16 (n : Nat) : List Byte := [(BitVec.ofNat 16 n).extractLsb' 0 8, (BitVec.ofNat 16 n).extractLsb' 8 8]

/-- The DAQ header word (44_encoder.md R343). -/
def daqHeader (c : EncoderConfig) : DWord :=
  (0x5 : BitVec 4) ++ c.evtTy ++ c.evtNum ++ c.bx ++ c.srcId ++ c.fov ++ (0 : BitVec 1) ++ (0 : BitVec 3)

/-- The header format tag (30_encoding.md R161). -/
def tshFormat : HeaderFormat → BitVec 4
  | .fullDebug => 0x1
  | .apvError => 0x2

/-- The tracker-special header word (44_encoder.md R343). -/
def trackerHeader (c : EncoderConfig) : DWord :=
  tshFormat c.hdrfmt ++ tshEventType c.mode ++ (0 : BitVec 8) ++ (0 : BitVec 8) ++ (0xFF : BitVec 8) ++ (0 : BitVec 8) ++
    (0 : BitVec 8) ++ (0 : BitVec 16)

/-- The 128 strip values of an APV in physical order (44_encoder.md R347; indexing of 10_state.md R35). -/
def apvStrips (m : Memory) (ch apv : Nat) : List Half := Memory.halves m (ramAddr .strip (256 * ch + 128 * apv)) 128

/-- The body of a raw or Scope channel (44_encoder.md R347). -/
def rawChannelBody (m : Memory) (c : EncoderConfig) (ch : Nat) : List Byte :=
  codeValues c.mode c.width (disorderFrame (apvStrips m ch 0) ++ disorderFrame (apvStrips m ch 1))

/-- A strip value above the threshold (44_encoder.md R349). -/
def aboveThreshold (threshold : Nat) (v : Half) : Bool := decide (threshold < clampStrip v.toNat)

/-- The maximal runs of strips above the threshold in a list whose first strip is number `s`, `run` being the run under
way, its first strip and its values so far, last first (44_encoder.md R349). -/
def findRuns (threshold : Nat) : Nat → Option (Nat × List Half) → List Half → List (Nat × List Half)
  | _, none, [] => []
  | _, some (first, vs), [] => [(first, vs.reverse)]
  | s, none, v :: rest =>
    if aboveThreshold threshold v then findRuns threshold (s + 1) (some (s, [v])) rest
    else findRuns threshold (s + 1) none rest
  | s, some (first, vs), v :: rest =>
    if aboveThreshold threshold v then findRuns threshold (s + 1) (some (first, v :: vs)) rest
    else (first, vs.reverse) :: findRuns threshold (s + 1) none rest

/-- The clusters of an APV: strip address within the APV and values (44_encoder.md R349). -/
def apvClusters (m : Memory) (c : EncoderConfig) (ch apv : Nat) : List (Nat × List Half) :=
  findRuns c.threshold 0 none (apvStrips m ch apv)

/-- A cluster as stored: address, width, coded values (30_encoding.md R189; 44_encoder.md R349). DEDUCED: with W10 its bytes can
take an event past the worst case of 00_scope.md R12 and 44_encoder.md R345 (log entry 15). -/
def clusterBytes (c : EncoderConfig) (apv : Nat) (cluster : Nat × List Half) : List Byte :=
  BitVec.ofNat 8 (128 * apv + cluster.1) :: BitVec.ofNat 8 cluster.2.length :: codeValues c.mode c.width cluster.2

/-- The clusters of a channel, APV 0 then APV 1 (44_encoder.md R349). -/
def channelClusters (m : Memory) (c : EncoderConfig) (ch : Nat) : List Byte :=
  (apvClusters m c ch 0).flatMap (clusterBytes c 0) ++ (apvClusters m c ch 1).flatMap (clusterBytes c 1)

/-- A common-mode median as written (44_encoder.md R348). -/
def encodedMedian (m : Memory) (c : EncoderConfig) (k : Nat) : List Byte :=
  if c.cmValid then le16 (ramHalf m .cm k).toNat else le16 0

/-- The body of a channel by the mode (44_encoder.md R347-R349). -/
def encodedBody (m : Memory) (c : EncoderConfig) (ch : Nat) : List Byte :=
  match c.mode with
  | .virginRaw => rawChannelBody m c ch
  | .processedRaw => rawChannelBody m c ch
  | .scope => rawChannelBody m c ch
  | .zeroSuppressed => encodedMedian m c (2 * ch) ++ encodedMedian m c (2 * ch + 1) ++ channelClusters m c ch
  | .zeroSuppressedLite => channelClusters m c ch

/-- A channel: its length, its packet code and its body (44_encoder.md R346). -/
def encodedChannel (m : Memory) (c : EncoderConfig) (pc : Byte) (ch : Nat) : List Byte :=
  le16 (3 + (encodedBody m c ch).length) ++ [pc] ++ encodedBody m c ch

/-- The bytes of a unit's twelve channels (44_encoder.md R340). -/
def unitChannels (m : Memory) (c : EncoderConfig) (pc : Byte) (u : Nat) : List Byte :=
  (List.range 12).flatMap fun k => encodedChannel m c pc (12 * u + k)

/-- A unit payload, padded with zeros to a multiple of 8 bytes (44_encoder.md R350). -/
def encodedUnit (m : Memory) (c : EncoderConfig) (pc : Byte) (u : Nat) : List Byte :=
  unitChannels m c pc u ++
    List.replicate (roundup8 (unitChannels m c pc u).length - (unitChannels m c pc u).length) 0

/-- The FE header region, the unit lengths back-filled (44_encoder.md R344, R350). -/
def feHeaderRegion (hdrfmt : HeaderFormat) (unitLengths : List Nat) : List Byte :=
  match hdrfmt with
  | .fullDebug =>
    unitLengths.flatMap fun len => List.replicate 9 (0xFF : Byte) ++ [0x00] ++ List.replicate 4 (0 : Byte) ++ le16 len
  | .apvError => List.replicate 24 0xFF

/-- The bytes of X before the trailer, given the eight unit payloads (44_encoder.md R340). -/
def eventBody (c : EncoderConfig) (units : List (List Byte)) : List Byte :=
  dwordBytes (daqHeader c) ++ dwordBytes (trackerHeader c) ++ feHeaderRegion c.hdrfmt (units.map List.length) ++
    units.flatten

/-- The trailer word of an event of D bytes (44_encoder.md R351). -/
def trailerWord (c : EncoderConfig) (d : Nat) (crc : Half) : DWord :=
  (0xA : BitVec 4) ++ (0 : BitVec 4) ++ BitVec.ofNat 24 (d / 8) ++ crc ++ (0 : BitVec 1) ++ (0 : BitVec 3) ++
    c.evtStat ++ c.tts ++ (0 : BitVec 4)

/-- The 32-bit words of a list of logical bytes, most significant byte first (20_memory.md R105). -/
def bytesToWords : List Byte → List Word
  | b0 :: b1 :: b2 :: b3 :: rest => (b0 ++ b1 ++ b2 ++ b3) :: bytesToWords rest
  | _ => []

/-- What a successful build leaves: the words of OBUF from word 0 on, D and the CRC. -/
structure BuiltEvent where
  words : List Word
  length : Nat
  crc : Half
  deriving DecidableEq, Repr

/-- The finished event from the bytes before its trailer: trailer, CRC, and the Slink64 post-pass (44_encoder.md R351, R353). -/
def finishEvent (c : EncoderConfig) (body : List Byte) : BuiltEvent :=
  let d := body.length + 8
  let crc := crc16 (body ++ dwordBytes (trailerWord c d 0))
  let words := bytesToWords (body ++ dwordBytes (trailerWord c d crc))
  { words := if c.slink64 then swapPairs words else words
    length := d
    crc := crc }

/-- The eight unit payloads (44_encoder.md R340). -/
def encodedUnits (m : Memory) (c : EncoderConfig) (pc : Byte) : List (List Byte) :=
  (List.range 8).map fun u => encodedUnit m c pc u

/-- ENC_BUILD up to its commit: the checks of R342, the event, the capacity check of R354 (44_encoder.md R340). DEDUCED: an event
is at most the 49,624 bytes of 00_scope.md R12, but for a zero-suppressed one of width W10, at most 50,200 (log entry 15). -/
def buildEvent (m : Memory) (e : EncoderRegs) : Except CommandError BuiltEvent :=
  match encoderConfig e with
  | .error err => .error err
  | .ok (c, pc) =>
    let body := eventBody c (encodedUnits m c pc)
    if obufBytes < body.length + 8 then
      .error { name := .capacityExceeded, offset := body.length + 8, channel := noChannel, expected := obufBytes,
               actual := body.length + 8 }
    else .ok (finishEvent c body)

/-- The commit of a successful build: all of OBUF, zeros after the event (44_encoder.md R352). -/
def commitBuild (b : BuiltEvent) (s : State) : State :=
  { s with
    mem := Memory.storeWords s.mem (ramBase .obuf) (b.words ++ List.replicate (Config.obufWords - b.words.length) 0)
    enc := { s.enc with len := BitVec.ofNat 32 (b.length / 4), crc := b.crc }
    flags := { s.flags with encValid := true } }

/-- A failed ENC_BUILD leaves ENC_VALID, ENC_LEN and ENC_CRC 0 (60_exceptions.md R405). -/
def clearEncoder (s : State) : State :=
  { s with enc := { s.enc with len := 0, crc := 0 }, flags := { s.flags with encValid := false } }

/-- ENC_BUILD (44_encoder.md R340). -/
def execEncBuild (s : State) : Host.Outcome State Fault Refusal :=
  finish s clearEncoder <|
    match buildEvent s.mem s.enc with
    | .ok b => .ok (commitBuild b s)
    | .error e => .error e

end Sys2Proof.Machine
end

