-- ==== Sys2Proof/Machine/Dispatch.lean ====
section
/-! DEFINITION. The meaning of each command, one arm a constructor. -/

namespace Sys2Proof.Machine

/-- One engine step of a command (10_state.md R31). -/
def exec (i : Instr) (s : State) : Host.Outcome State Fault Refusal :=
  match i with
  | .nop => Sys2Proof.Machine.execNop s
  | .curByte k => Sys2Proof.Machine.execCurByte k s
  | .curU16 k swap => Sys2Proof.Machine.execCurU16 k swap s
  | .curU32 k swap => Sys2Proof.Machine.execCurU32 k swap s
  | .curAdv n => Sys2Proof.Machine.execCurAdv n s
  | .curNorm => Sys2Proof.Machine.execCurNorm s
  | .crc => Sys2Proof.Machine.execCrc s
  | .crcBe => Sys2Proof.Machine.execCrcBe s
  | .reorder => Sys2Proof.Machine.execReorder s
  | .disorder => Sys2Proof.Machine.execDisorder s
  | .decParse => Sys2Proof.Machine.execDecParse s
  | .decChan idx => Sys2Proof.Machine.execDecChan idx s
  | .decSamples idx => Sys2Proof.Machine.execDecSamples idx s
  | .decCheck => Sys2Proof.Machine.execDecCheck s
  | .decStatus => Sys2Proof.Machine.execDecStatus s
  | .encBuild => Sys2Proof.Machine.execEncBuild s
  | .swap64 tgt => Sys2Proof.Machine.execSwap64 tgt s
  | .copyO2i => Sys2Proof.Machine.execCopyO2i s

end Sys2Proof.Machine
end

