-- ==== Sys2Proof/Machine/Step.lean ====
section
/-! DEFINITION. One step of the block and its outside world (10_state.md R30, R31). The head of `inbox` says what arrives: a
host access or RST, which then takes this step, or nothing, and then the engine steps if a command is latched. So every
interleaving of host accesses and engine steps that the spec allows is the run of some inbox (log entry 4), and an engine
in BUSY steps at the latest when the inbox is used up. -/

namespace Sys2Proof.Machine

/-- The engine's turn: the latched command is decoded and executed; without one nothing happens (10_state.md R31). -/
def engineStep (s : State) : Host.Outcome State Fault Refusal :=
  match s.pend with
  | none => .next s
  | some p =>
    match decode (commandWord p.op p.arg) with
    | .ok i => exec i s
    | .error (.reservedOp op) => .next (illegalOpcode op s)

/-- One step. -/
def step (s : State) : Host.Outcome State Fault Refusal :=
  match s.inbox with
  | [] => engineStep s
  | .idle :: rest => engineStep { s with inbox := rest }
  | .read a :: rest => .next (hostRead a { s with inbox := rest })
  | .write a v :: rest => .next (hostWrite a v { s with inbox := rest })
  | .rst :: rest => .next (resetBlock { s with inbox := rest })

/-- The inbox under which the very next step is the engine's. -/
def engineFirst : List HostEvent → List HostEvent
  | [] => []
  | e :: rest => .idle :: e :: rest

/-- The command word latched as an accepted CMD write latches it (10_state.md R36), and the engine's turn next. -/
def State.withFetchWord (s : State) (nbits w : Nat) : State :=
  latchCommand (tableWord nbits w) { s with inbox := engineFirst s.inbox }

end Sys2Proof.Machine
end

