-- ==== Sys2Proof/Safety.lean ====
section
/-! DEFINITION. What a state that a run can reach looks like: the invariants the statements speak of. -/

namespace Sys2Proof.Machine

/-- The bits of a register that the spec gives it no use for read 0 (10_state.md R40, R44, R46, R48, R49, R50). -/
structure ReservedBitsZero (s : State) : Prop where
  decCfg : s.decCfg &&& ~~~ 0x0000FF7F = 0
  encCfg0 : s.enc.cfg0 &&& ~~~ 0x000FFFFF = 0
  encCfg2 : s.enc.cfg2 &&& ~~~ 0x3FFFFFFF = 0
  tshInfo : s.hdr.tshInfo &&& 0x0000FF00 = 0
  chInfo : s.chan.info &&& 0x0000C000 = 0
  resKind : s.res.kind &&& 0b00011001100 = 0

/-- Memory is in its canonical form and holds only bytes that exist (10_state.md R34; 20_memory.md R101). -/
structure MemoryOk (m : Memory) : Prop where
  canonical : Memory.wf m
  exist : ∀ c ∈ m, isRamByte c.1 = true

/-- An event record describes regions that lie in the event, in the order of 30_encoding.md R145 and R147. -/
structure RecordOk (ev : EventRecord) : Prop where
  start : ev.h0 = if ev.legacy then 8 else 16
  headers : ev.h0 + feHeaderSize ev.hdrfmt ≤ ev.t
  aligned : ev.t % 8 = 0
  trailer : ev.t + 8 ≤ ev.nbytes
  depth : ev.nbytes ≤ 4 * Config.ibufWords
  channel : ∀ (ch : Nat) (h : ch < 96), ev.enable.getLsbD (ch / 12) = true →
    ev.h0 + feHeaderSize ev.hdrfmt ≤ ev.chan[ch].off ∧ 3 ≤ ev.chan[ch].len ∧ ev.chan[ch].len < 2 ^ 16 ∧
      ev.chan[ch].off + ev.chan[ch].len ≤ ev.t
  ordered : ∀ (c d : Nat) (_ : c < d) (h : d < 96), ev.enable.getLsbD (c / 12) = true →
    ev.enable.getLsbD (d / 12) = true → ev.chan[c].off + ev.chan[c].len ≤ ev.chan[d].off

/-- The flags agree with each other and with the error registers (10_state.md R36, R41, R55; 60_exceptions.md R403). -/
structure FlagsOk (s : State) : Prop where
  busyNotDone : s.pend.isSome = true → s.flags.done = false
  errCode : s.flags.err = true ↔ s.errs.code ≠ 0
  noEvent : s.ev = none → s.flags.lenMismatch = false ∧ s.flags.crcMismatch = false ∧ s.flags.crcChecked = false
  mismatchChecked : s.flags.crcMismatch = true → s.flags.crcChecked = true

/-- ENC_LEN is a whole number of 64-bit words that OBUF holds, and ENC_VALID says that an event is there
(44_encoder.md R352). -/
structure EncoderOk (s : State) : Prop where
  depth : s.enc.len.toNat ≤ Config.obufWords
  even : s.enc.len.toNat % 2 = 0
  valid : s.flags.encValid = true → s.enc.len ≠ 0

/-- The invariant of the block. -/
structure Inv (s : State) : Prop where
  memory : MemoryOk s.mem
  reserved : ReservedBitsZero s
  flags : FlagsOk s
  encoder : EncoderOk s
  statuses : s.stat.count.toNat ≤ 96
  event : ∀ ev, s.ev = some ev → RecordOk ev

/-- What DEC_VALID promises: the event record and the header registers are what a parse of IBUF as it now stands gives
(43_decoder.md R280). -/
def EventIsCurrent (s : State) : Prop :=
  ∀ ev, s.ev = some ev → ∃ (cfg : Word) (decLen : Nat), parseEvent s.mem cfg decLen = .ok { ev := ev, hdr := s.hdr }

/-- An address of a RAM's window (20_memory.md R101). -/
def inRam (r : Ram) (a : Nat) : Prop := ramBase r ≤ a ∧ a < ramBase r + 4 * ramEntries r

end Sys2Proof.Machine

namespace Sys2Proof.Spec

open Sys2Proof.Machine

/-- The common completion of a command that succeeds, written out (60_exceptions.md R403). -/
def success (s : State) : State :=
  { s with
    pend := none
    flags := { s.flags with done := true, err := false }
    irq := { s.irq with doneP := true }
    errs := { code := 0, offset := 0, channel := 0xFF, expected := 0, actual := 0 } }

/-- The common completion of a command that fails with `raise code(offset, channel, expected, actual)`, written out
(60_exceptions.md R403, R404); values are truncated to their registers (R401). -/
def failure (s : State) (code : Byte) (offset channel expected actual : Nat) : State :=
  { s with
    pend := none
    flags := { s.flags with done := true, err := true }
    irq := { s.irq with doneP := true, errP := true }
    errs :=
      { code := code
        offset := BitVec.ofNat 32 offset
        channel := BitVec.ofNat 8 channel
        expected := BitVec.ofNat 32 expected
        actual := BitVec.ofNat 32 actual } }

/-- EV discarded and the integrity flags cleared, written out (10_state.md R57). -/
def eventDiscarded (s : State) : State :=
  { s with
    ev := none
    flags := { s.flags with lenMismatch := false, crcMismatch := false, crcChecked := false } }

/-- The extra writes of a failing command, written out (60_exceptions.md R405). -/
def failureWrites : Instr → State → State
  | .decParse, s => eventDiscarded s
  | .decSamples _, s => { s with res := { kind := 0, count := 0, cm := 0, nclus := 0 } }
  | .encBuild, s => { s with enc := { s.enc with len := 0, crc := 0 }, flags := { s.flags with encValid := false } }
  | _, s => s

/-- The command word bits that R142 gives a meaning (30_encoding.md R140, R142). -/
def usedBits : Instr → Word
  | .curByte _ => 0x7FFFFFFF
  | .curU16 _ _ => 0xFFFFFFFF
  | .curU32 _ _ => 0xFFFFFFFF
  | .curAdv _ => 0xFFFFFFFF
  | .decChan _ => 0x0000FFFF
  | .decSamples _ => 0x0000FFFF
  | .swap64 _ => 0x000001FF
  | _ => 0x000000FF

/-- A reserved OP value (30_encoding.md R141). -/
def reservedOp (op : Nat) : Prop :=
  (0x06 ≤ op ∧ op ≤ 0x0F) ∨ (0x12 ≤ op ∧ op ≤ 0x1F) ∨ (0x22 ≤ op ∧ op ≤ 0x2F) ∨ (0x35 ≤ op ∧ op ≤ 0x3F) ∨
    (0x43 ≤ op ∧ op ≤ 0xFF)

/-- The cursor position (40_cursor.md R220). -/
def cursor (s : State) : Nat := (s.cur.base.toNat + s.cur.off.toNat) % 2 ^ 32

/-- The permutation P, from MUX position to physical strip (42_reorder.md R260). -/
def muxToStrip (i : Nat) : Nat := 32 * (i % 4) + 8 * (i / 4 % 4) + i / 16

/-- One inner step of the CRC on plain numbers (41_crc.md R240). -/
def crcShift (c : Nat) : Nat :=
  if c &&& 0x8000 ≠ 0 then ((c <<< 1) ^^^ 0x1021) &&& 0xFFFF else (c <<< 1) &&& 0xFFFF

/-- The CRC loop on plain numbers (41_crc.md R240). -/
def crcLoop (bytes : List Byte) : Nat := bytes.foldl (fun c b => crcShift^[8] (c ^^^ (b.toNat <<< 8))) 0xFFFF

/-- The decoded value of a coded strip value (30_encoding.md R182). -/
def roundTripValue (mode : DaqMode) (w : Width) (v : Nat) : Nat :=
  match w with
  | .std => if mode = .zeroSuppressed ∨ mode = .zeroSuppressedLite then min (min v 1023) 255 else min v 1023
  | .w10 => min v 1023
  | .botbot => (min v 1023 / 4) * 4
  | .topbot => (min (min v 1023) 511 / 2) * 2

/-- The channel length field at logical offset q (30_encoding.md R178). -/
def channelLength (m : Memory) (q : Nat) : Nat := (logicalByte m q).toNat + 256 * (logicalByte m (q + 1)).toNat

/-- The walk of the units below `n` of an event of `nb` bytes, said without running it: `p u` is where unit u's payload starts,
`p 8` where the trailer starts, and `q ch` where channel ch starts (43_decoder.md R284, R287, R288). -/
structure ParseWalk (m : Memory) (hdrfmt : HeaderFormat) (enable : BitVec 8) (nb h0 : Nat) (p q : Nat → Nat) (n : Nat) :
    Prop where
  start : p 0 = h0 + (if hdrfmt = .fullDebug then 128 else 24)
  skipped : ∀ u < n, enable.getLsbD u = false → p (u + 1) = p u
  first : ∀ u < n, enable.getLsbD u = true → q (12 * u) = p u
  next : ∀ u < n, enable.getLsbD u = true → ∀ c < 11,
    q (12 * u + c + 1) = q (12 * u + c) + channelLength m (q (12 * u + c))
  fits : ∀ u < n, enable.getLsbD u = true → ∀ c < 12,
    3 ≤ channelLength m (q (12 * u + c)) ∧ q (12 * u + c) + channelLength m (q (12 * u + c)) ≤ nb
  fullDebug : hdrfmt = .fullDebug → ∀ u < n, enable.getLsbD u = true →
    q (12 * u + 11) + channelLength m (q (12 * u + 11)) - p u ≤ channelLength m (h0 + 16 * u + 14) ∧
      p (u + 1) = p u + (channelLength m (h0 + 16 * u + 14) + 7) / 8 * 8
  apvError : hdrfmt = .apvError → ∀ u < n, enable.getLsbD u = true →
    p (u + 1) = p u + (q (12 * u + 11) + channelLength m (q (12 * u + 11)) - p u + 7) / 8 * 8

/-- DEC_CFG.EVFMT (10_state.md R44). -/
def decFormat (s : State) : EventFormat := if s.decCfg.getLsbD 0 then .oldVme else .standard

/-- DEC_CFG.HDRFMT (10_state.md R44). -/
def decHeaderFormat (s : State) : HeaderFormat := if s.decCfg.getLsbD 1 then .apvError else .fullDebug

/-- H0 (30_encoding.md R145). -/
def decStart (s : State) : Nat := if s.decCfg.getLsbD 2 then 8 else 16

/-- FEH (30_encoding.md R145). -/
def decHeaderSize (s : State) : Nat := if decHeaderFormat s = .fullDebug then 128 else 24

/-- The TSH, 0 in legacy data (43_decoder.md R283). -/
def decTsh (s : State) : DWord := if s.decCfg.getLsbD 2 then 0 else rd64 s.mem 8 (decFormat s)

/-- The enabled-unit mask (43_decoder.md R285). -/
def decEnable (s : State) : BitVec 8 :=
  if s.decCfg.getLsbD 2 then s.decCfg.extractLsb' 8 8 else (decTsh s).extractLsb' 32 8

/-- The first four checks of DEC_PARSE pass (43_decoder.md R282). -/
def parseable (s : State) (mode : DaqMode) : Prop :=
  (s.decCfg.extractLsb' 4 3).toNat = modeCode mode ∧ s.decLen.toNat ≤ 16384 ∧ s.decLen.toNat % 2 = 0 ∧
    decStart s + decHeaderSize s + 8 ≤ 4 * s.decLen.toNat

/-- The walk of the units below `n`, with what DEC_PARSE reads (43_decoder.md R281, R284). -/
def walked (s : State) (p q : Nat → Nat) (n : Nat) : Prop :=
  ParseWalk s.mem (decHeaderFormat s) (decEnable s) (4 * s.decLen.toNat) (decStart s) p q n

/-- The first `c` channels of unit u, after the walk of the units below it (43_decoder.md R287). -/
structure ChannelWalk (m : Memory) (nb : Nat) (p q : Nat → Nat) (u c : Nat) : Prop where
  first : q (12 * u) = p u
  next : ∀ k < c, q (12 * u + k + 1) = q (12 * u + k) + channelLength m (q (12 * u + k))
  fits : ∀ k < c, 3 ≤ channelLength m (q (12 * u + k)) ∧ q (12 * u + k) + channelLength m (q (12 * u + k)) ≤ nb

/-- What DEC_CHANNEL and DEC_SAMPLES report of a channel (43_decoder.md R290). -/
def channelReport (m : Memory) (ev : EventRecord) (idx : Nat) (c : ChannelEntry) : ChannelRegs :=
  { sel := BitVec.ofNat 8 idx
    info := BitVec.ofNat 16 c.len ++ (0 : BitVec 2) ++ channelStatus m ev idx ++ c.pcode
    offset := BitVec.ofNat 32 c.off }

/-- Fed channel `idx` resolves to entry `c` of the event record (43_decoder.md R290). -/
def resolves (s : State) (idx : Nat) (ev : EventRecord) (c : ChannelEntry) : Prop :=
  s.ev = some ev ∧ ev.enable.getLsbD (idx / 12) = true ∧ ∃ h : idx < 96, c = ev.chan[idx]

/-- The result of a DEC_SAMPLES that succeeds: entry k of RES is `entries[k]`, every byte outside those entries and every
register but the result and channel registers is as the completion leaves it (43_decoder.md R295). -/
def samplesResult (s t : State) (ev : EventRecord) (idx : Nat) (c : ChannelEntry) (w : Width) (kind nclus : Nat)
    (cm0 cm1 : Half) (entries : List Half) : Prop :=
  (∀ (k : Nat) (h : k < entries.length), ramHalf t.mem .res k = entries[k]) ∧
    (∀ a, a < ramBase .res ∨ ramBase .res + 4 * entries.length ≤ a → Memory.read t.mem a = Memory.read s.mem a) ∧
    { t with mem := s.mem } = success
      { s with
        chan := channelReport s.mem ev idx c
        res :=
          { kind := BitVec.ofNat 11 (256 * modeCode ev.mode + 16 * widthCode w + kind)
            count := BitVec.ofNat 32 entries.length
            cm := cm1 ++ cm0
            nclus := BitVec.ofNat 32 nclus } }

/-- The clusters of a channel that ends at `last`, from logical offset q to r, as the RES entries of each (43_decoder.md R300,
R301). -/
inductive Clusters (m : Memory) (mode : DaqMode) (w : Width) (last : Nat) : Nat → Nat → List (List Half) → Prop
  | done (q : Nat) : Clusters m mode w last q q []
  | cluster {q r a wd : Nat} {rest : List (List Half)} (ha : a = (logicalByte m q).toNat)
      (hw : wd = (logicalByte m (q + 1)).toNat) (hpos : 1 ≤ wd) (hfit : a + wd ≤ 256)
      (hlast : q + 2 + codedSize wd mode w ≤ last)
      (hrest : Clusters m mode w last (q + 2 + codedSize wd mode w) r rest) :
      Clusters m mode w last q r
        ((BitVec.ofNat 16 a :: BitVec.ofNat 16 wd :: decodedValues m mode w (q + 2) wd) :: rest)

/-- Where the clusters of a zero-suppressed channel start: after the two medians, if the mode has them (43_decoder.md R299). -/
def clusterStart (mode : DaqMode) (c : ChannelEntry) : Nat := c.off + 3 + (if mode = .zeroSuppressed then 4 else 0)

/-- `runs` lists, in ascending order, the maximal runs (first strip, width) of the strips for which `above` holds
(44_encoder.md R349). -/
structure Runs (above : Nat → Prop) (runs : List (Nat × Nat)) : Prop where
  ascending : runs.Pairwise fun r r' => r.1 + r.2 < r'.1
  inside : ∀ r ∈ runs, 1 ≤ r.2 ∧ ∀ k < r.2, above (r.1 + k)
  maximal : ∀ r ∈ runs, ¬ above (r.1 + r.2) ∧ (0 < r.1 → ¬ above (r.1 - 1))
  all : ∀ s, above s → ∃ r ∈ runs, r.1 ≤ s ∧ s < r.1 + r.2

/-- ENC_CFG0.MODE and ENC_CFG0.WIDTH name a mode and a width that have a packet code (44_encoder.md R342). -/
def encodes (s : State) (mode : DaqMode) (w : Width) : Prop :=
  (s.enc.cfg0.extractLsb' 12 3).toNat = modeCode mode ∧ (s.enc.cfg0.extractLsb' 16 2).toNat = widthCode w ∧
    (mode = .scope → w = .std)

/-- Word i of the encoded event in OBUF, the Slink64 word swap undone (44_encoder.md R353). -/
def eventWord (s t : State) (i : Nat) : Word :=
  ramWord t.mem .obuf (if s.enc.cfg0.getLsbD 18 then i ^^^ 1 else i)

/-- Logical byte q of the encoded event in OBUF (20_memory.md R105). -/
def eventByte (s t : State) (q : Nat) : Byte := (eventWord s t (q / 4)).extractLsb' (8 * (3 - q % 4)) 8

/-- ENC_BUILD, COPY_O2I, then SWAP64 of IBUF if the Slink64 post-pass was applied, and DEC_CFG written for the event
(44_encoder.md R355). -/
def encodedAndCopied (s u : State) (skipCrc : Bool) (extEnable : BitVec 8) : Prop :=
  ∃ t1 t2 t3, exec .encBuild s = .next t1 ∧ exec .copyO2i t1 = .next t2 ∧
    (if s.enc.cfg0.getLsbD 18 then exec (.swap64 .ibuf) t2 = .next t3 else t3 = t2) ∧
    u = { t3 with
      decCfg := (0 : BitVec 16) ++ extEnable ++ (0 : BitVec 1) ++ s.enc.cfg0.extractLsb' 12 3 ++
        BitVec.ofBool skipCrc ++ (0 : BitVec 1) ++ s.enc.cfg0.extractLsb' 15 1 ++ (0 : BitVec 1) }

/-- STRIP of fed channel ch, its 256 entries in order (10_state.md R35). -/
def stripValue (s : State) (ch k : Nat) : Half := ramHalf s.mem .strip (256 * ch + k)

/-- The RES entries of the clusters of one APV, from its runs (44_encoder.md R349; 43_decoder.md R301). -/
def clusterEntries (s : State) (mode : DaqMode) (w : Width) (ch apv : Nat) (runs : List (Nat × Nat)) : List Half :=
  runs.flatMap fun r =>
    BitVec.ofNat 16 (128 * apv + r.1) :: BitVec.ofNat 16 r.2 ::
      (List.range r.2).map fun k =>
        BitVec.ofNat 16 (roundTripValue mode w (stripValue s ch (128 * apv + r.1 + k)).toNat)

/-- A strip of an APV above ZS_THRESH (44_encoder.md R349). -/
def aboveThreshold (s : State) (ch apv k : Nat) : Prop :=
  k < 128 ∧ (s.enc.cfg2.extractLsb' 20 10).toNat < min (stripValue s ch (128 * apv + k)).toNat 1023

/-- `runs ch apv` lists the maximal runs above ZS_THRESH of every APV (44_encoder.md R349). -/
def runsOf (s : State) (runs : Nat → Nat → List (Nat × Nat)) : Prop :=
  ∀ ch < 96, ∀ apv < 2, Runs (aboveThreshold s ch apv) (runs ch apv)

/-- A 16-bit value in little-endian order (30_encoding.md R149). -/
def littleEndian (n : Nat) : List Byte := [BitVec.ofNat 8 n, BitVec.ofNat 8 (n / 256)]

/-- The clusters of a channel as stored: address, width, coded values, APV 0 then APV 1 (44_encoder.md R349). -/
def storedClusters (s : State) (mode : DaqMode) (w : Width) (runs : Nat → Nat → List (Nat × Nat)) (ch : Nat) : List Byte :=
  (List.range 2).flatMap fun apv => (runs ch apv).flatMap fun r =>
    BitVec.ofNat 8 (128 * apv + r.1) :: BitVec.ofNat 8 r.2 ::
      codeValues mode w ((List.range r.2).map fun k => stripValue s ch (128 * apv + r.1 + k))

/-- The body of an encoded channel: 256 strips in MUX order, APV 0 then APV 1, or the medians if the mode has them and the
clusters (44_encoder.md R347-R349). -/
def storedBody (s : State) (mode : DaqMode) (w : Width) (runs : Nat → Nat → List (Nat × Nat)) (ch : Nat) : List Byte :=
  if mode = .zeroSuppressed then
    ((List.range 2).flatMap fun apv =>
      littleEndian (if s.enc.cfg0.getLsbD 19 then (ramHalf s.mem .cm (2 * ch + apv)).toNat else 0)) ++
      storedClusters s mode w runs ch
  else if mode = .zeroSuppressedLite then storedClusters s mode w runs ch
  else
    codeValues mode w
      ((List.range 256).map fun k => stripValue s ch (128 * (k / 128) + muxToStrip (k % 128)))

/-- An encoded channel: its length, its packet code and its body (44_encoder.md R346). -/
def storedChannel (s : State) (mode : DaqMode) (w : Width) (runs : Nat → Nat → List (Nat × Nat)) (ch : Nat) : List Byte :=
  littleEndian (3 + (storedBody s mode w runs ch).length) ++ (packetCode mode w).toList ++ storedBody s mode w runs ch

/-- The payload of unit u: its twelve channels, padded with zeros to a multiple of 8 bytes (44_encoder.md R340, R350). -/
def unitBytes (s : State) (mode : DaqMode) (w : Width) (runs : Nat → Nat → List (Nat × Nat)) (u : Nat) : List Byte :=
  let channels := (List.range 12).flatMap fun c => storedChannel s mode w runs (12 * u + c)
  channels ++ List.replicate ((channels.length + 7) / 8 * 8 - channels.length) 0

/-- The FE header region, given the lengths of the eight units: all statuses good, majority address and reserved word 0, the unit
lengths filled in (44_encoder.md R344, R350). -/
def frontEndHeaders (s : State) (lengths : List Nat) : List Byte :=
  if s.enc.cfg0.getLsbD 15 then List.replicate 24 0xFF
  else lengths.flatMap fun len => List.replicate 9 0xFF ++ List.replicate 5 0 ++ littleEndian len

/-- A number of bits, the first at bit 0. -/
def bits : List Bool → Nat
  | [] => 0
  | b :: bs => b.toNat + 2 * bits bs

/-- The four arrays of per-unit registers at their offsets (10_state.md R40). -/
def unitTable (units : Vector UnitRegs 8) : List (Nat × Word) :=
  (List.finRange 8).flatMap fun u =>
    [(0x100 + 4 * u.val, units[u].off), (0x120 + 4 * u.val, units[u].len), (0x140 + 4 * u.val, units[u].maj.zeroExtend 32),
      (0x160 + 4 * u.val, units[u].rsv)]

/-- The register map: what the host reads at each offset that is not reserved (10_state.md R40 to R53). -/
def registerTable (s : State) : List (Nat × Word) :=
  [(0x000, 0x46454443), (0x004, 0),
    (0x008, BitVec.ofNat 32 (bits [s.pend.isSome, s.flags.done, s.flags.err, s.ev.isSome, s.flags.lenMismatch,
      s.flags.crcMismatch, s.flags.crcChecked, s.flags.encValid, s.flags.cmdOverrun, s.flags.busyAccess])),
    (0x00C, BitVec.ofNat 32 (bits [s.irq.doneEn, s.irq.errEn])), (0x010, BitVec.ofNat 32 (bits [s.irq.doneP, s.irq.errP])),
    (0x014, s.errs.code.zeroExtend 32), (0x018, s.errs.offset), (0x01C, s.errs.channel.zeroExtend 32),
    (0x020, s.errs.expected), (0x024, s.errs.actual), (0x040, s.decCfg), (0x044, s.decLen)] ++
  [(0x080, s.hdr.daqhHi), (0x084, s.hdr.daqhLo), (0x088, s.hdr.tshHi), (0x08C, s.hdr.tshLo), (0x090, s.hdr.trlHi),
    (0x094, s.hdr.trlLo), (0x098, s.hdr.evtNum.zeroExtend 32), (0x09C, s.hdr.bx.zeroExtend 32),
    (0x0A0, s.hdr.srcId.zeroExtend 32), (0x0A4, s.hdr.evtInfo.zeroExtend 32), (0x0A8, s.hdr.feRegs),
    (0x0AC, s.hdr.tshInfo), (0x0B0, s.hdr.decBytes), (0x0B4, s.hdr.trlLen.zeroExtend 32),
    (0x0B8, s.hdr.trlInfo.zeroExtend 32), (0x0BC, s.crcComputed.zeroExtend 32)] ++
  [(0x0C0, s.chan.sel.zeroExtend 32), (0x0C4, s.chan.info), (0x0C8, s.chan.offset), (0x0CC, s.res.kind.zeroExtend 32),
    (0x0D0, s.res.count), (0x0D4, s.res.cm), (0x0D8, s.res.nclus), (0x0E0, s.stat.bad0), (0x0E4, s.stat.bad1),
    (0x0E8, s.stat.bad2), (0x0EC, s.stat.count.zeroExtend 32)] ++
  [(0x200, s.enc.cfg0), (0x204, s.enc.cfg1), (0x208, s.enc.cfg2), (0x20C, s.enc.len), (0x210, s.enc.crc.zeroExtend 32),
    (0x300, s.cur.base), (0x304, s.cur.off), (0x308, s.cur.rem), (0x30C, s.cur.data), (0x320, s.crc.start),
    (0x324, s.crc.len), (0x328, s.crc.result.zeroExtend 32)] ++
  unitTable s.hdr.units

/-- What a host write of v to each register that can be written does to an idle block (10_state.md R36, R40 to R53). -/
def writeTable (s : State) (v : Word) : List (Nat × State) :=
  [(0x004, { s with
      pend := some { op := v.extractLsb' 0 8, arg := v.extractLsb' 8 24 }
      flags := { s.flags with done := false } }),
    (0x008, { s with
      flags := { s.flags with
        cmdOverrun := if v.getLsbD 8 then false else s.flags.cmdOverrun
        busyAccess := if v.getLsbD 9 then false else s.flags.busyAccess } }),
    (0x00C, { s with irq := { s.irq with doneEn := v.getLsbD 0, errEn := v.getLsbD 1 } }),
    (0x010, { s with
      irq := { s.irq with
        doneP := if v.getLsbD 0 then false else s.irq.doneP
        errP := if v.getLsbD 1 then false else s.irq.errP } }),
    (0x040, { s with decCfg := v &&& 0x0000FF7F }), (0x044, { s with decLen := v }),
    (0x200, { s with enc := { s.enc with cfg0 := v &&& 0x000FFFFF } }), (0x204, { s with enc := { s.enc with cfg1 := v } }),
    (0x208, { s with enc := { s.enc with cfg2 := v &&& 0x3FFFFFFF } }), (0x300, { s with cur := { s.cur with base := v } }),
    (0x304, { s with cur := { s.cur with off := v } }), (0x308, { s with cur := { s.cur with rem := v } }),
    (0x320, { s with crc := { s.crc with start := v } }), (0x324, { s with crc := { s.crc with len := v } })]

/-- `n` steps. -/
def run : Nat → State → Option State
  | 0, s => some s
  | n + 1, s =>
    match step s with
    | .next t => run n t
    | _ => none

/-- Two states that agree on everything a command reads or writes: all but the command latch, the sticky flags, the interrupt
registers and the host's side (20_memory.md R110, R111). -/
def sameForEngine (s t : State) : Prop :=
  { s with
    pend := none, irq := t.irq, inbox := t.inbox, outbox := t.outbox, draws := t.draws
    flags := { s.flags with cmdOverrun := t.flags.cmdOverrun, busyAccess := t.flags.busyAccess } } =
  { t with pend := none }

end Sys2Proof.Spec
end

