-- ==== Sys2Proof/Certificates/Slice0/Obligations.lean ====
section
/-! DEFINITION. The statements for the provers. -/

open Sys2Proof Sys2Proof.Machine

/-! ## Encoding -/

/-- Decoding the word of a well-formed command gives the command back, every operand at every value its field admits
(30_encoding.md R140-R142, R201). -/
def Obligations.DecodeOfEncodeIsTheCommand : Prop :=
  ∀ i : Instr, i.wellFormed = true → decode (encode i) = .ok i

/-- A word that decodes stands for a well-formed command, its word is the given one with the unused ARG bits cleared, and
clearing them does not change what is decoded (30_encoding.md R144). -/
def Obligations.UnusedArgumentBitsAreIgnored : Prop :=
  ∀ (w : Word) (i : Instr), decode w = .ok i →
    i.wellFormed = true ∧ encode i = w &&& Spec.usedBits i ∧ decode (w &&& Spec.usedBits i) = .ok i

/-- Command words written out from the encoding table decode to the commands they stand for (30_encoding.md R140-R142; the words
are those of 95_test_vectors.md section 2.1). -/
def Obligations.WrittenOutWordsDecode : Prop :=
  decode 0x00000000 = .ok .nop ∧ decode 0x00000101 = .ok (.curByte 1) ∧ decode 0x80000702 = .ok (.curU16 7 true) ∧
    decode 0x80000203 = .ok (.curU32 2 true) ∧ decode 0x00000804 = .ok (.curAdv 8) ∧ decode 0x00000005 = .ok .curNorm ∧
    decode 0x00000010 = .ok .crc ∧ decode 0x00000020 = .ok .reorder ∧ decode 0x00001331 = .ok (.decChan 19) ∧
    decode 0x00001332 = .ok (.decSamples 19) ∧ decode 0x00000040 = .ok .encBuild ∧
    decode 0x00000141 = .ok (.swap64 .obuf) ∧ decode 0x00000042 = .ok .copyO2i

/-! ## The engine -/

/-- The engine's turn runs exactly the decoded command; with nothing latched and nothing arriving, nothing happens
(10_state.md R31; the turns are those of log entry 4's inbox). -/
def Obligations.StepRunsTheDecodedCommand : Prop :=
  (∀ (s : State) (p : Pending) (i : Instr), s.pend = some p → decode (commandWord p.op p.arg) = .ok i →
    (s.inbox = [] → step s = exec i s) ∧
      ∀ rest, s.inbox = .idle :: rest → step s = exec i { s with inbox := rest }) ∧
    ∀ s : State, s.pend = none → s.inbox = [] → step s = .next s

/-- A command with a reserved OP raises ILLEGAL_OPCODE with ERR_EXPECTED = 0 and ERR_ACTUAL = OP and changes nothing else, whether
the engine's turn is an idle one of the inbox or comes when the inbox is used up, and a word decodes to no command exactly when its
OP is reserved (30_encoding.md R143). -/
def Obligations.ReservedOpRaisesIllegalOpcode : Prop :=
  (∀ w : Word, (∀ i, decode w ≠ .ok i) ↔ Spec.reservedOp (w.toNat % 256)) ∧
    ∀ (s : State) (p : Pending), s.pend = some p → Spec.reservedOp p.op.toNat →
      (s.inbox = [] → step s = .next (Spec.failure s 0x30 0 0xFF 0 p.op.toNat)) ∧
        ∀ rest, s.inbox = .idle :: rest →
          step s = .next (Spec.failure { s with inbox := rest } 0x30 0 0xFF 0 p.op.toNat)

/-- Every command answers a next state, and ends with the common completion (60_exceptions.md R403). -/
def Obligations.EveryCommandCompletes : Prop :=
  ∀ (i : Instr) (s : State), ∃ t, exec i s = .next t ∧ t.pend = none ∧ t.flags.done = true ∧ t.irq.doneP = true ∧
    t.irq.doneEn = s.irq.doneEn ∧ t.irq.errEn = s.irq.errEn ∧
    t.flags.cmdOverrun = s.flags.cmdOverrun ∧ t.flags.busyAccess = s.flags.busyAccess ∧
    (t.flags.err = true → t.irq.errP = true ∧ t.errs.code ≠ 0) ∧
    (t.flags.err = false → t.irq.errP = s.irq.errP ∧
      t.errs = { code := 0, offset := 0, channel := 0xFF, expected := 0, actual := 0 })

/-- A command that fails writes the error state and the table of R405, nothing else; no failing command writes a RAM
(60_exceptions.md R405). -/
def Obligations.FailureWritesOnlyItsTable : Prop :=
  ∀ (i : Instr) (s t : State), exec i s = .next t → t.flags.err = true →
    (∃ code offset channel expected actual,
      t = Spec.failure (Spec.failureWrites i s) code offset channel expected actual) ∧ t.mem = s.mem

/-- What a command computes does not depend on what the host can do while it is pending: two states that agree but for the latch,
the sticky flags, the interrupt registers and the host's side still do after any command (20_memory.md R110, R111). -/
def Obligations.CommandIgnoresHostSide : Prop :=
  ∀ (i : Instr) (s s' t t' : State), Spec.sameForEngine s s' → exec i s = .next t → exec i s' = .next t' →
    Spec.sameForEngine t t'

/-- NOP completes and changes nothing else (44_encoder.md R370). -/
def Obligations.NopOnlyCompletes : Prop := ∀ s : State, exec .nop s = .next (Spec.success s)

/-! ## The cursor -/

/-- CUR_BYTE inside both bounds reads one logical byte into CUR_DATA; every other field is as the completion leaves it
(40_cursor.md R222). -/
def Obligations.CurByteReadsALogicalByte : Prop :=
  ∀ (s : State) (k : Nat), k + 1 ≤ s.cur.rem.toNat → Spec.cursor s + k + 1 ≤ 4 * 16384 →
    exec (.curByte k) s = .next (Spec.success
      { s with cur := { s.cur with data := (logicalByte s.mem (Spec.cursor s + k)).zeroExtend 32 } })

/-- CUR_U16 inside both bounds: the two bytes, most significant first, or swapped (40_cursor.md R223). -/
def Obligations.CurU16ReadsTwoLogicalBytes : Prop :=
  ∀ (s : State) (k : Nat) (swap : Bool), k + 2 ≤ s.cur.rem.toNat → Spec.cursor s + k + 2 ≤ 4 * 16384 →
    let a := logicalByte s.mem (Spec.cursor s + k)
    let b := logicalByte s.mem (Spec.cursor s + k + 1)
    exec (.curU16 k swap) s = .next (Spec.success
      { s with cur := { s.cur with data := (if swap then b ++ a else a ++ b : Half).zeroExtend 32 } })

/-- CUR_U32 inside both bounds: the four bytes, most significant first, or swapped (40_cursor.md R224). -/
def Obligations.CurU32ReadsFourLogicalBytes : Prop :=
  ∀ (s : State) (k : Nat) (swap : Bool), k + 4 ≤ s.cur.rem.toNat → Spec.cursor s + k + 4 ≤ 4 * 16384 →
    let a := logicalByte s.mem (Spec.cursor s + k)
    let b := logicalByte s.mem (Spec.cursor s + k + 1)
    let c := logicalByte s.mem (Spec.cursor s + k + 2)
    let d := logicalByte s.mem (Spec.cursor s + k + 3)
    exec (.curU32 k swap) s = .next (Spec.success
      { s with cur := { s.cur with data := (if swap then d ++ c ++ b ++ a else a ++ b ++ c ++ d : Word) } })

/-- A cursor read of n bytes at offset k past CUR_REM raises OUT_OF_RANGE against it; one within it but past the depth of IBUF
raises OUT_OF_RANGE against that (40_cursor.md R221). -/
def Obligations.CursorReadOutOfRange : Prop :=
  ∀ (s : State) (k n : Nat) (i : Instr),
    (i = .curByte k ∧ n = 1) ∨ (∃ swap, i = .curU16 k swap ∧ n = 2) ∨ (∃ swap, i = .curU32 k swap ∧ n = 4) →
      (s.cur.rem.toNat < k + n →
        exec i s = .next (Spec.failure s 0x02 (Spec.cursor s + k) 0xFF s.cur.rem.toNat (k + n))) ∧
      (k + n ≤ s.cur.rem.toNat → 4 * 16384 < Spec.cursor s + k + n →
        exec i s = .next (Spec.failure s 0x02 (Spec.cursor s + k) 0xFF (4 * 16384) (Spec.cursor s + k + n)))

/-- CUR_ADVANCE moves CUR_OFF up and CUR_REM down by n, or raises OUT_OF_RANGE and changes neither (40_cursor.md R225). -/
def Obligations.CurAdvanceMovesTheCursor : Prop :=
  ∀ (s : State) (n : Nat),
    (n ≤ s.cur.rem.toNat →
      exec (.curAdv n) s = .next (Spec.success
        { s with
          cur := { s.cur with
            off := BitVec.ofNat 32 ((s.cur.off.toNat + n) % 2 ^ 32)
            rem := BitVec.ofNat 32 (s.cur.rem.toNat - n) } })) ∧
    (s.cur.rem.toNat < n →
      exec (.curAdv n) s = .next (Spec.failure s 0x02 (Spec.cursor s) 0xFF s.cur.rem.toNat n))

/-- CUR_NORMALIZE rebases to the preceding multiple of 4 and keeps the position; a second one changes nothing (40_cursor.md
R226). -/
def Obligations.CurNormalizeKeepsThePosition : Prop :=
  ∀ s : State, ∃ t, exec .curNorm s = .next t ∧
    t = Spec.success
      { s with
        cur := { s.cur with
          base := BitVec.ofNat 32 (Spec.cursor s / 4 * 4)
          off := BitVec.ofNat 32 (Spec.cursor s % 4) } } ∧
    Spec.cursor t = Spec.cursor s ∧ exec .curNorm t = .next t

/-! ## Logical bytes and the value coding -/

/-- Logical byte q of IBUF is physical byte q ^ 3, which is (IBUF[q >> 2] >> (8 * (3 - (q & 3)))) & 0xFF (20_memory.md R104). -/
def Obligations.LogicalByteOfItsWord : Prop :=
  ∀ (m : Memory) (q : Nat), q < 4 * 16384 →
    logicalByte m q = Memory.read m (0x10000 + (q ^^^ 3)) ∧
      (logicalByte m q).toNat = ((ramWord m .ibuf (q >>> 2)).toNat >>> (8 * (3 - (q &&& 3)))) &&& 0xFF

/-- The 10-bit packing: nb10(n) bytes, each value most significant bit first, the spare bits 0, and the example of the rule
(30_encoding.md R183). -/
def Obligations.TenBitPacking : Prop :=
  (∀ (mode : DaqMode) (vs : List Half),
    (codeValues mode .w10 vs).length = (10 * vs.length + 7) / 8 ∧
      ∀ k < 8 * ((10 * vs.length + 7) / 8),
        ((codeValues mode .w10 vs).getD (k / 8) 0).getLsbD (7 - k % 8) =
          (decide (k < 10 * vs.length) && (min (vs.getD (k / 10) 0).toNat 1023).testBit (9 - k % 10))) ∧
    codeValues .virginRaw .w10 [0x3FF, 0x000, 0x155, 0x2AA] = [0xFF, 0xC0, 0x05, 0x56, 0xAA]

/-- The value coding: the bytes that each one-value-a-byte variant and 16-bit STD store; the value that each variant reads from
any logical bytes, not masked for 16-bit STD; and decoding coded strip values, wherever in IBUF they are stored, gives each value
as the coding leaves it: clamped, saturated or stripped of its low bits (30_encoding.md R182, R183). -/
def Obligations.DecodeOfCodedValues : Prop :=
  (∀ (mode : DaqMode) (vs : List Half),
    let zeroSuppressed := mode = .zeroSuppressed ∨ mode = .zeroSuppressedLite
    let clamped := fun v : Half => min v.toNat 1023
    (¬ zeroSuppressed → codeValues mode .std vs =
      vs.flatMap fun v => [BitVec.ofNat 8 (clamped v % 256), BitVec.ofNat 8 (clamped v / 256)]) ∧
    (zeroSuppressed → codeValues mode .std vs = vs.map fun v => BitVec.ofNat 8 (min (clamped v) 255)) ∧
    codeValues mode .botbot vs = (vs.map fun v => BitVec.ofNat 8 (clamped v / 4)) ∧
    codeValues mode .topbot vs = vs.map fun v => BitVec.ofNat 8 (min (clamped v) 511 / 2)) ∧
  (∀ (m : Memory) (mode : DaqMode) (p i : Nat),
    let zeroSuppressed := mode = .zeroSuppressed ∨ mode = .zeroSuppressedLite
    let b := fun q => (logicalByte m q).toNat
    (¬ zeroSuppressed → (decodedValue m mode p i .std).toNat = b (p + 2 * i) + 256 * b (p + 2 * i + 1)) ∧
    (zeroSuppressed → (decodedValue m mode p i .std).toNat = b (p + i)) ∧
    (decodedValue m mode p i .botbot).toNat = 4 * b (p + i) ∧ (decodedValue m mode p i .topbot).toNat = 2 * b (p + i) ∧
    (decodedValue m mode p i .w10).toNat < 1024 ∧
    ∀ j < 10, (decodedValue m mode p i .w10).getLsbD (9 - j) =
      (logicalByte m (p + (10 * i + j) / 8)).getLsbD (7 - (10 * i + j) % 8)) ∧
  ∀ (m : Memory) (mode : DaqMode) (w : Width) (vs : List Half) (p : Nat),
    (∀ j < (codeValues mode w vs).length, logicalByte m (p + j) = (codeValues mode w vs).getD j 0) →
      decodedValues m mode w p vs.length = vs.map fun v => BitVec.ofNat 16 (Spec.roundTripValue mode w v.toNat)

/-! ## The CRC -/

/-- crc16 is the loop of the rule on plain numbers (41_crc.md R240). -/
def Obligations.CrcIsTheBitwiseLoop : Prop := ∀ bytes : List Byte, (crc16 bytes).toNat = Spec.crcLoop bytes

/-- The table form of the CRC gives the same result as the loop; with the sample entries (41_crc.md R241). -/
def Obligations.CrcTableForm : Prop :=
  (∀ (c : Half) (b : Byte),
    crcByte c b = (c <<< 8) ^^^ crcEight (BitVec.ofNat 16 ((((c.toNat >>> 8) ^^^ b.toNat) &&& 0xFF) <<< 8))) ∧
    crcEight (0x00 <<< 8) = 0x0000 ∧ crcEight (0x01 <<< 8) = 0x1021 ∧ crcEight (0x02 <<< 8) = 0x2042 ∧
    crcEight (0x80 <<< 8) = 0x9188 ∧ crcEight (0xFF <<< 8) = 0x1EF0

/-- CRC16 writes the CRC of the logical byte range, or raises OUT_OF_RANGE (41_crc.md R243). -/
def Obligations.CrcOfARange : Prop :=
  ∀ s : State,
    let e := s.crc.start.toNat + s.crc.len.toNat
    (e ≤ 4 * 16384 →
      exec .crc s = .next (Spec.success
        { s with
          crc := { s.crc with
            result := BitVec.ofNat 16 (Spec.crcLoop
              ((List.range s.crc.len.toNat).map fun i => logicalByte s.mem (s.crc.start.toNat + i))) } })) ∧
    (4 * 16384 < e → exec .crc s = .next (Spec.failure s 0x02 s.crc.start.toNat 0xFF (4 * 16384) e))

/-- CRC16_BE writes the CRC of the whole buffer with the two bytes of the assumed CRC field read as 0, or raises CONFIG_INVALID,
or else BUFFER_TOO_SHORT (41_crc.md R245). -/
def Obligations.BestEffortCrc : Prop :=
  ∀ s : State,
    let n := s.decLen.toNat
    let f := 4 * n - 8 + (if s.decCfg.getLsbD 0 then 0 else 4)
    (2 ≤ n → n ≤ 16384 →
      exec .crcBe s = .next (Spec.success
        { s with
          crc := { s.crc with
            result := BitVec.ofNat 16 (Spec.crcLoop
              ((List.range (4 * n)).map fun i => if i = f ∨ i = f + 1 then 0 else logicalByte s.mem i)) } })) ∧
    (16384 < n → exec .crcBe s = .next (Spec.failure s 0x31 0 0xFF 16384 n)) ∧
    (n < 2 → exec .crcBe s = .next (Spec.failure s 0x01 0 0xFF 8 (4 * n)))

/-- No command reads CRC_RESULT: with another value there, every command does the same to everything else (41_crc.md R246). -/
def Obligations.CrcResultHasNoAuthority : Prop :=
  ∀ (i : Instr) (s t : State) (x : Half), exec i s = .next t →
    ∃ t', exec i { s with crc := { s.crc with result := x } } = .next t' ∧
      { t' with crc := { t'.crc with result := t.crc.result } } = t

/-! ## The strip permutation -/

/-- The tables of P and of its inverse, and its fixed points (42_reorder.md R261). -/
def Obligations.StripPermutationTables : Prop :=
  ((List.range 16).map stripOfMux = [0, 32, 64, 96, 8, 40, 72, 104, 16, 48, 80, 112, 24, 56, 88, 120] ∧
    (List.range 16).map muxOfStrip = [0, 16, 32, 48, 64, 80, 96, 112, 4, 20, 36, 52, 68, 84, 100, 116]) ∧
  (∀ i < 128, stripOfMux i < 128 ∧ muxOfStrip (stripOfMux i) = i) ∧
  (∀ i < 112, stripOfMux (i + 16) = stripOfMux i + 1) ∧
  (∀ s < 128, muxOfStrip s < 128 ∧ stripOfMux (muxOfStrip s) = s) ∧
  (∀ i < 128, stripOfMux i = i ↔ i = 0 ∨ i = 127) ∧ stripOfMux 1 = 32 ∧ stripOfMux 32 = 2

/-- REORDER: FOUT[P(i)] is FIN[i] for every i; every byte outside FOUT and every other field is as the completion leaves it
(42_reorder.md R262). -/
def Obligations.ReorderPermutesTheFrame : Prop :=
  ∀ s : State, ∃ t, exec .reorder s = .next t ∧
    (∀ i < 128, ramHalf t.mem .fout (Spec.muxToStrip i) = ramHalf s.mem .fin i) ∧
    (∀ a, ¬ inRam .fout a → Memory.read t.mem a = Memory.read s.mem a) ∧
    { t with mem := s.mem } = Spec.success s

/-- DISORDER: FOUT[i] is FIN[P(i)] for every i; every byte outside FOUT and every other field is as the completion leaves it
(42_reorder.md R263). -/
def Obligations.DisorderPermutesTheFrame : Prop :=
  ∀ s : State, ∃ t, exec .disorder s = .next t ∧
    (∀ i < 128, ramHalf t.mem .fout i = ramHalf s.mem .fin (Spec.muxToStrip i)) ∧
    (∀ a, ¬ inRam .fout a → Memory.read t.mem a = Memory.read s.mem a) ∧
    { t with mem := s.mem } = Spec.success s

/-- REORDER, FOUT copied into FIN, DISORDER gives the frame back, and so does the other order (42_reorder.md R264). -/
def Obligations.ReorderAndDisorderCancel : Prop :=
  ∀ (i j : Instr), (i = .reorder ∧ j = .disorder) ∨ (i = .disorder ∧ j = .reorder) →
    ∀ s t u v : State, exec i s = .next t → (∀ k < 128, ramHalf u.mem .fin k = ramHalf t.mem .fout k) →
      exec j u = .next v → ∀ k < 128, ramHalf v.mem .fout k = ramHalf s.mem .fin k

/-! ## The decoder -/

/-- DEC_PARSE's first four checks, in their order, each with its error; EV and the integrity flags are cleared whichever fails
(43_decoder.md R282, R284). -/
def Obligations.ParseRefusesBadConfiguration : Prop :=
  ∀ s : State,
    let mode := (s.decCfg.extractLsb' 4 3).toNat
    let n := s.decLen.toNat
    let minb := (if s.decCfg.getLsbD 2 then 8 else 16) + (if s.decCfg.getLsbD 1 then 24 else 128) + 8
    (5 ≤ mode → exec .decParse s = .next (Spec.failure (Spec.eventDiscarded s) 0x31 0 0xFF 4 mode)) ∧
    (mode < 5 → 16384 < n → exec .decParse s = .next (Spec.failure (Spec.eventDiscarded s) 0x31 0 0xFF 16384 n)) ∧
    (mode < 5 → n ≤ 16384 → 4 * n < minb →
      exec .decParse s = .next (Spec.failure (Spec.eventDiscarded s) 0x01 0 0xFF minb (4 * n))) ∧
    (mode < 5 → n ≤ 16384 → minb ≤ 4 * n → n % 2 = 1 →
      exec .decParse s = .next (Spec.failure (Spec.eventDiscarded s) 0x05 (4 * n) 0xFF (n + 1) n))

/-- DEC_PARSE of a buffer whose unit walk goes through and leaves room for the trailer succeeds, and commits EV and the header
registers as the rule lists them; nothing else changes but the result registers, which become 0 (43_decoder.md R284-R289). -/
def Obligations.ParseBuildsTheEvent : Prop :=
  ∀ (s : State) (mode : DaqMode) (p q : Nat → Nat),
    Spec.parseable s mode → Spec.walked s p q 8 → p 8 + 8 ≤ 4 * s.decLen.toNat →
    let hdrfmt := Spec.decHeaderFormat s
    let h0 := Spec.decStart s
    let dh := rd64 s.mem 0 (Spec.decFormat s)
    let ts := Spec.decTsh s
    let tr := rd64 s.mem (p 8) (Spec.decFormat s)
    let enable := Spec.decEnable s
    ∃ (t : State) (chan : Vector ChannelEntry 96) (hdr : HeaderRegs), exec .decParse s = .next t ∧
      t = Spec.success
        { Spec.eventDiscarded s with
          ev := some { evfmt := Spec.decFormat s, hdrfmt := hdrfmt, legacy := s.decCfg.getLsbD 2, mode := mode,
                       nbytes := 4 * s.decLen.toNat, h0 := h0, enable := enable, chan := chan, t := p 8 }
          hdr := hdr
          crcComputed := 0
          chan := { sel := 0, info := 0, offset := 0 }
          res := { kind := 0, count := 0, cm := 0, nclus := 0 }
          stat := { bad0 := 0, bad1 := 0, bad2 := 0, count := 0 } } ∧
      (∀ (ch : Nat) (h : ch < 96), enable.getLsbD (ch / 12) = true →
        chan[ch] = { off := q ch, len := Spec.channelLength s.mem (q ch), pcode := logicalByte s.mem (q ch + 2) }) ∧
      hdr.daqhHi ++ hdr.daqhLo = dh ∧ hdr.tshHi ++ hdr.tshLo = ts ∧ hdr.trlHi ++ hdr.trlLo = tr ∧
      hdr.evtNum = dh.extractLsb' 32 24 ∧ hdr.bx = dh.extractLsb' 20 12 ∧ hdr.srcId = dh.extractLsb' 8 12 ∧
      hdr.evtInfo = dh.extractLsb' 4 4 ++ dh.extractLsb' 56 4 ∧
      hdr.feRegs = ts.extractLsb' 40 8 ++ ts.extractLsb' 48 8 ++ ts.extractLsb' 24 8 ++ enable ∧
      hdr.tshInfo = ts.extractLsb' 0 16 ++ (0 : BitVec 8) ++ ts.extractLsb' 56 4 ++ ts.extractLsb' 60 4 ∧
      hdr.decBytes = BitVec.ofNat 32 (p 8 + 8) ∧ hdr.trlLen = tr.extractLsb' 32 24 ∧
      hdr.trlInfo = tr.extractLsb' 15 1 ++ tr.extractLsb' 4 4 ++ tr.extractLsb' 8 4 ++ tr.extractLsb' 16 16 ∧
      ∀ (u : Nat) (h : u < 8), hdr.units[u] =
        if enable.getLsbD u then
          { off := BitVec.ofNat 32 (p u)
            len := BitVec.ofNat 32 (p (u + 1) - p u)
            maj := if hdrfmt = .fullDebug then logicalByte s.mem (h0 + 16 * u + 9) else 0
            rsv := if hdrfmt = .fullDebug then u32le s.mem (h0 + 16 * u + 10) else 0 }
        else { off := 0, len := 0, maj := 0, rsv := 0 }

/-- The walk of DEC_PARSE stops at the first channel that does not fit, with the error of the first of its checks that fails; at
a FullDebug unit longer than its recorded length; and at a trailer that does not fit (43_decoder.md R282, R284, R287, whose order of
the last two arguments of OUT_OF_RANGE the model follows against 60_exceptions.md R401: log entry 16). -/
def Obligations.ParseWalkErrors : Prop :=
  ∀ (s : State) (mode : DaqMode) (p q : Nat → Nat) (u c : Nat), Spec.parseable s mode →
    let nb := 4 * s.decLen.toNat
    let r := q (12 * u + c)
    let len := Spec.channelLength s.mem r
    let recorded := Spec.channelLength s.mem (Spec.decStart s + 16 * u + 14)
    (Spec.walked s p q u → u < 8 → (Spec.decEnable s).getLsbD u = true → Spec.ChannelWalk s.mem nb p q u c →
      (c < 12 → nb < r + 2 →
        exec .decParse s = .next (Spec.failure (Spec.eventDiscarded s) 0x02 r (12 * u + c) (r + 2) nb)) ∧
      (c < 12 → r + 2 ≤ nb → len < 3 →
        exec .decParse s = .next (Spec.failure (Spec.eventDiscarded s) 0x03 r (12 * u + c) 3 len)) ∧
      (c < 12 → r + 2 ≤ nb → 3 ≤ len → nb < r + len →
        exec .decParse s = .next (Spec.failure (Spec.eventDiscarded s) 0x02 r (12 * u + c) (r + len) nb)) ∧
      (c = 12 → Spec.decHeaderFormat s = .fullDebug → recorded < r - p u →
        exec .decParse s = .next (Spec.failure (Spec.eventDiscarded s) 0x04 (p u) (12 * u + 11) recorded (r - p u)))) ∧
    (Spec.walked s p q 8 → nb < p 8 + 8 →
      exec .decParse s = .next (Spec.failure (Spec.eventDiscarded s) 0x02 (p 8) 0xFF (p 8 + 8) nb))

/-- The accessors without an event raise NO_EVENT; DEC_CHANNEL and DEC_SAMPLES of an index past 95, or of a disabled unit's
channel, raise their error; nothing else changes but DEC_SAMPLES's result registers (43_decoder.md R280, R290). -/
def Obligations.AccessorErrors : Prop :=
  (∀ (s : State) (i : Instr), (∃ idx, i = .decChan idx ∨ i = .decSamples idx) ∨ i = .decCheck ∨ i = .decStatus →
    s.ev = none → exec i s = .next (Spec.failure (Spec.failureWrites i s) 0x14 0 0xFF 1 0)) ∧
  ∀ (s : State) (ev : EventRecord) (i : Instr) (idx : Nat), i = .decChan idx ∨ i = .decSamples idx → s.ev = some ev →
    (96 ≤ idx → exec i s = .next (Spec.failure (Spec.failureWrites i s) 0x10 0 idx 95 idx)) ∧
    (idx < 96 → ev.enable.getLsbD (idx / 12) = false →
      exec i s = .next (Spec.failure (Spec.failureWrites i s) 0x11 0 idx 1 0))

/-- DEC_CHANNEL of a channel of an enabled unit reports its header in CH_SEL, CH_INFO and CH_OFFSET; every other field is as the
completion leaves it (43_decoder.md R290). -/
def Obligations.DecChannelReportsTheChannel : Prop :=
  ∀ (s : State) (ev : EventRecord) (idx : Nat) (h : idx < 96), s.ev = some ev → ev.enable.getLsbD (idx / 12) = true →
    exec (.decChan idx) s = .next (Spec.success
      { s with
        chan :=
          { sel := BitVec.ofNat 8 idx
            info := BitVec.ofNat 16 ev.chan[idx].len ++ (0 : BitVec 2) ++ channelStatus s.mem ev idx ++ ev.chan[idx].pcode
            offset := BitVec.ofNat 32 ev.chan[idx].off } })

/-- The status of a channel, bit by bit: six bits of its unit's slot, or two bits of the ApvError block above which it is 0
(43_decoder.md R291; 30_encoding.md R166, R170). -/
def Obligations.ChannelStatusBits : Prop :=
  ∀ (m : Memory) (ev : EventRecord) (ch j : Nat),
    (ev.hdrfmt = .fullDebug → j < 6 →
      (channelStatus m ev ch).getLsbD j =
        (logicalByte m (ev.h0 + 16 * (ch / 12) + (6 * (ch % 12) + j) / 8)).getLsbD ((6 * (ch % 12) + j) % 8)) ∧
    (ev.hdrfmt = .apvError → j < 2 →
      (channelStatus m ev ch).getLsbD j = (logicalByte m (ev.h0 + (2 * ch + j) / 8)).getLsbD ((2 * ch + j) % 8)) ∧
    (ev.hdrfmt = .apvError → 2 ≤ j → (channelStatus m ev ch).getLsbD j = false)

/-- DEC_SAMPLES of a VirginRaw or ProcessedRaw channel of the right length: RES[128a + P(i)] is value 128a + i of the body
(43_decoder.md R297). -/
def Obligations.DecSamplesOfARawChannel : Prop :=
  ∀ (s : State) (ev : EventRecord) (c : ChannelEntry) (idx : Nat) (w : Width), Spec.resolves s idx ev c →
    ev.mode = .virginRaw ∨ ev.mode = .processedRaw → packetCode ev.mode w = some c.pcode →
    c.len = 3 + codedSize 256 ev.mode w →
    ∃ (t : State) (entries : List Half), exec (.decSamples idx) s = .next t ∧
      Spec.samplesResult s t ev idx c w 1 0 0 0 entries ∧ entries.length = 256 ∧
      ∀ a < 2, ∀ i < 128,
        entries[128 * a + Spec.muxToStrip i]? = some (decodedValue s.mem ev.mode (c.off + 3) (128 * a + i) w)

/-- DEC_SAMPLES of a Scope channel with a whole number of samples: RES[k] is the 16-bit value k of the body, in stored order
(43_decoder.md R298). -/
def Obligations.DecSamplesOfAScopeChannel : Prop :=
  ∀ (s : State) (ev : EventRecord) (c : ChannelEntry) (idx : Nat), Spec.resolves s idx ev c →
    ev.mode = .scope → c.pcode = 0xE1 → (c.len - 3) % 2 = 0 →
    ∃ t : State, exec (.decSamples idx) s = .next t ∧
      Spec.samplesResult s t ev idx c .std 1 0 0 0
        ((List.range ((c.len - 3) / 2)).map fun k =>
          logicalByte s.mem (c.off + 3 + 2 * k + 1) ++ logicalByte s.mem (c.off + 3 + 2 * k))

/-- DEC_SAMPLES of a ZeroSuppressed or ZeroSuppressedLite channel whose body is clusters to its end: RES holds the clusters one
after the other, RES_NCLUS their number, RES_CM the two medians or 0 (43_decoder.md R299-R301). -/
def Obligations.DecSamplesOfClusters : Prop :=
  ∀ (s : State) (ev : EventRecord) (c : ChannelEntry) (idx : Nat) (w : Width) (cs : List (List Half)),
    Spec.resolves s idx ev c → ev.mode = .zeroSuppressed ∨ ev.mode = .zeroSuppressedLite →
    packetCode ev.mode w = some c.pcode → Spec.clusterStart ev.mode c ≤ c.off + c.len →
    Spec.Clusters s.mem ev.mode w (c.off + c.len) (Spec.clusterStart ev.mode c) (c.off + c.len) cs →
    ∃ t : State, exec (.decSamples idx) s = .next t ∧
      Spec.samplesResult s t ev idx c w 2 cs.length (if ev.mode = .zeroSuppressed then u16le s.mem (c.off + 3) else 0)
        (if ev.mode = .zeroSuppressed then u16le s.mem (c.off + 5) else 0) cs.flatten

/-- DEC_SAMPLES of a channel whose packet code is unknown or of another mode raises PACKET_CODE_CORRUPT with the STD code of
the declared mode and the code found; only the result registers are cleared (43_decoder.md R296). -/
def Obligations.PacketCodeIsChecked : Prop :=
  ∀ (s : State) (ev : EventRecord) (c : ChannelEntry) (idx : Nat) (std : Byte), Spec.resolves s idx ev c →
    (∀ w, packetCode ev.mode w ≠ some c.pcode) → packetCode ev.mode .std = some std →
    exec (.decSamples idx) s =
      .next (Spec.failure (Spec.failureWrites (.decSamples idx) s) 0x12 (c.off + 2) idx std.toNat c.pcode.toNat)

/-- DEC_SAMPLES of a channel of a wrong length for its packet code, or with clusters up to r and a bad one there, raises
PAYLOAD_CORRUPT, its arguments those of the first check that fails (43_decoder.md R297-R300). -/
def Obligations.PayloadIsChecked : Prop :=
  ∀ (s : State) (ev : EventRecord) (c : ChannelEntry) (idx : Nat) (w : Width), Spec.resolves s idx ev c →
    packetCode ev.mode w = some c.pcode → 3 ≤ c.len →
    let fails := fun offset expected actual =>
      exec (.decSamples idx) s =
        .next (Spec.failure (Spec.failureWrites (.decSamples idx) s) 0x13 offset idx expected actual)
    (ev.mode = .virginRaw ∨ ev.mode = .processedRaw → c.len ≠ 3 + codedSize 256 ev.mode w →
      fails c.off (3 + codedSize 256 ev.mode w) c.len) ∧
    (ev.mode = .scope → (c.len - 3) % 2 = 1 → fails c.off (c.len - 1) c.len) ∧
    (ev.mode = .zeroSuppressed → c.len < 7 → fails c.off 7 c.len) ∧
    (ev.mode = .zeroSuppressed ∨ ev.mode = .zeroSuppressedLite → ∀ (r : Nat) (cs : List (List Half)),
      Spec.Clusters s.mem ev.mode w (c.off + c.len) (Spec.clusterStart ev.mode c) r cs → r < c.off + c.len →
      let last := c.off + c.len
      let a := (logicalByte s.mem r).toNat
      let wd := (logicalByte s.mem (r + 1)).toNat
      let stop := r + 2 + codedSize wd ev.mode w
      (last < r + 2 → fails r (r + 2) last) ∧
      (r + 2 ≤ last → wd = 0 → fails (r + 1) 1 0) ∧
      (r + 2 ≤ last → wd ≠ 0 → 256 < a + wd → fails r 256 (a + wd)) ∧
      (r + 2 ≤ last → wd ≠ 0 → a + wd ≤ 256 → last < stop → fails r stop last))

/-- DEC_CHECK compares the trailer's length with the decoded length, and, unless SKIP_CRC is set, recomputes the event CRC with
the two bytes of its field read as 0; a mismatch is a flag and no error (43_decoder.md R315; 41_crc.md R242). -/
def Obligations.DecCheckWritesTheFlags : Prop :=
  ∀ (s : State) (ev : EventRecord), s.ev = some ev →
    let mismatch := decide (s.hdr.trlLen.toNat * 8 ≠ ev.t + 8)
    let f := ev.t + (if ev.evfmt = .standard then 4 else 0)
    let crc : Half := BitVec.ofNat 16 (Spec.crcLoop
      ((List.range (ev.t + 8)).map fun i => if i = f ∨ i = f + 1 then 0 else logicalByte s.mem i))
    (s.decCfg.getLsbD 3 = true →
      exec .decCheck s = .next (Spec.success
        { s with
          crcComputed := 0
          flags := { s.flags with lenMismatch := mismatch, crcMismatch := false, crcChecked := false } })) ∧
    (s.decCfg.getLsbD 3 = false →
      exec .decCheck s = .next (Spec.success
        { s with
          crcComputed := crc
          flags := { s.flags with
            lenMismatch := mismatch
            crcMismatch := decide (crc ≠ s.hdr.trlInfo.extractLsb' 0 16)
            crcChecked := true } }))

/-- DEC_STATUSES: bit k of STAT_BADj says that channel 32j + k is enabled and its status is not all ones, STAT_BAD_COUNT counts
those bits, and every other field is as the completion leaves it (43_decoder.md R320). -/
def Obligations.DecStatusesReportsBadChannels : Prop :=
  ∀ (s : State) (ev : EventRecord), s.ev = some ev →
    let bad := fun ch => ev.enable.getLsbD (ch / 12) &&
      channelStatus s.mem ev ch != (if ev.hdrfmt = .fullDebug then 0x3F else 0x3)
    ∃ t : State, exec .decStatus s = .next t ∧
      (∀ ch < 96, (t.stat.bad2 ++ t.stat.bad1 ++ t.stat.bad0).getLsbD ch = bad ch) ∧
      t.stat.count.toNat = ((List.range 96).filter bad).length ∧ { t with stat := s.stat } = Spec.success s

/-! ## The encoder -/

/-- ENC_BUILD with a mode and width that have a packet code always succeeds and never exceeds OBUF: D bytes, a multiple of 8, the
header words, TSH and trailer as the rules lay them out, ENC_LEN = D / 4, ENC_CRC the CRC of the event with its CRC field 0, all
of OBUF written with zeros after the event, nothing outside OBUF; between the TSH and the trailer, byte by byte, the FE headers and
the eight units with their channels and padding, whatever the runs above ZS_THRESH are (44_encoder.md R340, R343-R354). D is the
49,624 of 00_scope.md R12 for an STD raw or Scope event with FullDebug headers, and at most that but for a zero-suppressed event of
width W10, where the rules for its bytes give up to 50,200, which is the model's choice between them (log entry 15). -/
def Obligations.EncBuildWritesAnEvent : Prop :=
  ∀ (s : State) (mode : DaqMode) (w : Width), Spec.encodes s mode w → ∃ (t : State) (d : Nat) (crc : Half),
    exec .encBuild s = .next t ∧ d % 8 = 0 ∧ 16 + (if s.enc.cfg0.getLsbD 15 then 24 else 128) + 8 ≤ d ∧ d ≤ 4 * 16384 ∧
    d ≤ 50200 ∧ (mode ∉ [.zeroSuppressed, .zeroSuppressedLite] ∨ w ≠ .w10 → d ≤ 49624) ∧
    (mode ∉ [.zeroSuppressed, .zeroSuppressedLite] → w = .std → s.enc.cfg0.getLsbD 15 = false → d = 49624) ∧
    { t with mem := s.mem } = Spec.success
      { s with
        enc := { s.enc with len := BitVec.ofNat 32 (d / 4), crc := crc }
        flags := { s.flags with encValid := true } } ∧
    (∀ a, ¬ inRam .obuf a → Memory.read t.mem a = Memory.read s.mem a) ∧
    (∀ i, d / 4 ≤ i → i < 16384 → ramWord t.mem .obuf i = 0) ∧
    Spec.eventWord s t 0 ++ Spec.eventWord s t 1 =
      (0x5 : BitVec 4) ++ s.enc.cfg1.extractLsb' 24 4 ++ s.enc.cfg1.extractLsb' 0 24 ++ s.enc.cfg0.extractLsb' 0 12 ++
        s.enc.cfg2.extractLsb' 0 12 ++ s.enc.cfg1.extractLsb' 28 4 ++ (0 : BitVec 4) ∧
    Spec.eventWord s t 2 ++ Spec.eventWord s t 3 =
      (if s.enc.cfg0.getLsbD 15 then 0x2 else 0x1 : BitVec 4) ++ tshEventType mode ++ (0x0000FF00000000 : BitVec 56) ∧
    Spec.eventWord s t (d / 4 - 2) ++ Spec.eventWord s t (d / 4 - 1) =
      (0xA0 : BitVec 8) ++ BitVec.ofNat 24 (d / 8) ++ crc ++ (0 : BitVec 4) ++ s.enc.cfg2.extractLsb' 12 4 ++
        s.enc.cfg2.extractLsb' 16 4 ++ (0 : BitVec 4) ∧
    crc.toNat = Spec.crcLoop
      ((List.range d).map fun i => if i = d - 4 ∨ i = d - 3 then 0 else Spec.eventByte s t i) ∧
    ∀ runs, Spec.runsOf s runs →
      let units := (List.range 8).map (Spec.unitBytes s mode w runs)
      let region := Spec.frontEndHeaders s (units.map List.length) ++ units.flatten
      d = 16 + region.length + 8 ∧
        region.length = (if s.enc.cfg0.getLsbD 15 then 24 else 128) + (units.map List.length).sum ∧
        ∀ (i : Nat) (h : i < region.length), Spec.eventByte s t (16 + i) = region[i]

/-- ENC_BUILD refuses a reserved MODE, then a Scope width other than STD, and leaves ENC_VALID, ENC_LEN and ENC_CRC 0
(44_encoder.md R342; 60_exceptions.md R405). -/
def Obligations.EncBuildRefusesBadConfiguration : Prop :=
  ∀ s : State,
    let mode := (s.enc.cfg0.extractLsb' 12 3).toNat
    let width := (s.enc.cfg0.extractLsb' 16 2).toNat
    (5 ≤ mode → exec .encBuild s = .next (Spec.failure (Spec.failureWrites .encBuild s) 0x31 0 0xFF 4 mode)) ∧
    (mode = 4 → width ≠ 0 →
      exec .encBuild s = .next (Spec.failure (Spec.failureWrites .encBuild s) 0x31 0 0xFF 0 width))

/-- Cluster finding gives the maximal runs of the strips above the threshold, each with its strips' values (44_encoder.md
R349). -/
def Obligations.ClusterFindingGivesTheMaximalRuns : Prop :=
  ∀ (threshold : Nat) (strips : List Half),
    let found := findRuns threshold 0 none strips
    Spec.Runs (fun k => ∃ h : k < strips.length, threshold < min strips[k].toNat 1023)
        (found.map fun r => (r.1, r.2.length)) ∧
      ∀ r ∈ found, r.2 = (strips.drop r.1).take r.2.length

/-- An encoded event, copied to IBUF and the Slink64 swap undone, parses: DEC_BYTES is the encoded length, which the unit lengths
account for, the header, TSH and trailer fields read back what ENC_CFG gave or the encoder writes, every unit is enabled, FEH_MAJ
and FEH_RSV are 0, DEC_CHECK reports no mismatch and DEC_STATUSES no bad channel (44_encoder.md R343, R344, R351, R355;
43_decoder.md R320). -/
def Obligations.EncodedEventParsesBack : Prop :=
  ∀ (s : State) (mode : DaqMode) (w : Width) (skipCrc : Bool) (extEnable : BitVec 8), Spec.encodes s mode w →
    ∃ u t v x, Spec.encodedAndCopied s u skipCrc extEnable ∧ exec .decParse u = .next t ∧ exec .decCheck t = .next v ∧
      exec .decStatus v = .next x ∧
      t.flags.err = false ∧ t.hdr.decBytes.toNat = 4 * u.enc.len.toNat ∧
      4 * u.enc.len.toNat = 16 + (if s.enc.cfg0.getLsbD 15 then 24 else 128) +
        (t.hdr.units.toList.map fun r => r.len.toNat).sum + 8 ∧
      t.hdr.evtNum = s.enc.cfg1.extractLsb' 0 24 ∧ t.hdr.bx = s.enc.cfg0.extractLsb' 0 12 ∧
      t.hdr.srcId = s.enc.cfg2.extractLsb' 0 12 ∧
      t.hdr.evtInfo = s.enc.cfg1.extractLsb' 28 4 ++ s.enc.cfg1.extractLsb' 24 4 ∧ t.hdr.feRegs = 0x000000FF ∧
      t.hdr.tshInfo =
        (0 : BitVec 24) ++ tshEventType mode ++ (if s.enc.cfg0.getLsbD 15 then 0x2 else 0x1 : BitVec 4) ∧
      t.hdr.trlLen.toNat * 8 = 4 * u.enc.len.toNat ∧
      t.hdr.trlInfo =
        (0 : BitVec 1) ++ s.enc.cfg2.extractLsb' 16 4 ++ s.enc.cfg2.extractLsb' 12 4 ++ u.enc.crc ∧
      (∀ r ∈ t.hdr.units.toList, r.maj = 0 ∧ r.rsv = 0) ∧
      v.flags.err = false ∧ v.flags.lenMismatch = false ∧ v.flags.crcMismatch = false ∧ v.flags.crcChecked = !skipCrc ∧
      (skipCrc = false → v.crcComputed = u.enc.crc) ∧
      x.flags.err = false ∧ x.stat = { bad0 := 0, bad1 := 0, bad2 := 0, count := 0 }

/-- DEC_SAMPLES of every channel of an encoded raw or Scope event gives back the channel's strips: of a raw event in physical order,
each as the width's coding leaves it, exactly with STD or W10 and values up to 1023; of a Scope event in MUX order, clamped to 1023
(44_encoder.md R347, R355). -/
def Obligations.RawEventsRoundTrip : Prop :=
  ∀ (s u t : State) (mode : DaqMode) (w : Width) (skipCrc : Bool) (extEnable : BitVec 8), Spec.encodes s mode w →
    mode = .virginRaw ∨ mode = .processedRaw ∨ mode = .scope → Spec.encodedAndCopied s u skipCrc extEnable →
    exec .decParse u = .next t →
    ∀ ch < 96, ∃ v, exec (.decSamples ch) t = .next v ∧ v.flags.err = false ∧ v.res.count = 256 ∧
      (mode ≠ .scope →
        (∀ k < 256, (ramHalf v.mem .res k).toNat = Spec.roundTripValue mode w (Spec.stripValue s ch k).toNat) ∧
        (w = .std ∨ w = .w10 → ∀ k < 256, (Spec.stripValue s ch k).toNat ≤ 1023 →
          ramHalf v.mem .res k = Spec.stripValue s ch k)) ∧
      (mode = .scope → ∀ a < 2, ∀ i < 128,
        (ramHalf v.mem .res (128 * a + i)).toNat =
          min (Spec.stripValue s ch (128 * a + Spec.muxToStrip i)).toNat 1023)

/-- DEC_SAMPLES of every channel of an encoded zero-suppressed event gives the clusters of the strips above ZS_THRESH, APV 0
before APV 1, with their values as the coding leaves them, and the medians (44_encoder.md R355). -/
def Obligations.ZeroSuppressedEventsRoundTrip : Prop :=
  ∀ (s u t : State) (mode : DaqMode) (w : Width) (skipCrc : Bool) (extEnable : BitVec 8), Spec.encodes s mode w →
    mode = .zeroSuppressed ∨ mode = .zeroSuppressedLite → Spec.encodedAndCopied s u skipCrc extEnable →
    exec .decParse u = .next t →
    ∀ ch < 96, ∀ runs0 runs1, Spec.Runs (Spec.aboveThreshold s ch 0) runs0 → Spec.Runs (Spec.aboveThreshold s ch 1) runs1 →
      let entries := Spec.clusterEntries s mode w ch 0 runs0 ++ Spec.clusterEntries s mode w ch 1 runs1
      let median := fun k =>
        if mode = .zeroSuppressed ∧ s.enc.cfg0.getLsbD 19 = true then ramHalf s.mem .cm k else (0 : Half)
      ∃ v, exec (.decSamples ch) t = .next v ∧ v.flags.err = false ∧ v.res.count.toNat = entries.length ∧
        v.res.nclus.toNat = runs0.length + runs1.length ∧ v.res.cm = median (2 * ch + 1) ++ median (2 * ch) ∧
        ∀ (k : Nat) (h : k < entries.length), ramHalf v.mem .res k = entries[k]

/-! ## The buffer utilities -/

/-- SWAP64 exchanges words 2k and 2k + 1 below the length, in the chosen buffer only; on IBUF it discards EV, and refuses a length
above the depth (44_encoder.md R371). -/
def Obligations.Swap64ExchangesWordPairs : Prop :=
  ∀ s : State,
    let swapped := fun (t : State) (r : Ram) (n : Nat) =>
      (∀ i < 16384, ramWord t.mem r i = ramWord s.mem r (if i < n / 2 * 2 then i ^^^ 1 else i)) ∧
        ∀ a, ¬ inRam r a → Memory.read t.mem a = Memory.read s.mem a
    (s.decLen.toNat ≤ 16384 → ∃ t, exec (.swap64 .ibuf) s = .next t ∧ swapped t .ibuf s.decLen.toNat ∧
      { t with mem := s.mem } = Spec.success (Spec.eventDiscarded s)) ∧
    (16384 < s.decLen.toNat →
      exec (.swap64 .ibuf) s = .next (Spec.failure s 0x31 0 0xFF 16384 s.decLen.toNat)) ∧
    (s.enc.len.toNat ≤ 16384 → ∃ t, exec (.swap64 .obuf) s = .next t ∧ swapped t .obuf s.enc.len.toNat ∧
      { t with mem := s.mem } = Spec.success s)

/-- Two SWAP64 commands on the same buffer restore it, and all of memory with it (44_encoder.md R371). -/
def Obligations.Swap64TwiceRestores : Prop :=
  ∀ (s t u : State) (tgt : SwapTarget), Memory.wf s.mem → exec (.swap64 tgt) s = .next t → exec (.swap64 tgt) t = .next u →
    u.mem = s.mem

/-- COPY_O2I copies the first ENC_LEN words of OBUF into IBUF, sets DEC_LEN and discards EV, and refuses a length above the
depth (44_encoder.md R372). -/
def Obligations.CopyO2iCopiesTheEvent : Prop :=
  ∀ s : State,
    (s.enc.len.toNat ≤ 16384 → ∃ t, exec .copyO2i s = .next t ∧
      (∀ i < s.enc.len.toNat, ramWord t.mem .ibuf i = ramWord s.mem .obuf i) ∧
      (∀ a, a < 0x10000 ∨ 0x10000 + 4 * s.enc.len.toNat ≤ a → Memory.read t.mem a = Memory.read s.mem a) ∧
      { t with mem := s.mem } = Spec.success { Spec.eventDiscarded s with decLen := s.enc.len }) ∧
    (16384 < s.enc.len.toNat → exec .copyO2i s = .next (Spec.failure s 0x31 0 0xFF 16384 s.enc.len.toNat))

/-! ## The host -/

/-- A host read of a register of an idle block returns what the register map gives its offset, 0 for a reserved one, and
changes nothing (10_state.md R40; 20_memory.md R100, R101). -/
def Obligations.HostReadsTheRegisterMap : Prop :=
  ∀ (s : State) (a : BusAddr) (rest : List HostEvent), s.pend = none → s.inbox = .read a :: rest → a.toNat < 0x1000 →
    let answers := fun x => step s = .next { s with inbox := rest, outbox := s.outbox ++ [x] }
    (∀ r ∈ Spec.registerTable s, r.1 = a.toNat / 4 * 4 → answers r.2) ∧
      ((∀ r ∈ Spec.registerTable s, r.1 ≠ a.toNat / 4 * 4) → answers 0)

/-- A host write to a register of an idle block does what the register map says: CMD latches a command, W1C bits are cleared by
1s, an RW register takes the bits it has, and nothing happens at any other offset (10_state.md R36, R40-R53). -/
def Obligations.HostWritesTheRegisterMap : Prop :=
  ∀ (s : State) (a : BusAddr) (v : Word) (rest : List HostEvent), s.pend = none → s.inbox = .write a v :: rest →
    a.toNat < 0x1000 →
    let table := Spec.writeTable { s with inbox := rest } v
    (∀ r ∈ table, r.1 = a.toNat / 4 * 4 → step s = .next r.2) ∧
      ((∀ r ∈ table, r.1 ≠ a.toNat / 4 * 4) → step s = .next { s with inbox := rest })

/-- Host accesses of an idle block to the RAM windows: a read returns the entry, a write changes it alone, discards EV in IBUF and
clears ENC_VALID in OBUF, RES is read-only, a 16-bit entry has no upper half, and where nothing is mapped a read gives 0 and a
write does nothing (10_state.md R34, R57; 20_memory.md R101, R109). -/
def Obligations.HostAccessesTheRams : Prop :=
  ∀ (s : State) (a : BusAddr) (v : Word) (rest : List HostEvent), s.pend = none → 0x1000 ≤ a.toNat →
    let s0 := { s with inbox := rest }
    let reads := fun x => s.inbox = .read a :: rest → step s = .next { s0 with outbox := s.outbox ++ [x] }
    (∀ r i, i < ramEntries r → a.toNat / 4 * 4 = ramBase r + 4 * i →
      let wide := r = .ibuf ∨ r = .obuf
      (wide → reads (ramWord s.mem r i)) ∧ (¬ wide → reads ((ramHalf s.mem r i).zeroExtend 32)) ∧
      (r = .res → s.inbox = .write a v :: rest → step s = .next s0) ∧
      (r ≠ .res → s.inbox = .write a v :: rest → ∃ t, step s = .next t ∧
        (wide → ramWord t.mem r i = v) ∧ (¬ wide → ramHalf t.mem r i = v.extractLsb' 0 16) ∧
        (∀ b, b < ramBase r + 4 * i ∨ ramBase r + 4 * i + 4 ≤ b → Memory.read t.mem b = Memory.read s.mem b) ∧
        { t with mem := s.mem } =
          if r = .ibuf then Spec.eventDiscarded s0
          else if r = .obuf then { s0 with flags := { s.flags with encValid := false } }
          else s0)) ∧
    ((∀ r i, i < ramEntries r → a.toNat / 4 * 4 ≠ ramBase r + 4 * i) →
      reads 0 ∧ (s.inbox = .write a v :: rest → step s = .next s0))

/-- Host accesses while a command is pending: ID, STATUS, IRQ_EN and IRQ_PEND are read, a write to CMD is dropped and sets
CMD_OVERRUN, W1C and IRQ_EN writes take effect, a write to ID is ignored, and every other access is refused, changes nothing, and
sets BUSY_ACCESS (10_state.md R36; 20_memory.md R110; 92_eei_decisions.md D30). That neither a CMD write nor a write to ID or STATUS
sets BUSY_ACCESS is the model's reading (log entry 7). -/
def Obligations.HostAccessesWhileBusy : Prop :=
  ∀ (s : State) (a : BusAddr) (v : Word) (rest : List HostEvent), s.pend ≠ none →
    let s0 := { s with inbox := rest }
    let offset := a.toNat / 4 * 4
    (s.inbox = .read a :: rest →
      (offset ∈ [0x000, 0x008, 0x00C, 0x010] → ∀ r ∈ Spec.registerTable s, r.1 = offset →
        step s = .next { s0 with outbox := s.outbox ++ [r.2] }) ∧
      (offset ∉ [0x000, 0x008, 0x00C, 0x010] → ∃ x n, step s = .next
        { s0 with outbox := s.outbox ++ [x], draws := n, flags := { s.flags with busyAccess := true } })) ∧
    (s.inbox = .write a v :: rest →
      (offset = 0x000 → step s = .next s0) ∧
      (offset = 0x004 → step s = .next { s0 with flags := { s.flags with cmdOverrun := true } }) ∧
      (offset ∈ [0x008, 0x00C, 0x010] → ∀ r ∈ Spec.writeTable s0 v, r.1 = offset → step s = .next r.2) ∧
      (offset ∉ [0x000, 0x004, 0x008, 0x00C, 0x010] →
        step s = .next { s0 with flags := { s.flags with busyAccess := true } }))

/-- The IRQ output is the level of the rule; a command that completes with its cause enabled raises it, and writing 1s to
IRQ_PEND lowers it (60_exceptions.md R420, R421). -/
def Obligations.IrqIsALevel : Prop :=
  (∀ s : State, irqLine s = (s.irq.doneEn && s.irq.doneP || s.irq.errEn && s.irq.errP)) ∧
  (∀ (i : Instr) (s t : State), exec i s = .next t →
    (s.irq.doneEn = true → irqLine t = true) ∧ (s.irq.errEn = true → t.flags.err = true → irqLine t = true)) ∧
  ∀ (s t : State) (v : Word) (rest : List HostEvent), s.inbox = .write 0x10 v :: rest → v.getLsbD 0 = true →
    v.getLsbD 1 = true → step s = .next t → irqLine t = false

/-- Reset: every register reads its reset value, the latch is empty and no event is held; and a step in which the reset input is
asserted leaves every register as it is then, whatever the block was doing (70_reset_and_hazards.md R450). -/
def Obligations.ResetLeavesTheResetValues : Prop :=
  (∀ r ∈ Spec.registerTable State.reset, r.2 =
    if r.1 = 0x000 then 0x46454443 else if r.1 = 0x01C then 0xFF else if r.1 = 0x040 then 0x0000FF00 else 0) ∧
  State.reset.pend = none ∧ State.reset.ev = none ∧
  ∀ (s : State) (rest : List HostEvent), s.inbox = .rst :: rest → ∃ t, step s = .next t ∧
    { t with mem := [], draws := 0 } = { State.reset with inbox := rest, outbox := s.outbox }

/-! ## The whole machine -/

/-- The invariant holds after reset. What the RAMs hold then is the model's choice (log entry 1). -/
def Obligations.InvAtReset : Prop := Inv State.reset

/-- Every step keeps the invariant: memory in its canonical form and inside the RAMs, reserved register bits 0, the flags and the
encoder registers consistent, a held event record with all its regions inside the event. -/
def Obligations.StepKeepsInv : Prop := ∀ s t : State, Inv s → step s = .next t → Inv t

/-- Every step keeps what DEC_VALID promises: the event record and the header registers are what a parse of IBUF as it now
stands gives (43_decoder.md R280). -/
def Obligations.StepKeepsEventIsCurrent : Prop := ∀ s t : State, EventIsCurrent s → step s = .next t → EventIsCurrent t

/-- Each RAM, register and flag is written only by the commands the spec names for it, EV too; no command writes a configuration
register, an interrupt enable, a sticky flag or the host's side (10_state.md R34, R46-R53, R55, R57; 40_cursor.md R227). -/
def Obligations.CommandsWriteOnlyTheirState : Prop :=
  ∀ (i : Instr) (s t : State), exec i s = .next t →
    (∀ r a, inRam r a → Memory.read t.mem a ≠ Memory.read s.mem a →
      (r = .ibuf ∧ (i = .swap64 .ibuf ∨ i = .copyO2i)) ∨ (r = .obuf ∧ (i = .encBuild ∨ i = .swap64 .obuf)) ∨
        (r = .fout ∧ (i = .reorder ∨ i = .disorder)) ∨ (r = .res ∧ ∃ idx, i = .decSamples idx)) ∧
    t.decCfg = s.decCfg ∧ t.enc.cfg0 = s.enc.cfg0 ∧ t.enc.cfg1 = s.enc.cfg1 ∧ t.enc.cfg2 = s.enc.cfg2 ∧
    t.crc.start = s.crc.start ∧ t.crc.len = s.crc.len ∧
    (t.decLen ≠ s.decLen → i = .copyO2i) ∧ (t.hdr ≠ s.hdr → i = .decParse) ∧
    (t.crcComputed ≠ s.crcComputed → i = .decParse ∨ i = .decCheck) ∧
    (t.chan ≠ s.chan → i = .decParse ∨ (∃ idx, i = .decChan idx) ∨ ∃ idx, i = .decSamples idx) ∧
    (t.res ≠ s.res → i = .decParse ∨ ∃ idx, i = .decSamples idx) ∧ (t.stat ≠ s.stat → i = .decParse ∨ i = .decStatus) ∧
    (t.enc ≠ s.enc → i = .encBuild) ∧ (t.crc.result ≠ s.crc.result → i = .crc ∨ i = .crcBe) ∧
    (t.cur.data ≠ s.cur.data → (∃ k, i = .curByte k) ∨ (∃ k b, i = .curU16 k b) ∨ ∃ k b, i = .curU32 k b) ∧
    (t.cur.base ≠ s.cur.base → i = .curNorm) ∧ (t.cur.off ≠ s.cur.off → (∃ n, i = .curAdv n) ∨ i = .curNorm) ∧
    (t.cur.rem ≠ s.cur.rem → ∃ n, i = .curAdv n) ∧
    (t.ev ≠ s.ev → i = .decParse ∨ i = .swap64 .ibuf ∨ i = .copyO2i) ∧
    (t.flags.lenMismatch ≠ s.flags.lenMismatch ∨ t.flags.crcMismatch ≠ s.flags.crcMismatch ∨
        t.flags.crcChecked ≠ s.flags.crcChecked →
      i = .decParse ∨ i = .decCheck ∨ i = .swap64 .ibuf ∨ i = .copyO2i) ∧
    (t.flags.encValid ≠ s.flags.encValid → i = .encBuild) ∧ t.flags.cmdOverrun = s.flags.cmdOverrun ∧
    t.flags.busyAccess = s.flags.busyAccess ∧ t.irq.doneEn = s.irq.doneEn ∧ t.irq.errEn = s.irq.errEn ∧
    t.inbox = s.inbox ∧ t.outbox = s.outbox ∧ t.draws = s.draws

/-- A latched command always completes, and whatever the host does before the engine steps, short of a reset, the command does
what it would have done at once, also one with a reserved OP (10_state.md R31; 20_memory.md R110, R111; 30_encoding.md R143;
70_reset_and_hazards.md R462). The host's accesses and the engine's turn come from log entry 4's inbox. -/
def Obligations.LatchedCommandCompletes : Prop :=
  ∀ (s : State) (p : Pending) (accesses rest : List HostEvent), s.pend = some p →
    (∀ e ∈ accesses, e ≠ .idle ∧ e ≠ .rst) → s.inbox = accesses ++ .idle :: rest →
    ∃ t, Spec.run (accesses.length + 1) s = some t ∧ t.pend = none ∧ t.flags.done = true ∧ t.inbox = rest ∧
      (∀ i, decode (commandWord p.op p.arg) = .ok i → ∃ u, exec i s = .next u ∧ Spec.sameForEngine t u) ∧
      (Spec.reservedOp p.op.toNat → Spec.sameForEngine t (Spec.failure s 0x30 0 0xFF 0 p.op.toNat))
end

