-- ==== Sys2Proof/Laws/Memory.lean ====
section
/-! SUPPORT. What reading and storing bytes does: read after store, everywhere; the canonical form is kept; two canonical
memories that read alike are equal. -/

namespace Sys2Proof.Machine

/-- An address without a cell reads as an unwritten byte. -/
theorem Memory.read_of_forall_ne {m : Memory} {a : Nat} (h : ∀ c ∈ m, c.1 ≠ a) :
    Memory.read m a = Config.unwrittenByte := by
  induction m with
  | nil => rfl
  | cons c m ih =>
    have hc : c.1 ≠ a := h c (by simp)
    simp only [Memory.read, hc, if_false]
    exact ih fun d hd => h d (by simp [hd])

theorem Memory.read_append_of_forall_ne {l r : Memory} {a : Nat} (h : ∀ c ∈ l, c.1 ≠ a) :
    Memory.read (l ++ r) a = Memory.read r a := by
  induction l with
  | nil => rfl
  | cons c l ih =>
    have hc : c.1 ≠ a := h c (by simp)
    simp only [List.cons_append, Memory.read, hc, if_false]
    exact ih fun d hd => h d (by simp [hd])

theorem Memory.read_append_of_forall_ne_right {l r : Memory} {a : Nat} (h : ∀ c ∈ r, c.1 ≠ a) :
    Memory.read (l ++ r) a = Memory.read l a := by
  induction l with
  | nil => exact Memory.read_of_forall_ne h
  | cons c l ih =>
    simp only [List.cons_append, Memory.read]
    split
    · rfl
    · exact ih

/-- A filter that keeps every cell of an address does not change what it reads as. -/
theorem Memory.read_filter {m : Memory} {a : Nat} {p : Host.Cell → Bool} (h : ∀ c ∈ m, c.1 = a → p c = true) :
    Memory.read (m.filter p) a = Memory.read m a := by
  induction m with
  | nil => rfl
  | cons c m ih =>
    have ih := ih fun d hd => h d (by simp [hd])
    by_cases hc : c.1 = a
    · have hp := h c (by simp) hc
      simp [hp, Memory.read, hc]
    · by_cases hp : p c = true
      · simp [hp, Memory.read, hc, ih]
      · simp [hp, Memory.read, hc, ih]

/-- The cells of a stored list of bytes lie in its range. -/
theorem Memory.mem_cells {lo : Nat} {bytes : List Byte} {c : Host.Cell} (h : c ∈ Memory.cells lo bytes) :
    lo ≤ c.1 ∧ c.1 < lo + bytes.length ∧ c.2 ≠ Config.unwrittenByte := by
  induction bytes generalizing lo with
  | nil => simp [Memory.cells] at h
  | cons b bytes ih =>
    simp only [Memory.cells] at h
    split at h
    · have := ih h
      simp only [List.length_cons]
      exact ⟨by omega, by omega, this.2.2⟩
    · rename_i hb
      rcases List.mem_cons.1 h with rfl | h
      · simp [hb]
      · have := ih h
        simp only [List.length_cons]
        exact ⟨by omega, by omega, this.2.2⟩

/-- Reading a stored list of bytes. -/
theorem Memory.read_cells (lo : Nat) (bytes : List Byte) (i : Nat) :
    Memory.read (Memory.cells lo bytes) (lo + i) = bytes.getD i Config.unwrittenByte := by
  induction bytes generalizing lo i with
  | nil => simp [Memory.cells, Memory.read]
  | cons b bytes ih =>
    have below : ∀ c ∈ Memory.cells (lo + 1) bytes, c.1 ≠ lo := fun c hc => by
      have := (Memory.mem_cells hc).1
      omega
    cases i with
    | zero =>
      by_cases hb : b = Config.unwrittenByte
      · simp [Memory.cells, hb, Memory.read_of_forall_ne below]
      · simp [Memory.cells, hb, Memory.read]
    | succ i =>
      have := ih (lo + 1) i
      rw [show lo + 1 + i = lo + (i + 1) by omega] at this
      by_cases hb : b = Config.unwrittenByte
      · simp [Memory.cells, hb, this]
      · have : lo ≠ lo + (i + 1) := by omega
        simp [Memory.cells, Memory.read, *]

/-- Read after store: the stored bytes in their range, every other byte as before. -/
theorem Memory.read_store (m : Memory) (lo : Nat) (bytes : List Byte) (a : Nat) :
    Memory.read (Memory.store m lo bytes) a =
      if lo ≤ a ∧ a < lo + bytes.length then bytes.getD (a - lo) Config.unwrittenByte else Memory.read m a := by
  have hleft : ∀ c ∈ m.filter (fun c => decide (c.1 < lo)), c.1 < lo := fun c hc => by simpa using (List.mem_filter.1 hc).2
  have hright : ∀ c ∈ m.filter (fun c => decide (lo + bytes.length ≤ c.1)), lo + bytes.length ≤ c.1 :=
    fun c hc => by simpa using (List.mem_filter.1 hc).2
  unfold Memory.store
  by_cases h1 : a < lo
  · have h2 : ¬ (lo ≤ a ∧ a < lo + bytes.length) := by omega
    rw [if_neg h2, Memory.read_append_of_forall_ne_right, Memory.read_append_of_forall_ne_right, Memory.read_filter]
    · intro c _ hc
      simpa [hc] using h1
    · intro c hc
      have := (Memory.mem_cells hc).1
      omega
    · intro c hc
      have := hright c hc
      omega
  · by_cases h2 : a < lo + bytes.length
    · rw [if_pos ⟨by omega, h2⟩, Memory.read_append_of_forall_ne_right, Memory.read_append_of_forall_ne]
      · have := Memory.read_cells lo bytes (a - lo)
        rwa [show lo + (a - lo) = a by omega] at this
      · intro c hc
        have := hleft c hc
        omega
      · intro c hc
        have := hright c hc
        omega
    · rw [if_neg (by omega), Memory.read_append_of_forall_ne, Memory.read_filter]
      · intro c _ hc
        simp only [hc, decide_eq_true_eq]
        omega
      · intro c hc
        rcases List.mem_append.1 hc with hc | hc
        · have := hleft c hc
          omega
        · have := (Memory.mem_cells hc).2.1
          omega

theorem Memory.read_store_of_lt {m : Memory} {lo a : Nat} {bytes : List Byte} (h : a < lo) :
    Memory.read (Memory.store m lo bytes) a = Memory.read m a := by
  rw [Memory.read_store, if_neg (by omega)]

theorem Memory.read_store_of_ge {m : Memory} {lo a : Nat} {bytes : List Byte} (h : lo + bytes.length ≤ a) :
    Memory.read (Memory.store m lo bytes) a = Memory.read m a := by
  rw [Memory.read_store, if_neg (by omega)]

/-- Reading inside the stored range. -/
theorem Memory.read_store_add {m : Memory} {lo i : Nat} {bytes : List Byte} (h : i < bytes.length) :
    Memory.read (Memory.store m lo bytes) (lo + i) = bytes[i] := by
  rw [Memory.read_store, if_pos (by omega), Nat.add_sub_cancel_left]
  simp [h]

theorem Memory.cells_pairwise (lo : Nat) (bytes : List Byte) :
    (Memory.cells lo bytes).Pairwise (fun c d => c.1 < d.1) := by
  induction bytes generalizing lo with
  | nil => simp [Memory.cells]
  | cons b bytes ih =>
    simp only [Memory.cells]
    split
    · exact ih (lo + 1)
    · refine List.pairwise_cons.2 ⟨fun c hc => ?_, ih (lo + 1)⟩
      have := (Memory.mem_cells hc).1
      show lo < c.1
      omega

/-- A store keeps the canonical form. -/
theorem Memory.wf_store {m : Memory} (h : Memory.wf m) (lo : Nat) (bytes : List Byte) :
    Memory.wf (Memory.store m lo bytes) := by
  have hleft : ∀ c ∈ m.filter (fun c => decide (c.1 < lo)), c.1 < lo := fun c hc => by simpa using (List.mem_filter.1 hc).2
  have hright : ∀ c ∈ m.filter (fun c => decide (lo + bytes.length ≤ c.1)), lo + bytes.length ≤ c.1 :=
    fun c hc => by simpa using (List.mem_filter.1 hc).2
  refine ⟨?_, ?_⟩
  · refine List.pairwise_append.2 ⟨List.pairwise_append.2 ⟨h.1.filter _, Memory.cells_pairwise lo bytes, ?_⟩, h.1.filter _, ?_⟩
    · intro c hc d hd
      exact Nat.lt_of_lt_of_le (hleft c hc) (Memory.mem_cells hd).1
    · intro c hc d hd
      have hd := hright d hd
      rcases List.mem_append.1 hc with hc | hc
      · exact Nat.lt_of_lt_of_le (Nat.lt_of_lt_of_le (hleft c hc) (Nat.le_add_right lo _)) hd
      · exact Nat.lt_of_lt_of_le (Memory.mem_cells hc).2.1 hd
  · intro c hc
    rcases List.mem_append.1 hc with hc | hc
    · rcases List.mem_append.1 hc with hc | hc
      · exact h.2 c (List.mem_filter.1 hc).1
      · exact (Memory.mem_cells hc).2.2
    · exact h.2 c (List.mem_filter.1 hc).1

theorem Memory.wf_storeWords {m : Memory} (h : Memory.wf m) (a : Nat) (ws : List Word) :
    Memory.wf (Memory.storeWords m a ws) := Memory.wf_store h a _

theorem Memory.wf_storeHalves {m : Memory} (h : Memory.wf m) (a : Nat) (hs : List Half) :
    Memory.wf (Memory.storeHalves m a hs) := Memory.wf_store h a _

/-- The memory that the reset state has. -/
theorem Memory.wf_nil : Memory.wf [] := by simp [Memory.wf]

/-- The memory that an asserted RST leaves. -/
theorem Memory.wf_ramDraw (n : Nat) : Memory.wf (ramDraw n) :=
  ⟨Memory.cells_pairwise _ _, fun _ hc => (Memory.mem_cells hc).2.2⟩

/-- A cell's own address reads as its byte in a canonical memory. -/
theorem Memory.read_of_mem {m : Memory} (h : Memory.wf m) {c : Host.Cell} (hc : c ∈ m) : Memory.read m c.1 = c.2 := by
  induction m with
  | nil => simp at hc
  | cons d m ih =>
    have hd := List.pairwise_cons.1 h.1
    rcases List.mem_cons.1 hc with rfl | hc
    · simp [Memory.read]
    · have : d.1 ≠ c.1 := Nat.ne_of_lt (hd.1 c hc)
      simp only [Memory.read, this, if_false]
      exact ih ⟨hd.2, fun e he => h.2 e (by simp [he])⟩ hc

/-- Canonical memories that read alike at every address are equal. -/
theorem Memory.ext_of_wf {m n : Memory} (hm : Memory.wf m) (hn : Memory.wf n)
    (h : ∀ a, Memory.read m a = Memory.read n a) : m = n := by
  have sub : ∀ {m n : Memory}, Memory.wf m → Memory.wf n → (∀ a, Memory.read m a = Memory.read n a) → ∀ c ∈ m, c ∈ n := by
    intro m n hm hn h c hc
    by_contra hcn
    have hr := h c.1
    rw [Memory.read_of_mem hm hc] at hr
    by_cases hex : ∃ d ∈ n, d.1 = c.1
    · obtain ⟨d, hd, hdc⟩ := hex
      have := Memory.read_of_mem hn hd
      rw [hdc, ← hr] at this
      exact hcn (by rwa [show c = d from Prod.ext hdc.symm this])
    · rw [Memory.read_of_forall_ne (fun d hd hdc => hex ⟨d, hd, hdc⟩)] at hr
      exact hm.2 c hc hr
  have hperm : m.Perm n := by
    have nd : ∀ {m : Memory}, Memory.wf m → m.Nodup := fun hm => hm.1.imp fun hlt he => by
      rw [he] at hlt
      exact Nat.lt_irrefl _ hlt
    exact (List.perm_ext_iff_of_nodup (nd hm) (nd hn)).2
      fun c => ⟨sub hm hn h c, sub hn hm (fun a => (h a).symm) c⟩
  exact hperm.eq_of_pairwise (fun c d _ _ h1 h2 => absurd (Nat.lt_trans h1 h2) (Nat.lt_irrefl _)) hm.1 hn.1

end Sys2Proof.Machine
end

