-- ==== Sys2Proof/Laws/Ram.lean ====
section
/-! SUPPORT. The RAM windows: which addresses hold RAM bytes, and reading words and 16-bit entries back. -/

namespace Sys2Proof.Machine

/-- The windows of two RAMs are disjoint (20_memory.md R101). -/
theorem ramIndex?_other {r q : Ram} {i j : Nat} (hi : i < ramEntries r) (hj : j < 4) (hq : q ≠ r) :
    ramIndex? q (ramAddr r i + j) = none := by
  have : ¬ (ramBase q ≤ ramAddr r i + j ∧ ramAddr r i + j < ramBase q + 4 * ramEntries q) := by
    cases q <;> cases r <;>
      simp only [ramEntries, Config.ibufWords, Config.obufWords, Config.resDepth, ramAddr, ramBase] at hi ⊢ <;>
      first | omega | exact absurd rfl hq
  simp [ramIndex?, this]

theorem ramIndex?_self {r : Ram} {i j : Nat} (hi : i < ramEntries r) (hj : j < 4) :
    ramIndex? r (ramAddr r i + j) = some i := by
  have h1 : ramBase r ≤ ramAddr r i + j ∧ ramAddr r i + j < ramBase r + 4 * ramEntries r := by
    unfold ramAddr
    omega
  have h2 : (ramAddr r i + j - ramBase r) / 4 = i := by
    unfold ramAddr
    omega
  simp only [ramIndex?, h1, and_self, if_true, h2]

/-- The entry and lane of an address in a RAM's window (20_memory.md R101). -/
theorem ramAt_ramAddr {r : Ram} {i j : Nat} (hi : i < ramEntries r) (hj : j < 4) : ramAt (ramAddr r i + j) = some (r, i) := by
  have self := ramIndex?_self hi hj
  have other := fun q hq => ramIndex?_other (q := q) hi hj hq
  cases r <;> simp [ramAt, allRams, self, other]

/-- The bytes of an entry that exist (10_state.md R34). -/
theorem isRamByte_ramAddr {r : Ram} {i j : Nat} (hi : i < ramEntries r) (hj : j < ramEntryBytes r) :
    isRamByte (ramAddr r i + j) = true := by
  have hj4 : j < 4 := Nat.lt_of_lt_of_le hj (by cases r <;> decide)
  have hmod : (ramAddr r i + j) % 4 = j := by
    cases r <;> simp only [ramAddr, ramBase] <;> omega
  simp [isRamByte, ramAt_ramAddr hi hj4, hmod, hj]

/-- A cell of a stored list of bytes stands for one of its nonzero bytes. -/
theorem Memory.exists_of_mem_cells {lo : Nat} {bytes : List Byte} {c : Host.Cell} (h : c ∈ Memory.cells lo bytes) :
    ∃ i, i < bytes.length ∧ c.1 = lo + i ∧ bytes.getD i Config.unwrittenByte ≠ Config.unwrittenByte := by
  have hm := Memory.mem_cells h
  refine ⟨c.1 - lo, by omega, by omega, ?_⟩
  rw [← Memory.read_cells lo bytes, show lo + (c.1 - lo) = c.1 by omega]
  have wf : Memory.wf (Memory.cells lo bytes) := ⟨Memory.cells_pairwise lo bytes, fun d hd => (Memory.mem_cells hd).2.2⟩
  rw [Memory.read_of_mem wf h]
  exact hm.2.2

/-- Every cell after a store was there before or stands for a stored nonzero byte. -/
theorem Memory.mem_store {m : Memory} {lo : Nat} {bytes : List Byte} {c : Host.Cell} (h : c ∈ Memory.store m lo bytes) :
    c ∈ m ∨ ∃ i, i < bytes.length ∧ c.1 = lo + i ∧ bytes.getD i Config.unwrittenByte ≠ Config.unwrittenByte := by
  rcases List.mem_append.1 h with h | h
  · rcases List.mem_append.1 h with h | h
    · exact .inl (List.mem_filter.1 h).1
    · exact .inr (Memory.exists_of_mem_cells h)
  · exact .inl (List.mem_filter.1 h).1

@[simp] theorem length_wordBytes (w : Word) : (wordBytes w).length = 4 := rfl

@[simp] theorem length_halfSlot (h : Half) : (halfSlot h).length = 4 := rfl

/-- Byte 4i + j of a list whose items take four bytes each. -/
theorem getD_flatMap_four {α : Type} {f : α → List Byte} (hf : ∀ x, (f x).length = 4) (xs : List α) {i j : Nat}
    (hi : i < xs.length) (hj : j < 4) (d : Byte) : (xs.flatMap f).getD (4 * i + j) d = (f xs[i]).getD j d := by
  induction xs generalizing i with
  | nil => simp at hi
  | cons x xs ih =>
    cases i with
    | zero =>
      rw [List.flatMap_cons, List.getD_append _ _ _ _ (by rw [hf]; omega)]
      simp
    | succ i =>
      rw [List.flatMap_cons, List.getD_append_right _ _ _ _ (by rw [hf]; omega), hf,
        show 4 * (i + 1) + j - 4 = 4 * i + j by omega, ih (by simpa using hi)]
      simp

theorem length_flatMap_four {α : Type} {f : α → List Byte} (hf : ∀ x, (f x).length = 4) (xs : List α) :
    (xs.flatMap f).length = 4 * xs.length := by
  induction xs with
  | nil => rfl
  | cons x xs ih => simp [List.flatMap_cons, hf, ih]; omega

/-- Reading one byte of stored items of four bytes each. -/
theorem Memory.read_store_four {α : Type} {f : α → List Byte} (hf : ∀ x, (f x).length = 4) (m : Memory) (a : Nat)
    (xs : List α) {i j : Nat} (hi : i < xs.length) (hj : j < 4) :
    Memory.read (Memory.store m a (xs.flatMap f)) (a + 4 * i + j) = (f xs[i]).getD j Config.unwrittenByte := by
  have hlen := length_flatMap_four hf xs
  rw [Memory.read_store, if_pos (by omega), show a + 4 * i + j - a = 4 * i + j by omega, getD_flatMap_four hf xs hi hj]

/-- A stored word reads back. -/
theorem Memory.word_storeWords (m : Memory) (a : Nat) (ws : List Word) {i : Nat} (hi : i < ws.length) :
    Memory.word (Memory.storeWords m a ws) (a + 4 * i) = ws[i] := by
  have r := fun j (hj : j < 4) => Memory.read_store_four length_wordBytes m a ws hi hj
  have r0 := r 0 (by omega)
  rw [Nat.add_zero] at r0
  unfold Memory.word Memory.storeWords
  rw [r0, r 1 (by omega), r 2 (by omega), r 3 (by omega)]
  simp only [wordBytes, List.getD_cons_zero, List.getD_cons_succ]
  ext k hk
  simp only [BitVec.getElem_append, BitVec.getElem_extractLsb']
  split <;> [skip; split <;> [skip; split]] <;> (rw [← BitVec.getLsbD_eq_getElem hk]; congr 1; omega)

/-- A stored 16-bit entry reads back. -/
theorem Memory.half_storeHalves (m : Memory) (a : Nat) (hs : List Half) {i : Nat} (hi : i < hs.length) :
    Memory.half (Memory.storeHalves m a hs) (a + 4 * i) = hs[i] := by
  have r := fun j (hj : j < 4) => Memory.read_store_four length_halfSlot m a hs hi hj
  have r0 := r 0 (by omega)
  rw [Nat.add_zero] at r0
  unfold Memory.half Memory.storeHalves
  rw [r0, r 1 (by omega)]
  simp only [halfSlot, List.getD_cons_zero, List.getD_cons_succ]
  ext k hk
  simp only [BitVec.getElem_append, BitVec.getElem_extractLsb']
  split <;> (rw [← BitVec.getLsbD_eq_getElem hk]; congr 1; omega)

/-- Outside the stored words every byte reads as before. -/
theorem Memory.read_storeWords_outside {m : Memory} {a b : Nat} {ws : List Word} (h : b < a ∨ a + 4 * ws.length ≤ b) :
    Memory.read (Memory.storeWords m a ws) b = Memory.read m b := by
  rw [Memory.storeWords, Memory.read_store, length_flatMap_four length_wordBytes, if_neg (by omega)]

/-- Outside the stored entries every byte reads as before. -/
theorem Memory.read_storeHalves_outside {m : Memory} {a b : Nat} {hs : List Half} (h : b < a ∨ a + 4 * hs.length ≤ b) :
    Memory.read (Memory.storeHalves m a hs) b = Memory.read m b := by
  rw [Memory.storeHalves, Memory.read_store, length_flatMap_four length_halfSlot, if_neg (by omega)]

/-- A cell that a store of words adds lies in their range. -/
theorem Memory.mem_storeWords {m : Memory} {a : Nat} {ws : List Word} {c : Host.Cell}
    (h : c ∈ Memory.storeWords m a ws) : c ∈ m ∨ ∃ i j, i < ws.length ∧ j < 4 ∧ c.1 = a + 4 * i + j := by
  rcases Memory.mem_store h with h | ⟨k, hk, hc, _⟩
  · exact .inl h
  · rw [length_flatMap_four length_wordBytes] at hk
    exact .inr ⟨k / 4, k % 4, by omega, by omega, by omega⟩

/-- A cell that a store of 16-bit entries adds is one of their two bytes. -/
theorem Memory.mem_storeHalves {m : Memory} {a : Nat} {hs : List Half} {c : Host.Cell}
    (h : c ∈ Memory.storeHalves m a hs) : c ∈ m ∨ ∃ i j, i < hs.length ∧ j < 2 ∧ c.1 = a + 4 * i + j := by
  rcases Memory.mem_store h with h | ⟨k, hk, hc, hne⟩
  · exact .inl h
  · rw [length_flatMap_four length_halfSlot] at hk
    refine .inr ⟨k / 4, k % 4, by omega, ?_, by omega⟩
    by_contra hj
    apply hne
    rw [show k = 4 * (k / 4) + k % 4 by omega, getD_flatMap_four length_halfSlot _ (by omega) (by omega)]
    have hk4 : k % 4 = 2 ∨ k % 4 = 3 := by omega
    rcases hk4 with hk4 | hk4 <;> rw [hk4] <;> rfl

@[simp] theorem Memory.length_words (m : Memory) (a n : Nat) : (Memory.words m a n).length = n := by simp [Memory.words]

@[simp] theorem Memory.length_halves (m : Memory) (a n : Nat) : (Memory.halves m a n).length = n := by
  simp [Memory.halves]

@[simp] theorem Memory.getElem_words (m : Memory) (a n i : Nat) (h : i < (Memory.words m a n).length) :
    (Memory.words m a n)[i] = Memory.word m (a + 4 * i) := by simp [Memory.words]

@[simp] theorem Memory.getElem_halves (m : Memory) (a n i : Nat) (h : i < (Memory.halves m a n).length) :
    (Memory.halves m a n)[i] = Memory.half m (a + 4 * i) := by simp [Memory.halves]


end Sys2Proof.Machine
end

