-- ==== Sys2Proof/Laws/Buffers.lean ====
section
/-! SUPPORT. The shared operations on whole buffers: the frame permutation, the word swap, and what keeps memory in its canonical
form inside the RAMs. -/

namespace Sys2Proof.Machine

@[simp] theorem length_reorderFrame (xs : List Half) : (reorderFrame xs).length = 128 := by
  unfold reorderFrame
  rw [List.length_map, List.length_range]

@[simp] theorem length_disorderFrame (xs : List Half) : (disorderFrame xs).length = 128 := by
  unfold disorderFrame
  rw [List.length_map, List.length_range]

theorem getElem_reorderFrame (xs : List Half) {s : Nat} (h : s < (reorderFrame xs).length) :
    (reorderFrame xs)[s] = xs.getD (muxOfStrip s) 0 := by
  simp only [reorderFrame, List.getElem_map, List.getElem_range]

theorem getElem_disorderFrame (xs : List Half) {i : Nat} (h : i < (disorderFrame xs).length) :
    (disorderFrame xs)[i] = xs.getD (stripOfMux i) 0 := by
  simp only [disorderFrame, List.getElem_map, List.getElem_range]

@[simp] theorem length_swapPairs : ∀ ws : List Word, (swapPairs ws).length = ws.length
  | [] => rfl
  | [_] => rfl
  | _ :: _ :: ws => by simp [swapPairs, length_swapPairs ws]

/-- Word i after the swap: its partner's where both lie below the length, else its own (44_encoder.md R371). -/
theorem getElem?_swapPairs : ∀ (ws : List Word) (i : Nat),
    (swapPairs ws)[i]? = ws[if i < ws.length / 2 * 2 then (if i % 2 = 0 then i + 1 else i - 1) else i]?
  | [], i => by simp [swapPairs]
  | [a], i => by simp [swapPairs]
  | a :: b :: ws, 0 => by simp [swapPairs, show 0 < (ws.length + 1 + 1) / 2 by omega]
  | a :: b :: ws, 1 => by simp [swapPairs, show 1 < (ws.length + 1 + 1) / 2 * 2 by omega]
  | a :: b :: ws, i + 2 => by
    have ih := getElem?_swapPairs ws i
    have hlen : (a :: b :: ws).length / 2 * 2 = ws.length / 2 * 2 + 2 := by simp only [List.length_cons]; omega
    simp only [swapPairs, List.getElem?_cons_succ, ih, hlen]
    have hidx : (if i + 2 < ws.length / 2 * 2 + 2 then (if (i + 2) % 2 = 0 then i + 2 + 1 else i + 2 - 1) else i + 2) =
        (if i < ws.length / 2 * 2 then (if i % 2 = 0 then i + 1 else i - 1) else i) + 2 := by
      repeat' split
      all_goals omega
    rw [hidx, List.getElem?_cons_succ, List.getElem?_cons_succ]

theorem swapPairs_swapPairs : ∀ ws : List Word, swapPairs (swapPairs ws) = ws
  | [] => rfl
  | [_] => rfl
  | a :: b :: ws => by simp [swapPairs, swapPairs_swapPairs ws]

theorem ramBase_eq (r : Ram) : ramBase r = ramAddr r 0 := by simp [ramAddr]

/-- The entry that the address decoder finds exists (20_memory.md R101). -/
theorem ramAt_some {a : Nat} {r : Ram} {i : Nat} (h : ramAt a = some (r, i)) : i < ramEntries r := by
  obtain ⟨q, -, hq⟩ := List.exists_of_findSome?_eq_some h
  simp only [ramIndex?, Option.map_eq_some_iff] at hq
  obtain ⟨j, hj, he⟩ := hq
  cases he
  split at hj
  · cases hj
    omega
  · cases hj

/-- Words stored inside a 32-bit RAM keep memory well-formed. -/
theorem MemoryOk.storeWords {m : Memory} (h : MemoryOk m) {r : Ram} {i : Nat} {ws : List Word} (hr : ramEntryBytes r = 4)
    (hl : i + ws.length ≤ ramEntries r) : MemoryOk (Memory.storeWords m (ramAddr r i) ws) := by
  refine ⟨Memory.wf_storeWords h.canonical _ _, fun c hc => ?_⟩
  rcases Memory.mem_storeWords hc with hc | ⟨k, j, hk, hj, e⟩
  · exact h.exist c hc
  · rw [e, show ramAddr r i + 4 * k + j = ramAddr r (i + k) + j by simp [ramAddr]; omega]
    exact isRamByte_ramAddr (by omega) (by omega)

/-- 16-bit entries stored inside a RAM keep memory well-formed. -/
theorem MemoryOk.storeHalves {m : Memory} (h : MemoryOk m) {r : Ram} {i : Nat} {hs : List Half}
    (hl : i + hs.length ≤ ramEntries r) : MemoryOk (Memory.storeHalves m (ramAddr r i) hs) := by
  refine ⟨Memory.wf_storeHalves h.canonical _ _, fun c hc => ?_⟩
  rcases Memory.mem_storeHalves hc with hc | ⟨k, j, hk, hj, e⟩
  · exact h.exist c hc
  · rw [e, show ramAddr r i + 4 * k + j = ramAddr r (i + k) + j by simp [ramAddr]; omega]
    have h2 : 2 ≤ ramEntryBytes r := by cases r <;> decide
    exact isRamByte_ramAddr (by omega) (by omega)

/-- Logical bytes of IBUF depend on IBUF's addresses only (20_memory.md R104). -/
theorem logicalByte_congr {m n : Memory} (h : ∀ a, inRam .ibuf a → Memory.read m a = Memory.read n a) (q : Nat) :
    logicalByte m q = logicalByte n q := by
  unfold logicalByte
  split
  · rename_i hq
    simp only [ibufBytes, Config.ibufWords] at hq
    have : q ^^^ 3 < 2 ^ 16 := Nat.xor_lt_two_pow (by omega) (by omega)
    refine h _ ⟨Nat.le_add_right _ _, ?_⟩
    simp only [ramBase, ramEntries, Config.ibufWords]
    omega
  · rfl

end Sys2Proof.Machine
end

