-- ==== Sys2Proof/Laws/State.lean ====
section
/-! SUPPORT. One lemma per field per update of the state: what each shared operation leaves in each field. -/

namespace Sys2Proof.Machine

variable (s : State)

@[simp] theorem complete_mem : (complete s).mem = s.mem := rfl
@[simp] theorem complete_pend : (complete s).pend = none := rfl
@[simp] theorem complete_flags : (complete s).flags = { s.flags with done := true, err := false } := rfl
@[simp] theorem complete_irq : (complete s).irq = { s.irq with doneP := true } := rfl
@[simp] theorem complete_errs : (complete s).errs = noError := rfl
@[simp] theorem complete_decCfg : (complete s).decCfg = s.decCfg := rfl
@[simp] theorem complete_decLen : (complete s).decLen = s.decLen := rfl
@[simp] theorem complete_hdr : (complete s).hdr = s.hdr := rfl
@[simp] theorem complete_crcComputed : (complete s).crcComputed = s.crcComputed := rfl
@[simp] theorem complete_chan : (complete s).chan = s.chan := rfl
@[simp] theorem complete_res : (complete s).res = s.res := rfl
@[simp] theorem complete_stat : (complete s).stat = s.stat := rfl
@[simp] theorem complete_enc : (complete s).enc = s.enc := rfl
@[simp] theorem complete_cur : (complete s).cur = s.cur := rfl
@[simp] theorem complete_crc : (complete s).crc = s.crc := rfl
@[simp] theorem complete_ev : (complete s).ev = s.ev := rfl
@[simp] theorem complete_inbox : (complete s).inbox = s.inbox := rfl
@[simp] theorem complete_outbox : (complete s).outbox = s.outbox := rfl
@[simp] theorem complete_draws : (complete s).draws = s.draws := rfl

@[simp] theorem raiseError_mem (e : CommandError) : (raiseError e s).mem = s.mem := rfl
@[simp] theorem raiseError_pend (e : CommandError) : (raiseError e s).pend = none := rfl
@[simp] theorem raiseError_flags (e : CommandError) :
    (raiseError e s).flags =
      { s.flags with done := true, err := true } := rfl
@[simp] theorem raiseError_irq (e : CommandError) :
    (raiseError e s).irq =
      { s.irq with doneP := true, errP := true } := rfl
@[simp] theorem raiseError_errs (e : CommandError) : (raiseError e s).errs = errorRegs e := rfl
@[simp] theorem raiseError_decCfg (e : CommandError) : (raiseError e s).decCfg = s.decCfg := rfl
@[simp] theorem raiseError_decLen (e : CommandError) : (raiseError e s).decLen = s.decLen := rfl
@[simp] theorem raiseError_hdr (e : CommandError) : (raiseError e s).hdr = s.hdr := rfl
@[simp] theorem raiseError_crcComputed (e : CommandError) : (raiseError e s).crcComputed = s.crcComputed := rfl
@[simp] theorem raiseError_chan (e : CommandError) : (raiseError e s).chan = s.chan := rfl
@[simp] theorem raiseError_res (e : CommandError) : (raiseError e s).res = s.res := rfl
@[simp] theorem raiseError_stat (e : CommandError) : (raiseError e s).stat = s.stat := rfl
@[simp] theorem raiseError_enc (e : CommandError) : (raiseError e s).enc = s.enc := rfl
@[simp] theorem raiseError_cur (e : CommandError) : (raiseError e s).cur = s.cur := rfl
@[simp] theorem raiseError_crc (e : CommandError) : (raiseError e s).crc = s.crc := rfl
@[simp] theorem raiseError_ev (e : CommandError) : (raiseError e s).ev = s.ev := rfl
@[simp] theorem raiseError_inbox (e : CommandError) : (raiseError e s).inbox = s.inbox := rfl
@[simp] theorem raiseError_outbox (e : CommandError) : (raiseError e s).outbox = s.outbox := rfl
@[simp] theorem raiseError_draws (e : CommandError) : (raiseError e s).draws = s.draws := rfl

@[simp] theorem invalidate_mem : (invalidate s).mem = s.mem := rfl
@[simp] theorem invalidate_pend : (invalidate s).pend = s.pend := rfl
@[simp] theorem invalidate_flags :
    (invalidate s).flags =
      { s.flags with lenMismatch := false, crcMismatch := false, crcChecked := false } := rfl
@[simp] theorem invalidate_irq : (invalidate s).irq = s.irq := rfl
@[simp] theorem invalidate_errs : (invalidate s).errs = s.errs := rfl
@[simp] theorem invalidate_decCfg : (invalidate s).decCfg = s.decCfg := rfl
@[simp] theorem invalidate_decLen : (invalidate s).decLen = s.decLen := rfl
@[simp] theorem invalidate_hdr : (invalidate s).hdr = s.hdr := rfl
@[simp] theorem invalidate_crcComputed : (invalidate s).crcComputed = s.crcComputed := rfl
@[simp] theorem invalidate_chan : (invalidate s).chan = s.chan := rfl
@[simp] theorem invalidate_res : (invalidate s).res = s.res := rfl
@[simp] theorem invalidate_stat : (invalidate s).stat = s.stat := rfl
@[simp] theorem invalidate_enc : (invalidate s).enc = s.enc := rfl
@[simp] theorem invalidate_cur : (invalidate s).cur = s.cur := rfl
@[simp] theorem invalidate_crc : (invalidate s).crc = s.crc := rfl
@[simp] theorem invalidate_ev : (invalidate s).ev = none := rfl
@[simp] theorem invalidate_inbox : (invalidate s).inbox = s.inbox := rfl
@[simp] theorem invalidate_outbox : (invalidate s).outbox = s.outbox := rfl
@[simp] theorem invalidate_draws : (invalidate s).draws = s.draws := rfl

@[simp] theorem latchCommand_mem (w : Word) : (latchCommand w s).mem = s.mem := rfl
@[simp] theorem latchCommand_pend (w : Word) :
    (latchCommand w s).pend =
      some { op := commandOp w, arg := commandArg w } := rfl
@[simp] theorem latchCommand_flags (w : Word) : (latchCommand w s).flags = { s.flags with done := false } := rfl
@[simp] theorem latchCommand_irq (w : Word) : (latchCommand w s).irq = s.irq := rfl
@[simp] theorem latchCommand_errs (w : Word) : (latchCommand w s).errs = s.errs := rfl
@[simp] theorem latchCommand_decCfg (w : Word) : (latchCommand w s).decCfg = s.decCfg := rfl
@[simp] theorem latchCommand_decLen (w : Word) : (latchCommand w s).decLen = s.decLen := rfl
@[simp] theorem latchCommand_hdr (w : Word) : (latchCommand w s).hdr = s.hdr := rfl
@[simp] theorem latchCommand_crcComputed (w : Word) : (latchCommand w s).crcComputed = s.crcComputed := rfl
@[simp] theorem latchCommand_chan (w : Word) : (latchCommand w s).chan = s.chan := rfl
@[simp] theorem latchCommand_res (w : Word) : (latchCommand w s).res = s.res := rfl
@[simp] theorem latchCommand_stat (w : Word) : (latchCommand w s).stat = s.stat := rfl
@[simp] theorem latchCommand_enc (w : Word) : (latchCommand w s).enc = s.enc := rfl
@[simp] theorem latchCommand_cur (w : Word) : (latchCommand w s).cur = s.cur := rfl
@[simp] theorem latchCommand_crc (w : Word) : (latchCommand w s).crc = s.crc := rfl
@[simp] theorem latchCommand_ev (w : Word) : (latchCommand w s).ev = s.ev := rfl
@[simp] theorem latchCommand_inbox (w : Word) : (latchCommand w s).inbox = s.inbox := rfl
@[simp] theorem latchCommand_outbox (w : Word) : (latchCommand w s).outbox = s.outbox := rfl
@[simp] theorem latchCommand_draws (w : Word) : (latchCommand w s).draws = s.draws := rfl

@[simp] theorem resetBlock_mem : (resetBlock s).mem = ramDraw s.draws := rfl
@[simp] theorem resetBlock_pend : (resetBlock s).pend = none := rfl
@[simp] theorem resetBlock_flags : (resetBlock s).flags = State.reset.flags := rfl
@[simp] theorem resetBlock_irq : (resetBlock s).irq = State.reset.irq := rfl
@[simp] theorem resetBlock_errs : (resetBlock s).errs = State.reset.errs := rfl
@[simp] theorem resetBlock_decCfg : (resetBlock s).decCfg = 0x0000FF00 := rfl
@[simp] theorem resetBlock_decLen : (resetBlock s).decLen = 0 := rfl
@[simp] theorem resetBlock_hdr : (resetBlock s).hdr = HeaderRegs.zero := rfl
@[simp] theorem resetBlock_crcComputed : (resetBlock s).crcComputed = 0 := rfl
@[simp] theorem resetBlock_chan : (resetBlock s).chan = State.reset.chan := rfl
@[simp] theorem resetBlock_res : (resetBlock s).res = State.reset.res := rfl
@[simp] theorem resetBlock_stat : (resetBlock s).stat = State.reset.stat := rfl
@[simp] theorem resetBlock_enc : (resetBlock s).enc = State.reset.enc := rfl
@[simp] theorem resetBlock_cur : (resetBlock s).cur = State.reset.cur := rfl
@[simp] theorem resetBlock_crc : (resetBlock s).crc = State.reset.crc := rfl
@[simp] theorem resetBlock_ev : (resetBlock s).ev = none := rfl
@[simp] theorem resetBlock_inbox : (resetBlock s).inbox = s.inbox := rfl
@[simp] theorem resetBlock_outbox : (resetBlock s).outbox = s.outbox := rfl
@[simp] theorem resetBlock_draws : (resetBlock s).draws = s.draws + 1 := rfl

@[simp] theorem permuteFrame_mem (f : List Half → List Half) :
    (permuteFrame f s).mem =
      Memory.storeHalves s.mem (ramBase .fout) (f (Memory.halves s.mem (ramBase .fin) 128)) := rfl
@[simp] theorem permuteFrame_pend (f : List Half → List Half) : (permuteFrame f s).pend = s.pend := rfl
@[simp] theorem permuteFrame_flags (f : List Half → List Half) : (permuteFrame f s).flags = s.flags := rfl
@[simp] theorem permuteFrame_irq (f : List Half → List Half) : (permuteFrame f s).irq = s.irq := rfl
@[simp] theorem permuteFrame_errs (f : List Half → List Half) : (permuteFrame f s).errs = s.errs := rfl
@[simp] theorem permuteFrame_decCfg (f : List Half → List Half) : (permuteFrame f s).decCfg = s.decCfg := rfl
@[simp] theorem permuteFrame_decLen (f : List Half → List Half) : (permuteFrame f s).decLen = s.decLen := rfl
@[simp] theorem permuteFrame_hdr (f : List Half → List Half) : (permuteFrame f s).hdr = s.hdr := rfl
@[simp] theorem permuteFrame_crcComputed (f : List Half → List Half) :
    (permuteFrame f s).crcComputed =
      s.crcComputed := rfl
@[simp] theorem permuteFrame_chan (f : List Half → List Half) : (permuteFrame f s).chan = s.chan := rfl
@[simp] theorem permuteFrame_res (f : List Half → List Half) : (permuteFrame f s).res = s.res := rfl
@[simp] theorem permuteFrame_stat (f : List Half → List Half) : (permuteFrame f s).stat = s.stat := rfl
@[simp] theorem permuteFrame_enc (f : List Half → List Half) : (permuteFrame f s).enc = s.enc := rfl
@[simp] theorem permuteFrame_cur (f : List Half → List Half) : (permuteFrame f s).cur = s.cur := rfl
@[simp] theorem permuteFrame_crc (f : List Half → List Half) : (permuteFrame f s).crc = s.crc := rfl
@[simp] theorem permuteFrame_ev (f : List Half → List Half) : (permuteFrame f s).ev = s.ev := rfl
@[simp] theorem permuteFrame_inbox (f : List Half → List Half) : (permuteFrame f s).inbox = s.inbox := rfl
@[simp] theorem permuteFrame_outbox (f : List Half → List Half) : (permuteFrame f s).outbox = s.outbox := rfl
@[simp] theorem permuteFrame_draws (f : List Half → List Half) : (permuteFrame f s).draws = s.draws := rfl

@[simp] theorem commitParse_mem (p : Parsed) : (commitParse p s).mem = s.mem := rfl
@[simp] theorem commitParse_pend (p : Parsed) : (commitParse p s).pend = s.pend := rfl
@[simp] theorem commitParse_flags (p : Parsed) : (commitParse p s).flags = s.flags := rfl
@[simp] theorem commitParse_irq (p : Parsed) : (commitParse p s).irq = s.irq := rfl
@[simp] theorem commitParse_errs (p : Parsed) : (commitParse p s).errs = s.errs := rfl
@[simp] theorem commitParse_decCfg (p : Parsed) : (commitParse p s).decCfg = s.decCfg := rfl
@[simp] theorem commitParse_decLen (p : Parsed) : (commitParse p s).decLen = s.decLen := rfl
@[simp] theorem commitParse_hdr (p : Parsed) : (commitParse p s).hdr = p.hdr := rfl
@[simp] theorem commitParse_crcComputed (p : Parsed) : (commitParse p s).crcComputed = 0 := rfl
@[simp] theorem commitParse_chan (p : Parsed) : (commitParse p s).chan = { sel := 0, info := 0, offset := 0 } := rfl
@[simp] theorem commitParse_res (p : Parsed) :
    (commitParse p s).res =
      { kind := 0, count := 0, cm := 0, nclus := 0 } := rfl
@[simp] theorem commitParse_stat (p : Parsed) :
    (commitParse p s).stat =
      { bad0 := 0, bad1 := 0, bad2 := 0, count := 0 } := rfl
@[simp] theorem commitParse_enc (p : Parsed) : (commitParse p s).enc = s.enc := rfl
@[simp] theorem commitParse_cur (p : Parsed) : (commitParse p s).cur = s.cur := rfl
@[simp] theorem commitParse_crc (p : Parsed) : (commitParse p s).crc = s.crc := rfl
@[simp] theorem commitParse_ev (p : Parsed) : (commitParse p s).ev = some p.ev := rfl
@[simp] theorem commitParse_inbox (p : Parsed) : (commitParse p s).inbox = s.inbox := rfl
@[simp] theorem commitParse_outbox (p : Parsed) : (commitParse p s).outbox = s.outbox := rfl
@[simp] theorem commitParse_draws (p : Parsed) : (commitParse p s).draws = s.draws := rfl

@[simp] theorem clearResults_mem : (clearResults s).mem = s.mem := rfl
@[simp] theorem clearResults_pend : (clearResults s).pend = s.pend := rfl
@[simp] theorem clearResults_flags : (clearResults s).flags = s.flags := rfl
@[simp] theorem clearResults_irq : (clearResults s).irq = s.irq := rfl
@[simp] theorem clearResults_errs : (clearResults s).errs = s.errs := rfl
@[simp] theorem clearResults_decCfg : (clearResults s).decCfg = s.decCfg := rfl
@[simp] theorem clearResults_decLen : (clearResults s).decLen = s.decLen := rfl
@[simp] theorem clearResults_hdr : (clearResults s).hdr = s.hdr := rfl
@[simp] theorem clearResults_crcComputed : (clearResults s).crcComputed = s.crcComputed := rfl
@[simp] theorem clearResults_chan : (clearResults s).chan = s.chan := rfl
@[simp] theorem clearResults_res : (clearResults s).res = { kind := 0, count := 0, cm := 0, nclus := 0 } := rfl
@[simp] theorem clearResults_stat : (clearResults s).stat = s.stat := rfl
@[simp] theorem clearResults_enc : (clearResults s).enc = s.enc := rfl
@[simp] theorem clearResults_cur : (clearResults s).cur = s.cur := rfl
@[simp] theorem clearResults_crc : (clearResults s).crc = s.crc := rfl
@[simp] theorem clearResults_ev : (clearResults s).ev = s.ev := rfl
@[simp] theorem clearResults_inbox : (clearResults s).inbox = s.inbox := rfl
@[simp] theorem clearResults_outbox : (clearResults s).outbox = s.outbox := rfl
@[simp] theorem clearResults_draws : (clearResults s).draws = s.draws := rfl

@[simp] theorem commitBuild_mem (b : BuiltEvent) :
    (commitBuild b s).mem =
      Memory.storeWords s.mem (ramBase .obuf) (b.words ++ List.replicate (Config.obufWords - b.words.length) 0) := rfl
@[simp] theorem commitBuild_pend (b : BuiltEvent) : (commitBuild b s).pend = s.pend := rfl
@[simp] theorem commitBuild_flags (b : BuiltEvent) :
    (commitBuild b s).flags =
      { s.flags with encValid := true } := rfl
@[simp] theorem commitBuild_irq (b : BuiltEvent) : (commitBuild b s).irq = s.irq := rfl
@[simp] theorem commitBuild_errs (b : BuiltEvent) : (commitBuild b s).errs = s.errs := rfl
@[simp] theorem commitBuild_decCfg (b : BuiltEvent) : (commitBuild b s).decCfg = s.decCfg := rfl
@[simp] theorem commitBuild_decLen (b : BuiltEvent) : (commitBuild b s).decLen = s.decLen := rfl
@[simp] theorem commitBuild_hdr (b : BuiltEvent) : (commitBuild b s).hdr = s.hdr := rfl
@[simp] theorem commitBuild_crcComputed (b : BuiltEvent) : (commitBuild b s).crcComputed = s.crcComputed := rfl
@[simp] theorem commitBuild_chan (b : BuiltEvent) : (commitBuild b s).chan = s.chan := rfl
@[simp] theorem commitBuild_res (b : BuiltEvent) : (commitBuild b s).res = s.res := rfl
@[simp] theorem commitBuild_stat (b : BuiltEvent) : (commitBuild b s).stat = s.stat := rfl
@[simp] theorem commitBuild_enc (b : BuiltEvent) :
    (commitBuild b s).enc =
      { s.enc with len := BitVec.ofNat 32 (b.length / 4), crc := b.crc } := rfl
@[simp] theorem commitBuild_cur (b : BuiltEvent) : (commitBuild b s).cur = s.cur := rfl
@[simp] theorem commitBuild_crc (b : BuiltEvent) : (commitBuild b s).crc = s.crc := rfl
@[simp] theorem commitBuild_ev (b : BuiltEvent) : (commitBuild b s).ev = s.ev := rfl
@[simp] theorem commitBuild_inbox (b : BuiltEvent) : (commitBuild b s).inbox = s.inbox := rfl
@[simp] theorem commitBuild_outbox (b : BuiltEvent) : (commitBuild b s).outbox = s.outbox := rfl
@[simp] theorem commitBuild_draws (b : BuiltEvent) : (commitBuild b s).draws = s.draws := rfl

@[simp] theorem clearEncoder_mem : (clearEncoder s).mem = s.mem := rfl
@[simp] theorem clearEncoder_pend : (clearEncoder s).pend = s.pend := rfl
@[simp] theorem clearEncoder_flags : (clearEncoder s).flags = { s.flags with encValid := false } := rfl
@[simp] theorem clearEncoder_irq : (clearEncoder s).irq = s.irq := rfl
@[simp] theorem clearEncoder_errs : (clearEncoder s).errs = s.errs := rfl
@[simp] theorem clearEncoder_decCfg : (clearEncoder s).decCfg = s.decCfg := rfl
@[simp] theorem clearEncoder_decLen : (clearEncoder s).decLen = s.decLen := rfl
@[simp] theorem clearEncoder_hdr : (clearEncoder s).hdr = s.hdr := rfl
@[simp] theorem clearEncoder_crcComputed : (clearEncoder s).crcComputed = s.crcComputed := rfl
@[simp] theorem clearEncoder_chan : (clearEncoder s).chan = s.chan := rfl
@[simp] theorem clearEncoder_res : (clearEncoder s).res = s.res := rfl
@[simp] theorem clearEncoder_stat : (clearEncoder s).stat = s.stat := rfl
@[simp] theorem clearEncoder_enc : (clearEncoder s).enc = { s.enc with len := 0, crc := 0 } := rfl
@[simp] theorem clearEncoder_cur : (clearEncoder s).cur = s.cur := rfl
@[simp] theorem clearEncoder_crc : (clearEncoder s).crc = s.crc := rfl
@[simp] theorem clearEncoder_ev : (clearEncoder s).ev = s.ev := rfl
@[simp] theorem clearEncoder_inbox : (clearEncoder s).inbox = s.inbox := rfl
@[simp] theorem clearEncoder_outbox : (clearEncoder s).outbox = s.outbox := rfl
@[simp] theorem clearEncoder_draws : (clearEncoder s).draws = s.draws := rfl

@[simp] theorem writeHalfEntry_mem (v : Word) (r : Ram) (i : Nat) :
    (writeHalfEntry v r i s).mem =
      Memory.storeHalves s.mem (ramAddr r i) [v.extractLsb' 0 16] := rfl
@[simp] theorem writeHalfEntry_pend (v : Word) (r : Ram) (i : Nat) : (writeHalfEntry v r i s).pend = s.pend := rfl
@[simp] theorem writeHalfEntry_flags (v : Word) (r : Ram) (i : Nat) : (writeHalfEntry v r i s).flags = s.flags := rfl
@[simp] theorem writeHalfEntry_irq (v : Word) (r : Ram) (i : Nat) : (writeHalfEntry v r i s).irq = s.irq := rfl
@[simp] theorem writeHalfEntry_errs (v : Word) (r : Ram) (i : Nat) : (writeHalfEntry v r i s).errs = s.errs := rfl
@[simp] theorem writeHalfEntry_decCfg (v : Word) (r : Ram) (i : Nat) :
    (writeHalfEntry v r i s).decCfg =
      s.decCfg := rfl
@[simp] theorem writeHalfEntry_decLen (v : Word) (r : Ram) (i : Nat) :
    (writeHalfEntry v r i s).decLen =
      s.decLen := rfl
@[simp] theorem writeHalfEntry_hdr (v : Word) (r : Ram) (i : Nat) : (writeHalfEntry v r i s).hdr = s.hdr := rfl
@[simp] theorem writeHalfEntry_crcComputed (v : Word) (r : Ram) (i : Nat) :
    (writeHalfEntry v r i s).crcComputed =
      s.crcComputed := rfl
@[simp] theorem writeHalfEntry_chan (v : Word) (r : Ram) (i : Nat) : (writeHalfEntry v r i s).chan = s.chan := rfl
@[simp] theorem writeHalfEntry_res (v : Word) (r : Ram) (i : Nat) : (writeHalfEntry v r i s).res = s.res := rfl
@[simp] theorem writeHalfEntry_stat (v : Word) (r : Ram) (i : Nat) : (writeHalfEntry v r i s).stat = s.stat := rfl
@[simp] theorem writeHalfEntry_enc (v : Word) (r : Ram) (i : Nat) : (writeHalfEntry v r i s).enc = s.enc := rfl
@[simp] theorem writeHalfEntry_cur (v : Word) (r : Ram) (i : Nat) : (writeHalfEntry v r i s).cur = s.cur := rfl
@[simp] theorem writeHalfEntry_crc (v : Word) (r : Ram) (i : Nat) : (writeHalfEntry v r i s).crc = s.crc := rfl
@[simp] theorem writeHalfEntry_ev (v : Word) (r : Ram) (i : Nat) : (writeHalfEntry v r i s).ev = s.ev := rfl
@[simp] theorem writeHalfEntry_inbox (v : Word) (r : Ram) (i : Nat) : (writeHalfEntry v r i s).inbox = s.inbox := rfl
@[simp] theorem writeHalfEntry_outbox (v : Word) (r : Ram) (i : Nat) :
    (writeHalfEntry v r i s).outbox =
      s.outbox := rfl
@[simp] theorem writeHalfEntry_draws (v : Word) (r : Ram) (i : Nat) : (writeHalfEntry v r i s).draws = s.draws := rfl

@[simp] theorem respond_mem (v : Word) : (respond v s).mem = s.mem := rfl
@[simp] theorem respond_pend (v : Word) : (respond v s).pend = s.pend := rfl
@[simp] theorem respond_flags (v : Word) : (respond v s).flags = s.flags := rfl
@[simp] theorem respond_irq (v : Word) : (respond v s).irq = s.irq := rfl
@[simp] theorem respond_errs (v : Word) : (respond v s).errs = s.errs := rfl
@[simp] theorem respond_decCfg (v : Word) : (respond v s).decCfg = s.decCfg := rfl
@[simp] theorem respond_decLen (v : Word) : (respond v s).decLen = s.decLen := rfl
@[simp] theorem respond_hdr (v : Word) : (respond v s).hdr = s.hdr := rfl
@[simp] theorem respond_crcComputed (v : Word) : (respond v s).crcComputed = s.crcComputed := rfl
@[simp] theorem respond_chan (v : Word) : (respond v s).chan = s.chan := rfl
@[simp] theorem respond_res (v : Word) : (respond v s).res = s.res := rfl
@[simp] theorem respond_stat (v : Word) : (respond v s).stat = s.stat := rfl
@[simp] theorem respond_enc (v : Word) : (respond v s).enc = s.enc := rfl
@[simp] theorem respond_cur (v : Word) : (respond v s).cur = s.cur := rfl
@[simp] theorem respond_crc (v : Word) : (respond v s).crc = s.crc := rfl
@[simp] theorem respond_ev (v : Word) : (respond v s).ev = s.ev := rfl
@[simp] theorem respond_inbox (v : Word) : (respond v s).inbox = s.inbox := rfl
@[simp] theorem respond_outbox (v : Word) : (respond v s).outbox = s.outbox ++ [v] := rfl
@[simp] theorem respond_draws (v : Word) : (respond v s).draws = s.draws := rfl

@[simp] theorem refuseRead_mem : (refuseRead s).mem = s.mem := rfl
@[simp] theorem refuseRead_pend : (refuseRead s).pend = s.pend := rfl
@[simp] theorem refuseRead_flags : (refuseRead s).flags = { s.flags with busyAccess := true } := rfl
@[simp] theorem refuseRead_irq : (refuseRead s).irq = s.irq := rfl
@[simp] theorem refuseRead_errs : (refuseRead s).errs = s.errs := rfl
@[simp] theorem refuseRead_decCfg : (refuseRead s).decCfg = s.decCfg := rfl
@[simp] theorem refuseRead_decLen : (refuseRead s).decLen = s.decLen := rfl
@[simp] theorem refuseRead_hdr : (refuseRead s).hdr = s.hdr := rfl
@[simp] theorem refuseRead_crcComputed : (refuseRead s).crcComputed = s.crcComputed := rfl
@[simp] theorem refuseRead_chan : (refuseRead s).chan = s.chan := rfl
@[simp] theorem refuseRead_res : (refuseRead s).res = s.res := rfl
@[simp] theorem refuseRead_stat : (refuseRead s).stat = s.stat := rfl
@[simp] theorem refuseRead_enc : (refuseRead s).enc = s.enc := rfl
@[simp] theorem refuseRead_cur : (refuseRead s).cur = s.cur := rfl
@[simp] theorem refuseRead_crc : (refuseRead s).crc = s.crc := rfl
@[simp] theorem refuseRead_ev : (refuseRead s).ev = s.ev := rfl
@[simp] theorem refuseRead_inbox : (refuseRead s).inbox = s.inbox := rfl
@[simp] theorem refuseRead_outbox : (refuseRead s).outbox = s.outbox ++ [Config.refusedRead s.draws] := rfl
@[simp] theorem refuseRead_draws : (refuseRead s).draws = s.draws + 1 := rfl

end Sys2Proof.Machine
end

