-- ==== Sys2Proof/Laws/Exec.lean ====
section
/-! SUPPORT. What a command, and a step, can do, said once: a command either commits and completes, or raises one error after
the writes of 60_exceptions.md R405. Proofs about every command cite `exec_cases` and `step_cases` instead of unfolding. -/

namespace Sys2Proof.Machine

theorem finish_ok (s : State) (f : State → State) (u : State) : finish s f (.ok u) = .next (complete u) := rfl

theorem finish_error (s : State) (f : State → State) (e : CommandError) :
    finish s f (.error e) = .next (raiseError e (f s)) := rfl

/-- The two ways a command ends. -/
theorem finish_cases {s t : State} {f : State → State} {r : Except CommandError State} (h : finish s f r = .next t) :
    (∃ u, r = .ok u ∧ t = complete u) ∨ (∃ e, r = .error e ∧ t = raiseError e (f s)) := by
  cases r with
  | ok u => exact .inl ⟨u, rfl, by simpa [finish] using h.symm⟩
  | error e => exact .inr ⟨e, rfl, by simpa [finish] using h.symm⟩

/-- A command always completes. -/
theorem finish_next (s : State) (f : State → State) (r : Except CommandError State) : ∃ t, finish s f r = .next t := by
  cases r with
  | ok u => exact ⟨_, rfl⟩
  | error e => exact ⟨_, rfl⟩

/-- The writes a failing command makes before it raises (60_exceptions.md R405). -/
def onFail : Instr → State → State
  | .decParse => invalidate
  | .decSamples _ => clearResults
  | .encBuild => clearEncoder
  | _ => id

/-- What a command that succeeds commits, before its completion. -/
inductive Commits (s : State) : Instr → State → Prop
  | nop : Commits s .nop s
  | curByte {k q : Nat} (h : cursorNeed s.cur k 1 = .ok q) :
      Commits s (.curByte k) { s with cur := { s.cur with data := (logicalByte s.mem q).zeroExtend 32 } }
  | curU16 {k q : Nat} {swap : Bool} (h : cursorNeed s.cur k 2 = .ok q) :
      Commits s (.curU16 k swap)
        { s with cur := { s.cur with data := (if swap then u16le s.mem q else u16be s.mem q).zeroExtend 32 } }
  | curU32 {k q : Nat} {swap : Bool} (h : cursorNeed s.cur k 4 = .ok q) :
      Commits s (.curU32 k swap) { s with cur := { s.cur with data := if swap then u32le s.mem q else be32 s.mem q } }
  | curAdv {n : Nat} (h : n ≤ s.cur.rem.toNat) :
      Commits s (.curAdv n)
        { s with cur := { s.cur with off := s.cur.off + BitVec.ofNat 32 n, rem := s.cur.rem - BitVec.ofNat 32 n } }
  | curNorm :
      Commits s .curNorm
        { s with
          cur := { s.cur with
            base := BitVec.ofNat 32 (cursorPos s.cur) &&& 0xFFFFFFFC
            off := BitVec.ofNat 32 (cursorPos s.cur) &&& 3 } }
  | crc (h : s.crc.start.toNat + s.crc.len.toNat ≤ ibufBytes) :
      Commits s .crc
        { s with crc := { s.crc with result := crc16 (logicalBytes s.mem s.crc.start.toNat s.crc.len.toNat) } }
  | crcBe (h : s.decLen.toNat ≤ Config.ibufWords) (h8 : 8 ≤ 4 * s.decLen.toNat) :
      Commits s .crcBe
        { s with
          crc := { s.crc with result := eventCrc s.mem (4 * s.decLen.toNat - 8) (cfgEvfmt s.decCfg) } }
  | reorder : Commits s .reorder (permuteFrame reorderFrame s)
  | disorder : Commits s .disorder (permuteFrame disorderFrame s)
  | decParse {p : Parsed} (h : parseEvent s.mem s.decCfg s.decLen.toNat = .ok p) :
      Commits s .decParse (commitParse p (invalidate s))
  | decChan {idx : Nat} {ev : EventRecord} {c : ChannelEntry} (h : resolveChannel s.ev idx = .ok (ev, c)) :
      Commits s (.decChan idx) { s with chan := channelRegs s.mem ev idx c }
  | decSamples {idx : Nat} {ev : EventRecord} {c : ChannelEntry} {w : Width} {r : Samples}
      (h : resolveChannel s.ev idx = .ok (ev, c)) (hr : decodeSamples s.mem ev idx c = .ok (w, r)) :
      Commits s (.decSamples idx)
        { s with
          mem := Memory.storeHalves s.mem (ramBase .res) r.entries
          res := resultRegs ev.mode w r
          chan := channelRegs s.mem ev idx c }
  | decCheckSkip {ev : EventRecord} (h : s.ev = some ev) (hs : cfgSkipCrc s.decCfg = true) :
      Commits s .decCheck
        { s with
          crcComputed := 0
          flags := { s.flags with
            lenMismatch := lengthMismatch s.hdr.trlLen.toNat ev.t
            crcMismatch := false
            crcChecked := false } }
  | decCheckCrc {ev : EventRecord} (h : s.ev = some ev) (hs : cfgSkipCrc s.decCfg = false) :
      Commits s .decCheck
        { s with
          crcComputed := eventCrc s.mem ev.t ev.evfmt
          flags := { s.flags with
            lenMismatch := lengthMismatch s.hdr.trlLen.toNat ev.t
            crcMismatch := decide (eventCrc s.mem ev.t ev.evfmt ≠ s.hdr.trlInfo.extractLsb' 0 16)
            crcChecked := true } }
  | decStatus {ev : EventRecord} (h : s.ev = some ev) : Commits s .decStatus { s with stat := statRegs s.mem ev }
  | encBuild {b : BuiltEvent} (h : buildEvent s.mem s.enc = .ok b) : Commits s .encBuild (commitBuild b s)
  | swapIbuf (h : s.decLen.toNat ≤ Config.ibufWords) :
      Commits s (.swap64 .ibuf) (invalidate { s with mem := swapBuffer s.mem .ibuf s.decLen.toNat })
  | swapObuf :
      Commits s (.swap64 .obuf) { s with mem := swapBuffer s.mem .obuf (min s.enc.len.toNat Config.obufWords) }
  | copyO2i (h : s.enc.len.toNat ≤ Config.ibufWords) :
      Commits s .copyO2i
        (invalidate { s with
          mem := Memory.storeWords s.mem (ramBase .ibuf) (Memory.words s.mem (ramBase .obuf) s.enc.len.toNat)
          decLen := s.enc.len })

/-- A command that commits completes. -/
theorem exec_of_commits {i : Instr} {s u : State} (h : Commits s i u) : exec i s = .next (complete u) := by
  cases h with
  | curByte h => simp [exec, execCurByte, cursorRead, h, finish]
  | curU16 h => simp [exec, execCurU16, cursorRead, h, finish]
  | curU32 h => simp [exec, execCurU32, cursorRead, h, finish]
  | curAdv h => simp [exec, execCurAdv, Nat.not_lt.2 h, finish]
  | crc h => simp [exec, execCrc, Nat.not_lt.2 h, finish]
  | crcBe h h8 => simp [exec, execCrcBe, Nat.not_lt.2 h, Nat.not_lt.2 h8, finish]
  | decParse h => simp [exec, execDecParse, h, finish]
  | decChan h => simp [exec, execDecChan, h, finish]
  | decSamples h hr => simp [exec, execDecSamples, h, hr, finish]
  | decCheckSkip h hs => simp [exec, execDecCheck, h, hs, finish]
  | decCheckCrc h hs => simp [exec, execDecCheck, h, hs, finish]
  | decStatus h => simp [exec, execDecStatus, h, finish]
  | encBuild h => simp [exec, execEncBuild, h, finish]
  | swapIbuf h => simp [exec, execSwap64, Nat.not_lt.2 h, finish]
  | copyO2i h => simp [exec, execCopyO2i, Nat.not_lt.2 h, finish]
  | _ => rfl

/-- A command commits, or it raises an error (60_exceptions.md R404). -/
theorem exec_ends (i : Instr) (s : State) :
    (∃ u, Commits s i u) ∨ (∃ e, exec i s = .next (raiseError e (onFail i s))) := by
  cases i with
  | nop => exact .inl ⟨_, .nop⟩
  | curByte k =>
    cases hq : cursorNeed s.cur k 1 with
    | ok q => exact .inl ⟨_, .curByte hq⟩
    | error e => exact .inr ⟨e, by simp [exec, execCurByte, cursorRead, hq, finish, onFail]⟩
  | curU16 k swap =>
    cases hq : cursorNeed s.cur k 2 with
    | ok q => exact .inl ⟨_, .curU16 hq⟩
    | error e => exact .inr ⟨e, by simp [exec, execCurU16, cursorRead, hq, finish, onFail]⟩
  | curU32 k swap =>
    cases hq : cursorNeed s.cur k 4 with
    | ok q => exact .inl ⟨_, .curU32 hq⟩
    | error e => exact .inr ⟨e, by simp [exec, execCurU32, cursorRead, hq, finish, onFail]⟩
  | curAdv n =>
    by_cases hn : n ≤ s.cur.rem.toNat
    · exact .inl ⟨_, .curAdv hn⟩
    · exact .inr ⟨_, by simp only [exec, execCurAdv, if_pos (Nat.not_le.1 hn), finish, onFail]; rfl⟩
  | curNorm => exact .inl ⟨_, .curNorm⟩
  | crc =>
    by_cases hn : s.crc.start.toNat + s.crc.len.toNat ≤ ibufBytes
    · exact .inl ⟨_, .crc hn⟩
    · exact .inr ⟨_, by simp only [exec, execCrc, if_pos (Nat.not_le.1 hn), finish, onFail]; rfl⟩
  | crcBe =>
    by_cases hn : s.decLen.toNat ≤ Config.ibufWords
    · by_cases h8 : 8 ≤ 4 * s.decLen.toNat
      · exact .inl ⟨_, .crcBe hn h8⟩
      · exact .inr ⟨_, by
          simp only [exec, execCrcBe, if_neg (Nat.not_lt.2 hn), if_pos (Nat.not_le.1 h8), finish, onFail]; rfl⟩
    · exact .inr ⟨_, by simp only [exec, execCrcBe, if_pos (Nat.not_le.1 hn), finish, onFail]; rfl⟩
  | reorder => exact .inl ⟨_, .reorder⟩
  | disorder => exact .inl ⟨_, .disorder⟩
  | decParse =>
    cases hp : parseEvent s.mem s.decCfg s.decLen.toNat with
    | ok p => exact .inl ⟨_, .decParse hp⟩
    | error e => exact .inr ⟨e, by simp [exec, execDecParse, hp, finish, onFail]⟩
  | decChan idx =>
    cases hc : resolveChannel s.ev idx with
    | ok r => exact .inl ⟨_, .decChan hc⟩
    | error e => exact .inr ⟨e, by simp [exec, execDecChan, hc, finish, onFail]⟩
  | decSamples idx =>
    cases hc : resolveChannel s.ev idx with
    | ok r =>
      cases hr : decodeSamples s.mem r.1 idx r.2 with
      | ok d => exact .inl ⟨_, .decSamples hc hr⟩
      | error e => exact .inr ⟨e, by simp [exec, execDecSamples, hc, hr, finish, onFail]⟩
    | error e => exact .inr ⟨e, by simp [exec, execDecSamples, hc, finish, onFail]⟩
  | decCheck =>
    cases he : s.ev with
    | none => exact .inr ⟨noEvent, by simp [exec, execDecCheck, he, finish, onFail]⟩
    | some ev =>
      cases hs : cfgSkipCrc s.decCfg with
      | true => exact .inl ⟨_, .decCheckSkip he hs⟩
      | false => exact .inl ⟨_, .decCheckCrc he hs⟩
  | decStatus =>
    cases he : s.ev with
    | none => exact .inr ⟨noEvent, by simp [exec, execDecStatus, he, finish, onFail]⟩
    | some ev => exact .inl ⟨_, .decStatus he⟩
  | encBuild =>
    cases hb : buildEvent s.mem s.enc with
    | ok b => exact .inl ⟨_, .encBuild hb⟩
    | error e => exact .inr ⟨e, by simp [exec, execEncBuild, hb, finish, onFail]⟩
  | swap64 tgt =>
    cases tgt with
    | ibuf =>
      by_cases hn : s.decLen.toNat ≤ Config.ibufWords
      · exact .inl ⟨_, .swapIbuf hn⟩
      · exact .inr ⟨_, by simp only [exec, execSwap64, if_pos (Nat.not_le.1 hn), finish, onFail]; rfl⟩
    | obuf => exact .inl ⟨_, .swapObuf⟩
  | copyO2i =>
    by_cases hn : s.enc.len.toNat ≤ Config.ibufWords
    · exact .inl ⟨_, .copyO2i hn⟩
    · exact .inr ⟨_, by simp only [exec, execCopyO2i, if_pos (Nat.not_le.1 hn), finish, onFail]; rfl⟩

/-- Every command answers a next state (60_exceptions.md R403). -/
theorem exec_next (i : Instr) (s : State) : ∃ t, exec i s = .next t := by
  rcases exec_ends i s with ⟨u, hu⟩ | ⟨e, he⟩
  · exact ⟨_, exec_of_commits hu⟩
  · exact ⟨_, he⟩

/-- What a command can do: commit and complete, or raise one error and commit nothing (60_exceptions.md R403, R404). -/
theorem exec_cases {i : Instr} {s t : State} (h : exec i s = .next t) :
    (∃ u, Commits s i u ∧ t = complete u) ∨ (∃ e, t = raiseError e (onFail i s)) := by
  rcases exec_ends i s with ⟨u, hu⟩ | ⟨e, he⟩
  · exact .inl ⟨u, hu, by simpa [exec_of_commits hu] using h.symm⟩
  · exact .inr ⟨e, by simpa [he] using h.symm⟩

/-- What the engine's turn can do (10_state.md R31). -/
theorem engineStep_cases {s t : State} (h : engineStep s = .next t) :
    (s.pend = none ∧ t = s) ∨ (∃ p i, s.pend = some p ∧ decode (commandWord p.op p.arg) = .ok i ∧ exec i s = .next t) ∨
      (∃ p op, s.pend = some p ∧ decode (commandWord p.op p.arg) = .error (.reservedOp op) ∧ t = illegalOpcode op s) := by
  unfold engineStep at h
  split at h
  · rename_i hp
    exact .inl ⟨hp, by simpa using h.symm⟩
  · rename_i p hp
    split at h
    · rename_i i hi
      exact .inr (.inl ⟨p, i, hp, hi, h⟩)
    · rename_i op ho
      exact .inr (.inr ⟨p, op, hp, ho, by simpa using h.symm⟩)

/-- What a step can do: the engine's turn, a host access, or the reset input. -/
theorem step_cases {s t : State} (h : step s = .next t) :
    (∃ rest, (s.inbox = .idle :: rest ∨ s.inbox = [] ∧ rest = []) ∧ engineStep { s with inbox := rest } = .next t) ∨
      (∃ a rest, s.inbox = .read a :: rest ∧ t = hostRead a { s with inbox := rest }) ∨
      (∃ a v rest, s.inbox = .write a v :: rest ∧ t = hostWrite a v { s with inbox := rest }) ∨
      (∃ rest, s.inbox = .rst :: rest ∧ t = resetBlock { s with inbox := rest }) := by
  unfold step at h
  split at h
  · rename_i hi
    refine .inl ⟨[], .inr ⟨hi, rfl⟩, ?_⟩
    rw [← h, ← hi]
  · rename_i rest hi
    exact .inl ⟨rest, .inl hi, h⟩
  · rename_i a rest hi
    exact .inr (.inl ⟨a, rest, hi, by simpa using h.symm⟩)
  · rename_i a v rest hi
    exact .inr (.inr (.inl ⟨a, v, rest, hi, by simpa using h.symm⟩))
  · rename_i rest hi
    exact .inr (.inr (.inr ⟨rest, hi, by simpa using h.symm⟩))

end Sys2Proof.Machine
end

