-- ==== Sys2Proof/Laws/Encode.lean ====
section
/-! SUPPORT. The sizes of what ENC_BUILD writes, and the words and bytes of the finished event. -/

namespace Sys2Proof.Machine

theorem length_packBits : ∀ bits : List Bool, (packBits bits).length = (bits.length + 7) / 8
  | [] => rfl
  | [_] => by simp [packBits]
  | [_, _] => by simp [packBits]
  | [_, _, _] => by simp [packBits]
  | [_, _, _, _] => by simp [packBits]
  | [_, _, _, _, _] => by simp [packBits]
  | [_, _, _, _, _, _] => by simp [packBits]
  | [_, _, _, _, _, _, _] => by simp [packBits]
  | _ :: _ :: _ :: _ :: _ :: _ :: _ :: _ :: rest => by
    simp only [packBits, List.length_cons, length_packBits rest]
    omega

theorem length_flatMap_const {α β : Type} {f : α → List β} {n : Nat} {xs : List α} (hf : ∀ x ∈ xs, (f x).length = n) :
    (xs.flatMap f).length = n * xs.length := by
  induction xs with
  | nil => rfl
  | cons x xs ih =>
    rw [List.flatMap_cons, List.length_append, hf x (by simp), ih fun y hy => hf y (by simp [hy]), List.length_cons,
      Nat.mul_succ, Nat.add_comm]

theorem length_flatMap_le {α β : Type} {f : α → List β} {n : Nat} {xs : List α} (hf : ∀ x ∈ xs, (f x).length ≤ n) :
    (xs.flatMap f).length ≤ n * xs.length := by
  induction xs with
  | nil => simp
  | cons x xs ih =>
    rw [List.flatMap_cons, List.length_append, List.length_cons, Nat.mul_succ]
    have h1 := hf x (by simp)
    have h2 := ih fun y hy => hf y (by simp [hy])
    omega

/-- The size of a coded list (30_encoding.md R184). -/
theorem length_codeValues (mode : DaqMode) (w : Width) (vs : List Half) :
    (codeValues mode w vs).length = codedSize vs.length mode w := by
  cases w with
  | std =>
    simp only [codeValues, codedSize]
    split
    · rw [length_flatMap_const (n := 2) fun _ _ => rfl]
    · rw [List.length_map]
  | w10 =>
    simp only [codeValues, codedSize, nb10]
    rw [length_packBits, length_flatMap_const (n := 10) fun v _ => by simp [valueBits]]
  | botbot => simp [codeValues, codedSize]
  | topbot => simp [codeValues, codedSize]

theorem codedSize_le (n : Nat) (mode : DaqMode) (w : Width) : codedSize n mode w ≤ 2 * n := by
  unfold codedSize nb10
  cases w <;> (try simp only) <;> (try split) <;> omega

@[simp] theorem length_dwordBytes (v : DWord) : (dwordBytes v).length = 8 := by simp [dwordBytes]

@[simp] theorem length_le16 (n : Nat) : (le16 n).length = 2 := rfl

@[simp] theorem length_apvStrips (m : Memory) (ch apv : Nat) : (apvStrips m ch apv).length = 128 := by
  simp [apvStrips]

/-- What `findRuns` can give is never longer than the strips and one gap a run allow (44_encoder.md R349). -/
theorem findRuns_length (threshold : Nat) (xs : List Half) : ∀ (s : Nat) (run : Option (Nat × List Half)),
    ((findRuns threshold s run xs).map fun r => r.2.length + 1).sum ≤
      xs.length + 1 + (match run with | some r => r.2.length | none => 0) := by
  induction xs with
  | nil =>
    intro s run
    cases run with
    | none => simp [findRuns]
    | some r => obtain ⟨first, vs⟩ := r; simp [findRuns]
  | cons v xs ih =>
    intro s run
    cases run with
    | none =>
      simp only [findRuns]
      split
      · have := ih (s + 1) (some (s, [v]))
        simp only [List.length_cons, List.length_nil] at this ⊢
        omega
      · have := ih (s + 1) none
        simp only [List.length_cons] at this ⊢
        omega
    | some r =>
      obtain ⟨first, vs⟩ := r
      simp only [findRuns]
      split
      · have := ih (s + 1) (some (first, v :: vs))
        simp only [List.length_cons] at this ⊢
        omega
      · have := ih (s + 1) none
        simp only [List.map_cons, List.sum_cons, List.length_reverse, List.length_cons] at this ⊢
        omega

theorem length_pos_of_mem_findRuns (threshold : Nat) (xs : List Half) : ∀ (s : Nat) (run : Option (Nat × List Half)),
    (∀ r ∈ run, 1 ≤ r.2.length) → ∀ r ∈ findRuns threshold s run xs, 1 ≤ r.2.length := by
  induction xs with
  | nil =>
    intro s run hrun r hr
    cases run with
    | none => cases hr
    | some q =>
      obtain rfl := List.mem_singleton.1 hr
      simpa using hrun q rfl
  | cons v xs ih =>
    intro s run hrun r hr
    cases run with
    | none =>
      simp only [findRuns] at hr
      split at hr
      · exact ih _ _ (fun _ h => by cases h; exact Nat.le_refl 1) r hr
      · exact ih _ none (fun _ h => by cases h) r hr
    | some q =>
      simp only [findRuns] at hr
      split at hr
      · exact ih _ _ (fun _ h => by cases h; simp) r hr
      · rcases List.mem_cons.1 hr with rfl | hr
        · simpa using hrun q rfl
        · exact ih _ none (fun _ h => by cases h) r hr

/-- The clusters of an APV take at most 257 bytes, whatever the width (44_encoder.md R349). -/
theorem length_apvClusters_le {c : EncoderConfig} (hm : isRawMode c.mode = false) (m : Memory) (ch apv : Nat) :
    ((apvClusters m c ch apv).flatMap (clusterBytes c apv)).length ≤ 257 := by
  have hc : ∀ n, 1 ≤ n → codedSize n c.mode c.width + 2 + (n + 1) % 2 ≤ 2 * (n + 1) := fun n _ => by
    cases hw : c.width <;> simp only [codedSize, nb10, hm, Bool.false_eq_true, if_false] <;> omega
  have key : ∀ rs : List (Nat × List Half), (∀ r ∈ rs, 1 ≤ r.2.length) →
      (rs.flatMap (clusterBytes c apv)).length + (rs.map fun r => r.2.length + 1).sum % 2 ≤
        2 * (rs.map fun r => r.2.length + 1).sum := fun rs => by
    induction rs with
    | nil => simp
    | cons r rs ih =>
      intro h
      have := ih fun q hq => h q (List.mem_cons_of_mem r hq)
      have := hc _ (h r List.mem_cons_self)
      simp only [List.flatMap_cons, List.length_append, List.map_cons, List.sum_cons, clusterBytes, List.length_cons,
        length_codeValues] at *
      omega
  have := key _ (length_pos_of_mem_findRuns c.threshold (apvStrips m ch apv) 0 none fun _ h => by cases h)
  have := findRuns_length c.threshold (apvStrips m ch apv) 0 none
  simp only [length_apvStrips, apvClusters] at *
  omega

/-- With 8-bit values an APV's clusters take at most 193 bytes (44_encoder.md R345, R349). -/
theorem length_apvClusters_le_of_8bit {m : Memory} {c : EncoderConfig} (hm : isRawMode c.mode = false) (hw : c.width ≠ .w10)
    (ch apv : Nat) : ((apvClusters m c ch apv).flatMap (clusterBytes c apv)).length ≤ 193 := by
  have h8 : ∀ n, codedSize n c.mode c.width = n := fun n => by
    unfold codedSize
    cases hc : c.width <;> simp_all
  have key : ∀ rs : List (Nat × List Half), (∀ r ∈ rs, 1 ≤ r.2.length) →
      2 * (rs.flatMap (clusterBytes c apv)).length ≤ 3 * (rs.map fun r => r.2.length + 1).sum := fun rs => by
    induction rs with
    | nil => simp
    | cons r rs ih =>
      intro h
      have := ih fun q hq => h q (List.mem_cons_of_mem r hq)
      have := h r List.mem_cons_self
      simp only [List.flatMap_cons, List.length_append, List.map_cons, List.sum_cons, clusterBytes, List.length_cons,
        length_codeValues, h8] at *
      omega
  have := key _ (length_pos_of_mem_findRuns c.threshold (apvStrips m ch apv) 0 none fun _ h => by cases h)
  have := findRuns_length c.threshold (apvStrips m ch apv) 0 none
  simp only [length_apvStrips, apvClusters] at *
  omega

@[simp] theorem length_encodedMedian (m : Memory) (c : EncoderConfig) (k : Nat) : (encodedMedian m c k).length = 2 := by
  unfold encodedMedian
  split <;> rfl

theorem length_rawChannelBody (m : Memory) (c : EncoderConfig) (ch : Nat) :
    (rawChannelBody m c ch).length = codedSize 256 c.mode c.width := by
  simp [rawChannelBody, length_codeValues]

theorem length_encodedBody_le (m : Memory) (c : EncoderConfig) (ch : Nat) : (encodedBody m c ch).length ≤ 518 := by
  have hr := length_rawChannelBody m c ch
  have h2 := codedSize_le 256 c.mode c.width
  unfold encodedBody
  split <;> rename_i hmode <;> try omega
  all_goals
    have h0 := length_apvClusters_le (c := c) (by rw [hmode]; rfl) m ch 0
    have h1 := length_apvClusters_le (c := c) (by rw [hmode]; rfl) m ch 1
    simp only [List.length_append, length_encodedMedian, channelClusters]
    omega

/-- No channel body but a zero-suppressed one of 10-bit values is longer than the STD raw one (30_encoding.md R185). -/
theorem length_encodedBody_le_stdRaw {c : EncoderConfig} (hc : isRawMode c.mode = true ∨ c.width ≠ .w10) (m : Memory)
    (ch : Nat) : (encodedBody m c ch).length ≤ 512 := by
  have hr := length_rawChannelBody m c ch
  have h2 := codedSize_le 256 c.mode c.width
  unfold encodedBody
  split <;> rename_i hmode <;> simp only [hmode, isRawMode, Bool.false_eq_true, false_or] at hc <;> try omega
  all_goals
    have h0 := length_apvClusters_le_of_8bit (m := m) (by rw [hmode]; rfl) hc ch 0
    have h1 := length_apvClusters_le_of_8bit (m := m) (by rw [hmode]; rfl) hc ch 1
    simp only [List.length_append, length_encodedMedian, channelClusters]
    omega

theorem length_encodedChannel (m : Memory) (c : EncoderConfig) (pc : Byte) (ch : Nat) :
    (encodedChannel m c pc ch).length = 3 + (encodedBody m c ch).length := by
  simp only [encodedChannel, List.length_append, length_le16, List.length_cons, List.length_nil]

theorem length_unitChannels_le {m : Memory} {c : EncoderConfig} {n : Nat} (h : ∀ ch, (encodedBody m c ch).length ≤ n)
    (pc : Byte) (u : Nat) : (unitChannels m c pc u).length ≤ 12 * (3 + n) := by
  have := length_flatMap_le (n := 3 + n) (f := fun k => encodedChannel m c pc (12 * u + k)) (xs := List.range 12) fun k _ => by
    have := h (12 * u + k)
    rw [length_encodedChannel]
    omega
  rw [List.length_range, Nat.mul_comm (3 + n)] at this
  exact this

theorem length_encodedUnit (m : Memory) (c : EncoderConfig) (pc : Byte) (u : Nat) :
    (encodedUnit m c pc u).length = roundup8 (unitChannels m c pc u).length := by
  simp only [encodedUnit, List.length_append, List.length_replicate, roundup8]
  omega

theorem length_encodedUnit_le {m : Memory} {c : EncoderConfig} {n : Nat} (h : ∀ ch, (encodedBody m c ch).length ≤ n)
    (pc : Byte) (u : Nat) : (encodedUnit m c pc u).length ≤ roundup8 (12 * (3 + n)) := by
  have := length_unitChannels_le h pc u
  rw [length_encodedUnit]
  simp only [roundup8]
  omega

theorem length_feHeaderRegion (f : HeaderFormat) (lens : List Nat) (h : lens.length = 8) :
    (feHeaderRegion f lens).length = feHeaderSize f := by
  cases f with
  | fullDebug =>
    simp only [feHeaderRegion, feHeaderSize]
    rw [length_flatMap_const (n := 16) fun _ _ => rfl, h]
  | apvError => rfl

/-- The size of an event before its trailer (44_encoder.md R345). -/
theorem length_eventBody (m : Memory) (c : EncoderConfig) (pc : Byte) :
    (eventBody c (encodedUnits m c pc)).length =
      16 + feHeaderSize c.hdrfmt + ((List.range 8).map fun u => (encodedUnit m c pc u).length).sum := by
  simp only [eventBody, List.length_append, length_dwordBytes]
  rw [length_feHeaderRegion _ _ (by simp [encodedUnits])]
  simp only [encodedUnits, List.length_flatten, List.map_map]
  rfl

/-- An event is a whole number of 64-bit words, and no longer than its longest channel body allows (44_encoder.md R345). -/
theorem length_eventBody_le {m : Memory} {c : EncoderConfig} {n : Nat} (h : ∀ ch, (encodedBody m c ch).length ≤ n)
    (pc : Byte) : (eventBody c (encodedUnits m c pc)).length % 8 = 0 ∧
      (eventBody c (encodedUnits m c pc)).length ≤ 16 + feHeaderSize c.hdrfmt + 8 * roundup8 (12 * (3 + n)) := by
  have hf : feHeaderSize c.hdrfmt % 8 = 0 := by cases c.hdrfmt <;> rfl
  generalize hb : roundup8 (12 * (3 + n)) = bound
  have key : ∀ us : List Nat, (us.map fun u => (encodedUnit m c pc u).length).sum % 8 = 0 ∧
      (us.map fun u => (encodedUnit m c pc u).length).sum ≤ us.length * bound := fun us => by
    induction us with
    | nil => simp
    | cons u us ih =>
      have h8 : (encodedUnit m c pc u).length % 8 = 0 := by rw [length_encodedUnit, roundup8]; omega
      have := hb ▸ length_encodedUnit_le h pc u
      simp only [List.map_cons, List.sum_cons, List.length_cons, Nat.succ_mul]
      omega
  have := key (List.range 8)
  rw [List.length_range] at this
  rw [length_eventBody]
  omega

theorem feHeaderSize_le (f : HeaderFormat) : feHeaderSize f ≤ 128 := by cases f <;> decide

/-- The longest event of all (log entry 15). -/
theorem length_eventBody_le_longest (m : Memory) (c : EncoderConfig) (pc : Byte) :
    (eventBody c (encodedUnits m c pc)).length + 8 ≤ 50200 := by
  have h := (length_eventBody_le (length_encodedBody_le m c) pc).2
  have := feHeaderSize_le c.hdrfmt
  simp only [roundup8] at h
  omega

/-- The worst case of 00_scope.md R12 holds of every event but a zero-suppressed one of 10-bit values (log entry 15). -/
theorem length_eventBody_le_worstCase {c : EncoderConfig} (hc : isRawMode c.mode = true ∨ c.width ≠ .w10) (m : Memory)
    (pc : Byte) : (eventBody c (encodedUnits m c pc)).length + 8 ≤ 49624 := by
  have h := (length_eventBody_le (length_encodedBody_le_stdRaw hc m) pc).2
  have := feHeaderSize_le c.hdrfmt
  simp only [roundup8] at h
  omega

theorem length_eventBody_bounds (m : Memory) (c : EncoderConfig) (pc : Byte) :
    (eventBody c (encodedUnits m c pc)).length % 8 = 0 ∧ (eventBody c (encodedUnits m c pc)).length + 8 ≤ obufBytes :=
  ⟨(length_eventBody_le (length_encodedBody_le m c) pc).1,
    Nat.le_trans (length_eventBody_le_longest m c pc) (by decide)⟩

/-- ENC_BUILD with a valid configuration always builds an event (44_encoder.md R354; 00_scope.md R12). -/
theorem buildEvent_of_config {m : Memory} {e : EncoderRegs} {c : EncoderConfig} {pc : Byte}
    (h : encoderConfig e = .ok (c, pc)) : buildEvent m e = .ok (finishEvent c (eventBody c (encodedUnits m c pc))) := by
  have := (length_eventBody_bounds m c pc).2
  simp only [buildEvent, h]
  rw [if_neg (by omega)]

theorem length_bytesToWords : ∀ bs : List Byte, (bytesToWords bs).length = bs.length / 4
  | [] => rfl
  | [_] => by simp [bytesToWords]
  | [_, _] => by simp [bytesToWords]
  | [_, _, _] => by simp [bytesToWords]
  | _ :: _ :: _ :: _ :: bs => by
    simp only [bytesToWords, List.length_cons, length_bytesToWords bs]
    omega

theorem getElem?_bytesToWords : ∀ (bs : List Byte) (i : Nat), 4 * i + 3 < bs.length →
    (bytesToWords bs)[i]? = some (bs.getD (4 * i) 0 ++ bs.getD (4 * i + 1) 0 ++ bs.getD (4 * i + 2) 0 ++ bs.getD (4 * i + 3) 0)
  | [], i, h => by simp at h
  | [_], i, h => by simp at h
  | [_, _], i, h => by simp at h
  | [_, _, _], i, h => by simp at h
  | _ :: _ :: _ :: _ :: bs, 0, _ => rfl
  | _ :: _ :: _ :: _ :: bs, i + 1, h => by
    have := getElem?_bytesToWords bs i (by simp only [List.length_cons] at h; omega)
    simp only [bytesToWords, List.getElem?_cons_succ, this]
    rw [show 4 * (i + 1) = 4 * i + 1 + 1 + 1 + 1 by omega]
    simp only [List.getD_cons_succ]

/-- A little-endian field, as the statements write it (30_encoding.md R149). -/
theorem le16_eq_littleEndian (n : Nat) : le16 n = Spec.littleEndian n := by
  have hlow : (BitVec.ofNat 16 n).extractLsb' 0 8 = BitVec.ofNat 8 n := by
    apply BitVec.eq_of_toNat_eq
    simp only [BitVec.extractLsb'_toNat, BitVec.toNat_ofNat, Nat.shiftRight_zero]
    omega
  have hhigh : (BitVec.ofNat 16 n).extractLsb' 8 8 = BitVec.ofNat 8 (n / 256) := by
    apply BitVec.eq_of_toNat_eq
    simp only [BitVec.extractLsb'_toNat, BitVec.toNat_ofNat, Nat.shiftRight_eq_div_pow]
    omega
  simp only [le16, Spec.littleEndian, hlow, hhigh]

/-- The FE header region, as the statements write it (44_encoder.md R344, R350). -/
theorem feHeaderRegion_eq_frontEndHeaders (s : State) (mode : DaqMode) (width : Width) (lengths : List Nat) :
    feHeaderRegion (encoderFields s.enc mode width).hdrfmt lengths = Spec.frontEndHeaders s lengths := by
  simp only [encoderFields, Spec.frontEndHeaders]
  split
  · rfl
  · simp only [feHeaderRegion, le16_eq_littleEndian]
    rfl

end Sys2Proof.Machine
end

