-- ==== Sys2Proof/Laws/Parse.lean ====
section
/-! SUPPORT. What the parse of an event can do, said once: a parse that succeeds leaves a well-placed event record; the walk of an
event described by `Spec.ParseWalk` succeeds; and a parse reads IBUF only. -/

namespace Sys2Proof.Machine

theorem toNat_u16le (m : Memory) (q : Nat) : (u16le m q).toNat = Spec.channelLength m q := by
  have h := (logicalByte m q).isLt
  simp only [u16le, BitVec.toNat_append, Spec.channelLength, Nat.shiftLeft_eq]
  rw [Nat.mul_comm, ← Nat.two_pow_add_eq_or_of_lt h]
  omega

theorem channelLength_lt (m : Memory) (q : Nat) : Spec.channelLength m q < 2 ^ 16 := by
  rw [← toNat_u16le]
  exact (u16le m q).isLt

/-- The result of `walkChannels` when it succeeds, its channels starting at `r`. -/
theorem walkChannels_ok {m : Memory} {nb n ch : Nat} {r : Nat → Nat}
    (next : ∀ k < n, r (k + 1) = r k + Spec.channelLength m (r k))
    (fits : ∀ k < n, 3 ≤ Spec.channelLength m (r k) ∧ r k + Spec.channelLength m (r k) ≤ nb) :
    walkChannels m nb n ch (r 0) =
      .ok ((List.range n).map fun k => { off := r k, len := Spec.channelLength m (r k), pcode := logicalByte m (r k + 2) },
        r n) := by
  induction n generalizing ch r with
  | zero => rfl
  | succ n ih =>
    have h0 := fits 0 (by omega)
    have ih := ih (ch := ch + 1) (r := fun k => r (k + 1)) (fun k hk => next (k + 1) (by omega)) fun k hk => fits (k + 1) (by omega)
    have hr1 := next 0 (by omega)
    simp only [Nat.zero_add] at hr1 ih
    rw [hr1] at ih
    simp only [walkChannels, toNat_u16le, if_neg (show ¬ nb < r 0 + 2 by omega), if_neg (show ¬ Spec.channelLength m (r 0) < 3 by omega),
      if_neg (show ¬ nb < r 0 + Spec.channelLength m (r 0) by omega), ih, List.range_succ_eq_map, List.map_cons, List.map_map]
    rfl

/-- The first channel that does not fit stops the walk, whatever stands before it. -/
theorem walkChannels_error {m : Memory} {nb n c ch : Nat} {r : Nat → Nat} {e : CommandError}
    (next : ∀ k < c, r (k + 1) = r k + Spec.channelLength m (r k))
    (fits : ∀ k < c, 3 ≤ Spec.channelLength m (r k) ∧ r k + Spec.channelLength m (r k) ≤ nb)
    (stop : walkChannels m nb n (ch + c) (r c) = .error e) : walkChannels m nb (c + n) ch (r 0) = .error e := by
  induction c generalizing ch r with
  | zero => simpa using stop
  | succ c ih =>
    have h0 := fits 0 (by omega)
    have ih := ih (ch := ch + 1) (r := fun k => r (k + 1)) (fun k hk => next (k + 1) (by omega))
      (fun k hk => fits (k + 1) (by omega)) (by simpa [Nat.add_assoc, Nat.add_comm 1] using stop)
    have hr1 := next 0 (by omega)
    simp only [Nat.zero_add] at hr1 ih
    rw [hr1] at ih
    rw [show c + 1 + n = (c + n) + 1 by omega]
    simp only [walkChannels, toNat_u16le, if_neg (show ¬ nb < r 0 + 2 by omega), if_neg (show ¬ Spec.channelLength m (r 0) < 3 by omega),
      if_neg (show ¬ nb < r 0 + Spec.channelLength m (r 0) by omega), ih]

/-- What a successful `walkChannels` leaves. -/
theorem walkChannels_spec {m : Memory} {nb n ch q last : Nat} {cs : List ChannelEntry}
    (h : walkChannels m nb n ch q = .ok (cs, last)) :
    cs.length = n ∧ q + 3 * n ≤ last ∧ (0 < n → last ≤ nb) ∧
      cs.Pairwise (fun c d => c.off + c.len ≤ d.off) ∧
      ∀ c ∈ cs, q ≤ c.off ∧ 3 ≤ c.len ∧ c.len < 2 ^ 16 ∧ c.off + c.len ≤ last := by
  induction n generalizing ch q cs with
  | zero =>
    simp only [walkChannels, Except.ok.injEq, Prod.mk.injEq] at h
    obtain ⟨rfl, rfl⟩ := h
    simp
  | succ n ih =>
    have hlt := channelLength_lt m q
    simp only [walkChannels, toNat_u16le] at h
    split at h
    · cases h
    · split at h
      · cases h
      · split at h
        · cases h
        · split at h
          · rename_i cs' last' hw
            simp only [Except.ok.injEq, Prod.mk.injEq] at h
            obtain ⟨rfl, rfl⟩ := h
            obtain ⟨hlen, hlast, hnb, hpair, hall⟩ := ih hw
            refine ⟨by simp [hlen], by omega, fun _ => ?_, List.pairwise_cons.2 ⟨fun d hd => (hall d hd).1, hpair⟩, ?_⟩
            · rcases Nat.eq_zero_or_pos n with rfl | hn
              · simp only [walkChannels, Except.ok.injEq, Prod.mk.injEq] at hw
                omega
              · exact hnb hn
            · intro c hc
              rcases List.mem_cons.1 hc with rfl | hc
              · exact ⟨Nat.le_refl _, by simp only; omega, hlt, by simp only; omega⟩
              · have := hall c hc
                exact ⟨by omega, this.2⟩
          · cases h

theorem le_roundup8 (x : Nat) : x ≤ roundup8 x := by
  unfold roundup8
  omega

theorem roundup8_mod (x : Nat) : roundup8 x % 8 = 0 := by
  unfold roundup8
  omega

/-- What a successful walk of one unit leaves. -/
theorem walkUnit_spec {m : Memory} {hdrfmt : HeaderFormat} {nb h0 u p : Nat} {w : UnitWalk}
    (h : walkUnit m hdrfmt nb h0 u p = .ok w) :
    w.off = p ∧ w.len % 8 = 0 ∧ w.chan.length = 12 ∧ w.chan.Pairwise (fun c d => c.off + c.len ≤ d.off) ∧
      ∀ c ∈ w.chan, p ≤ c.off ∧ 3 ≤ c.len ∧ c.len < 2 ^ 16 ∧ c.off + c.len ≤ p + w.len := by
  unfold walkUnit at h
  split at h
  · cases h
  · rename_i cs q hw
    obtain ⟨hlen, hlast, -, hpair, hall⟩ := walkChannels_spec hw
    cases hdrfmt with
    | fullDebug =>
      simp only at h
      split at h
      · cases h
      · simp only [Except.ok.injEq] at h
        subst h
        have := le_roundup8 (recordedLength m h0 u)
        exact ⟨rfl, roundup8_mod _, hlen, hpair, fun c hc => by have := hall c hc; simp only; omega⟩
    | apvError =>
      simp only [Except.ok.injEq] at h
      subst h
      have := le_roundup8 (q - p)
      exact ⟨rfl, roundup8_mod _, hlen, hpair, fun c hc => by have := hall c hc; simp only; omega⟩

/-- What a successful walk of the units `us` leaves; the entries of a disabled unit have length 0. -/
theorem walkUnits_spec {m : Memory} {hdrfmt : HeaderFormat} {enable : BitVec 8} {nb h0 p t : Nat} {us : List Nat}
    {ws : List UnitWalk} (h : walkUnits m hdrfmt enable nb h0 us p = .ok (ws, t)) :
    ws.length = us.length ∧ p ≤ t ∧ t % 8 = p % 8 ∧ (ws.flatMap UnitWalk.chan).length = 12 * us.length ∧
      (ws.flatMap UnitWalk.chan).Pairwise (fun c d => d.len = 0 ∨ c.off + c.len ≤ d.off) ∧
      (∀ c ∈ ws.flatMap UnitWalk.chan,
        c = ChannelEntry.absent ∨ (p ≤ c.off ∧ 3 ≤ c.len ∧ c.len < 2 ^ 16 ∧ c.off + c.len ≤ t)) ∧
      ∀ k (hk : k < (ws.flatMap UnitWalk.chan).length) (hu : k / 12 < us.length), enable.getLsbD us[k / 12] = true →
        3 ≤ (ws.flatMap UnitWalk.chan)[k].len := by
  induction us generalizing p ws with
  | nil =>
    simp only [walkUnits, Except.ok.injEq, Prod.mk.injEq] at h
    obtain ⟨rfl, rfl⟩ := h
    simp
  | cons u us ih =>
    simp only [walkUnits] at h
    by_cases hu : enable.getLsbD u = true
    · rw [if_pos hu] at h
      split at h
      · cases h
      · rename_i w hw
        split at h
        · cases h
        · rename_i ws' t' hws
          simp only [Except.ok.injEq, Prod.mk.injEq] at h
          obtain ⟨rfl, rfl⟩ := h
          obtain ⟨i1, i2, i3, i4, i5, i6, i7⟩ := ih hws
          obtain ⟨w1, w2, w3, w4, w5⟩ := walkUnit_spec hw
          refine ⟨by simp [i1], by omega, by omega, by simp only [List.flatMap_cons, List.length_append, w3, i4, List.length_cons]; omega, ?_, ?_, ?_⟩
          · rw [List.flatMap_cons]
            refine List.pairwise_append.2 ⟨w4.imp fun h => .inr h, i5, fun c hc d hd => ?_⟩
            rcases i6 d hd with rfl | h
            · exact .inl rfl
            · have := w5 c hc
              exact .inr (by omega)
          · intro c hc
            rw [List.flatMap_cons] at hc
            rcases List.mem_append.1 hc with hc | hc
            · have := w5 c hc
              exact .inr ⟨by omega, by omega, by omega, by omega⟩
            · rcases i6 c hc with h | h
              · exact .inl h
              · exact .inr ⟨by omega, h.2⟩
          · intro k hk hk12 he
            simp only [List.flatMap_cons, List.length_append, w3, List.length_cons] at hk hk12 ⊢
            by_cases h12 : k < 12
            · rw [List.getElem_append_left (by omega)]
              exact (w5 _ (List.getElem_mem _)).2.1
            · rw [List.getElem_append_right (by omega)]
              simp only [w3]
              have hdiv : (k - 12) / 12 + 1 = k / 12 := by omega
              refine i7 (k - 12) (by omega) (by omega) ?_
              simpa only [← hdiv, List.getElem_cons_succ] using he
    · rw [if_neg hu] at h
      split at h
      · cases h
      · rename_i ws' t' hws
        simp only [Except.ok.injEq, Prod.mk.injEq] at h
        obtain ⟨rfl, rfl⟩ := h
        obtain ⟨i1, i2, i3, i4, i5, i6, i7⟩ := ih hws
        have hd : UnitWalk.disabled.chan = List.replicate 12 ChannelEntry.absent := rfl
        refine ⟨by simp [i1], i2, i3, by simp only [List.flatMap_cons, List.length_append, hd, List.length_replicate, i4, List.length_cons]; omega, ?_, ?_, ?_⟩
        · rw [List.flatMap_cons, hd]
          refine List.pairwise_append.2 ⟨?_, i5, ?_⟩
          · refine List.pairwise_of_forall_mem_list fun c _ d hd => ?_
            rw [List.eq_of_mem_replicate hd]
            exact .inl rfl
          · intro c hc d _
            rw [List.eq_of_mem_replicate hc]
            exact .inr (Nat.zero_le _)
        · intro c hc
          rw [List.flatMap_cons, hd] at hc
          rcases List.mem_append.1 hc with hc | hc
          · exact .inl (List.eq_of_mem_replicate hc)
          · exact i6 c hc
        · intro k hk hk12 he
          simp only [List.flatMap_cons, hd, List.length_append, List.length_replicate, List.length_cons] at hk hk12 ⊢
          by_cases h12 : k < 12
          · have h0 : k / 12 = 0 := by omega
            exact absurd (by simpa only [h0, List.getElem_cons_zero] using he) hu
          · rw [List.getElem_append_right (by simp; omega)]
            simp only [List.length_replicate]
            have hdiv : (k - 12) / 12 + 1 = k / 12 := by omega
            refine i7 (k - 12) (by omega) (by omega) ?_
            simpa only [← hdiv, List.getElem_cons_succ] using he

/-- What a parse that succeeds went through (43_decoder.md R282, R284). -/
theorem parseEvent_cases {m : Memory} {cfg : Word} {decLen : Nat} {r : Parsed} (h : parseEvent m cfg decLen = .ok r) :
    ∃ mode ws t, modeOfCode (cfgModeCode cfg) = some mode ∧ decLen ≤ Config.ibufWords ∧ decLen % 2 = 0 ∧
      headerStart (cfgLegacy cfg) + feHeaderSize (cfgHdrfmt cfg) + 8 ≤ 4 * decLen ∧
      walkUnits m (cfgHdrfmt cfg) (enabledMask cfg (tshWord m cfg)) (4 * decLen) (headerStart (cfgLegacy cfg))
        [0, 1, 2, 3, 4, 5, 6, 7] (headerStart (cfgLegacy cfg) + feHeaderSize (cfgHdrfmt cfg)) = .ok (ws, t) ∧
      t + 8 ≤ 4 * decLen ∧ r = parsedEvent m cfg mode (4 * decLen) ws t := by
  simp only [parseEvent] at h
  split at h
  · cases h
  · rename_i mode hmode
    split at h
    · cases h
    · split at h
      · cases h
      · split at h
        · cases h
        · split at h
          · cases h
          · rename_i ws t hw
            split at h
            · cases h
            · simp only [Except.ok.injEq] at h
              exact ⟨mode, ws, t, hmode, by omega, by omega, by omega, hw, by omega, h.symm⟩

/-- The event record of a successful parse has all its regions inside the event (30_encoding.md R145, R147). -/
theorem recordOk_of_parseEvent {m : Memory} {cfg : Word} {decLen : Nat} {r : Parsed}
    (h : parseEvent m cfg decLen = .ok r) : RecordOk r.ev := by
  obtain ⟨mode, ws, t, -, hlen, heven, hmin, hw, ht, rfl⟩ := parseEvent_cases h
  obtain ⟨-, s2, s3, s4, s5, s6, s7⟩ := walkUnits_spec hw
  have hentry : ∀ (ch : Nat) (hch : ch < 96),
      (Vector.ofFn fun ch : Fin 96 => (ws.flatMap UnitWalk.chan).getD ch.val ChannelEntry.absent)[ch] =
        (ws.flatMap UnitWalk.chan)[ch]'(by simpa [s4] using hch) := fun ch _ => by simp [s4]
  have hus : ∀ k (hk : k < 8), ([0, 1, 2, 3, 4, 5, 6, 7] : List Nat)[k] = k := by decide
  have hlen3 : ∀ (ch : Nat) (hch : ch < 96), (enabledMask cfg (tshWord m cfg)).getLsbD (ch / 12) = true →
      3 ≤ ((ws.flatMap UnitWalk.chan)[ch]'(by simpa [s4] using hch)).len := fun ch hch he =>
    s7 ch (by simpa [s4] using hch) (by simp only [List.length_cons, List.length_nil]; omega)
      (by rw [hus _ (by omega)]; exact he)
  refine { start := ?_, headers := s2, aligned := ?_, trailer := ht, depth := ?_, channel := ?_, ordered := ?_ }
  · simp only [parsedEvent, headerStart, Config.legacyTshBytes]
    rfl
  · rw [show (parsedEvent m cfg mode (4 * decLen) ws t).ev.t = t from rfl, s3]
    simp only [headerStart, Config.legacyTshBytes, feHeaderSize]
    cases cfgLegacy cfg <;> cases cfgHdrfmt cfg <;> rfl
  · simp only [parsedEvent]
    omega
  · intro ch hch he
    simp only [parsedEvent, hentry ch hch]
    have h3 := hlen3 ch hch he
    rcases s6 _ (List.getElem_mem (by simpa [s4] using hch)) with h | h
    · rw [h] at h3
      exact absurd h3 (by decide)
    · exact h
  · intro c d hcd hd hc he
    simp only [parsedEvent]
    rw [hentry c (by omega), hentry d hd]
    have h3 := hlen3 d hd he
    have := List.pairwise_iff_getElem.1 s5 c d (by simp [s4]; omega) (by simpa [s4] using hd) hcd
    rcases this with h | h
    · omega
    · exact h

/-- A unit that `Spec.ParseWalk` describes is walked (43_decoder.md R287, R288). -/
theorem walkUnit_ok {m : Memory} {hdrfmt : HeaderFormat} {enable : BitVec 8} {nb h0 n u : Nat} {p q : Nat → Nat}
    (w : Spec.ParseWalk m hdrfmt enable nb h0 p q n) (hu : u < n) (he : enable.getLsbD u = true) :
    walkUnit m hdrfmt nb h0 u (p u) = .ok
      { off := p u
        len := p (u + 1) - p u
        chan := (List.range 12).map fun k =>
          { off := q (12 * u + k), len := Spec.channelLength m (q (12 * u + k)), pcode := logicalByte m (q (12 * u + k) + 2) } } := by
  obtain ⟨r, hr, hr12⟩ : ∃ r : Nat → Nat, (∀ k < 12, r k = q (12 * u + k)) ∧
      r 12 = q (12 * u + 11) + Spec.channelLength m (q (12 * u + 11)) :=
    ⟨fun k => if k = 12 then q (12 * u + 11) + Spec.channelLength m (q (12 * u + 11)) else q (12 * u + k),
      fun k hk => if_neg (by omega), rfl⟩
  have hwc := walkChannels_ok (m := m) (nb := nb) (n := 12) (ch := 12 * u) (r := r)
    (fun k hk => by
      rw [hr k hk]
      by_cases h11 : k = 11
      · subst h11
        exact hr12
      · rw [hr (k + 1) (by omega)]
        exact w.next u hu he k (by omega))
    (fun k hk => by
      rw [hr k hk]
      exact w.fits u hu he k hk)
  have hmap : ((List.range 12).map fun k : Nat =>
        ({ off := r k, len := Spec.channelLength m (r k), pcode := logicalByte m (r k + 2) } : ChannelEntry)) =
      (List.range 12).map fun k =>
        { off := q (12 * u + k), len := Spec.channelLength m (q (12 * u + k)), pcode := logicalByte m (q (12 * u + k) + 2) } :=
    List.map_congr_left fun k hk => by rw [hr k (List.mem_range.1 hk)]
  rw [hmap, hr12, hr 0 (by omega), Nat.add_zero, w.first u hu he] at hwc
  unfold walkUnit
  rw [hwc]
  cases hdrfmt with
  | fullDebug =>
    have hf := w.fullDebug rfl u hu he
    simp only [recordedLength, toNat_u16le, roundup8]
    rw [if_neg (by omega), hf.2, Nat.add_sub_cancel_left]
  | apvError =>
    have hf := w.apvError rfl u hu he
    simp only [roundup8]
    rw [hf, Nat.add_sub_cancel_left]

/-- The walk of the units `u`, ..., `u + k - 1`, as far as `Spec.ParseWalk` describes it; what follows decides the rest. -/
theorem walkUnits_append {m : Memory} {hdrfmt : HeaderFormat} {enable : BitVec 8} {nb h0 n u k : Nat} {p q : Nat → Nat}
    (w : Spec.ParseWalk m hdrfmt enable nb h0 p q n) (hk : u + k ≤ n) (us : List Nat) :
    walkUnits m hdrfmt enable nb h0 (List.range' u k ++ us) (p u) =
      match walkUnits m hdrfmt enable nb h0 us (p (u + k)) with
      | .error e => .error e
      | .ok (ws, t) =>
        .ok ((List.range' u k).map (fun v =>
          if enable.getLsbD v then
            { off := p v
              len := p (v + 1) - p v
              chan := (List.range 12).map fun j =>
                { off := q (12 * v + j), len := Spec.channelLength m (q (12 * v + j)),
                  pcode := logicalByte m (q (12 * v + j) + 2) } }
          else UnitWalk.disabled) ++ ws, t) := by
  induction k generalizing u with
  | zero =>
    simp only [List.range'_zero, List.nil_append, Nat.add_zero, List.map_nil]
    split <;> (rename_i h; rw [h])
  | succ k ih =>
    have ih := ih (u := u + 1) (by omega)
    rw [List.range'_succ, List.cons_append, walkUnits, show u + (k + 1) = u + 1 + k by omega]
    by_cases he : enable.getLsbD u = true
    · have hle : p u ≤ p (u + 1) := by
        cases hdrfmt with
        | fullDebug => have := (w.fullDebug rfl u (by omega) he).2; omega
        | apvError => have := w.apvError rfl u (by omega) he; omega
      simp only [if_pos he, walkUnit_ok w (show u < n by omega) he, Nat.add_sub_cancel' hle, ih, List.map_cons]
      split <;> rename_i h <;> split at h <;> simp_all
    · have hs := w.skipped u (by omega) (by simpa using he)
      simp only [if_neg he, ← hs, ih, List.map_cons]
      split <;> rename_i h <;> split at h <;> simp_all

/-- A parse reads IBUF only, through its logical bytes (43_decoder.md R281). -/
theorem parseEvent_congr {m n : Memory} (h : ∀ q, logicalByte m q = logicalByte n q) (cfg : Word) (decLen : Nat) :
    parseEvent m cfg decLen = parseEvent n cfg decLen := by
  have hb : logicalByte m = logicalByte n := funext h
  have h16 : u16le m = u16le n := funext fun q => by simp only [u16le, hb]
  have h32 : u32le m = u32le n := funext fun q => by simp only [u32le, h16]
  have h64 : rd64 m = rd64 n := funext fun q => funext fun f => by cases f <;> simp only [rd64, be32, u16be, hb]
  have hwc : ∀ nb k ch q, walkChannels m nb k ch q = walkChannels n nb k ch q := fun nb k => by
    induction k with
    | zero => exact fun _ _ => rfl
    | succ k ih => exact fun ch q => by simp only [walkChannels, h16, hb, ih]
  have hwu : walkUnit m = walkUnit n := by
    funext hdrfmt nb h0 u p
    simp only [walkUnit, hwc, recordedLength, h16]
    rfl
  have hws : ∀ hdrfmt enable nb h0 us p, walkUnits m hdrfmt enable nb h0 us p = walkUnits n hdrfmt enable nb h0 us p :=
    fun hdrfmt enable nb h0 us => by
      induction us with
      | nil => exact fun _ => rfl
      | cons u us ih => exact fun p => by simp only [walkUnits, hwu, ih]
  have ht : tshWord m = tshWord n := funext fun cfg => by simp only [tshWord, h64]
  have hur : unitRegs m = unitRegs n := by
    funext hdrfmt enable h0 u w
    simp only [unitRegs, hb, h32]
  simp only [parseEvent, hws, ht, parsedEvent, h64, hur]

end Sys2Proof.Machine
end

