-- ==== Sys2Proof/Laws/PerInstr.lean ====
section
/-! SUPPORT. Statements made per instruction, one lemma a constructor. -/

namespace Sys2Proof.Laws

/-- The low byte of a command word is the command's OP (30_encoding.md R140), and that OP is no reserved one (R141). -/
def OpcodeByte.Statement (i : Instr) : Prop :=
  commandOp (encode i) = opcode i ∧ ¬ Spec.reservedOp (opcode i).toNat

/-- OP is below ARG in the word (30_encoding.md R140). -/
theorem commandOp_commandWord (op : Byte) (arg : BitVec 24) : commandOp (commandWord op arg) = op := by
  ext k hk
  simp only [commandOp, commandWord, BitVec.getElem_extractLsb', BitVec.getLsbD_append, Nat.zero_add]
  rw [if_pos hk, BitVec.getLsbD_eq_getElem hk]

/-- No command's OP is reserved (30_encoding.md R141). -/
theorem opcode_not_reserved (i : Instr) : ¬ Spec.reservedOp (opcode i).toNat := by
  cases i <;> simp [opcode, Spec.reservedOp]

/-- Every encoded word has its OP in the low byte. -/
theorem opcodeByte_of (i : Instr) : OpcodeByte.Statement i := ⟨commandOp_commandWord _ _, opcode_not_reserved i⟩

theorem OpcodeByte.nop : OpcodeByte.Statement .nop := opcodeByte_of _

theorem OpcodeByte.curByte (k : Nat) : OpcodeByte.Statement (.curByte k) := opcodeByte_of _

theorem OpcodeByte.curU16 (k : Nat) (swap : Bool) : OpcodeByte.Statement (.curU16 k swap) := opcodeByte_of _

theorem OpcodeByte.curU32 (k : Nat) (swap : Bool) : OpcodeByte.Statement (.curU32 k swap) := opcodeByte_of _

theorem OpcodeByte.curAdv (n : Nat) : OpcodeByte.Statement (.curAdv n) := opcodeByte_of _

theorem OpcodeByte.curNorm : OpcodeByte.Statement .curNorm := opcodeByte_of _

theorem OpcodeByte.crc : OpcodeByte.Statement .crc := opcodeByte_of _

theorem OpcodeByte.crcBe : OpcodeByte.Statement .crcBe := opcodeByte_of _

theorem OpcodeByte.reorder : OpcodeByte.Statement .reorder := opcodeByte_of _

theorem OpcodeByte.disorder : OpcodeByte.Statement .disorder := opcodeByte_of _

theorem OpcodeByte.decParse : OpcodeByte.Statement .decParse := opcodeByte_of _

theorem OpcodeByte.decChan (idx : Nat) : OpcodeByte.Statement (.decChan idx) := opcodeByte_of _

theorem OpcodeByte.decSamples (idx : Nat) : OpcodeByte.Statement (.decSamples idx) := opcodeByte_of _

theorem OpcodeByte.decCheck : OpcodeByte.Statement .decCheck := opcodeByte_of _

theorem OpcodeByte.decStatus : OpcodeByte.Statement .decStatus := opcodeByte_of _

theorem OpcodeByte.encBuild : OpcodeByte.Statement .encBuild := opcodeByte_of _

theorem OpcodeByte.swap64 (tgt : SwapTarget) : OpcodeByte.Statement (.swap64 tgt) := opcodeByte_of _

theorem OpcodeByte.copyO2i : OpcodeByte.Statement .copyO2i := opcodeByte_of _

end Sys2Proof.Laws
end

