-- ==== Sys2Proof/Laws/Samples.lean ====
section
/-! SUPPORT. The decoding of one channel, said once: the walk over clusters that `Spec.Clusters` describes, and DEC_SAMPLES of a
channel whose body decodes. -/

namespace Sys2Proof.Machine

theorem codedSize_pos {wd : Nat} (h : 1 ≤ wd) (mode : DaqMode) (w : Width) : wd ≤ codedSize wd mode w := by
  unfold codedSize nb10
  cases w <;> (try simp only) <;> (try split) <;> omega

theorem clusters_le {m : Memory} {mode : DaqMode} {w : Width} {last q r : Nat} {cs : List (List Half)}
    (h : Spec.Clusters m mode w last q r cs) : q ≤ r := by
  induction h with
  | done => exact Nat.le_refl _
  | cluster => omega

/-- The cluster walk passes over the clusters that `Spec.Clusters` describes; what follows decides the rest (43_decoder.md
R300). -/
theorem walkClusters_append {m : Memory} {mode : DaqMode} {w : Width} {last q r : Nat} {cs : List (List Half)}
    (h : Spec.Clusters m mode w last q r cs) (idx : Nat) {fuel : Nat} (hf : last - q ≤ fuel) :
    ∃ rest, last - r ≤ rest ∧ walkClusters m mode w idx last fuel q =
      match walkClusters m mode w idx last rest r with
      | .ok (entries, k) => .ok (cs.flatten ++ entries, cs.length + k)
      | .error e => .error e := by
  induction h generalizing fuel with
  | done q =>
    refine ⟨fuel, hf, ?_⟩
    simp only [List.flatten_nil, List.nil_append, List.length_nil, Nat.zero_add]
    split <;> (rename_i h; rw [h])
  | @cluster q r a wd cs ha hw hpos hfit hlast hrest ih =>
    obtain ⟨fuel, rfl⟩ : ∃ f, fuel = f + 1 := ⟨fuel - 1, by omega⟩
    obtain ⟨rest, hr, ih⟩ := ih (fuel := fuel) (by omega)
    refine ⟨rest, hr, ?_⟩
    simp only [walkClusters, ← ha, ← hw]
    rw [if_neg (by omega), if_neg (by omega), if_neg (by omega), if_neg (by omega), if_neg (by omega), ih]
    split
    · rename_i h
      split at h
      · simp only [Except.ok.injEq, Prod.mk.injEq] at h
        obtain ⟨rfl, rfl⟩ := h
        simp only [List.flatten_cons, List.cons_append, List.append_assoc, List.length_cons, Nat.add_right_comm]
      · cases h
    · rename_i h
      split at h
      · cases h
      · exact h ▸ rfl

/-- A channel that resolves (43_decoder.md R290). -/
theorem resolveChannel_of_resolves {s : State} {idx : Nat} {ev : EventRecord} {c : ChannelEntry}
    (h : Spec.resolves s idx ev c) : resolveChannel s.ev idx = .ok (ev, c) := by
  obtain ⟨h1, h2, h3, rfl⟩ := h
  simp [resolveChannel, h1, h3, h2]

/-- The width a packet code stands for (30_encoding.md R180). -/
theorem widthOfPacketCode_of {mode : DaqMode} {w : Width} {pc : Byte} (h : packetCode mode w = some pc) :
    widthOfPacketCode mode pc = some w := by
  revert h
  cases mode <;> cases w <;> simp only [packetCode] <;> intro h <;> cases h <;> decide

theorem resKind_eq (mode : DaqMode) (w : Width) {k : Nat} (hk : k < 4) :
    resKind mode w (BitVec.ofNat 2 k) = BitVec.ofNat 11 (256 * modeCode mode + 16 * widthCode w + k) := by
  cases mode <;> cases w <;> (interval_cases k <;> rfl)

end Sys2Proof.Machine
end

