-- ==== Sys2Proof/Tests/Slice0.lean ====
section
/-! SUPPORT. Our own tests. The expected values come from the spec (95_test_vectors.md, by vector id) or are hand calculations from
the rule named; a `witness_` theorem shows a concrete case that meets the hypotheses of the statement it is named after. -/

-- One theorem is elaborated at a time: threads in flight reserve much address space.
set_option Elab.async false

open Sys2Proof Sys2Proof.Machine

namespace Sys2Proof.Tests

/-! ## Well-formedness -/

/-- A cursor offset of 24 bits is refused, one of 23 bits accepted. -/
theorem test_wellFormed_offset :
    (Instr.curByte 0x800000).wellFormed = false ∧ (Instr.curByte 0x7FFFFF).wellFormed = true ∧
      (Instr.curU16 0x800000 true).wellFormed = false ∧ (Instr.curU16 0x7FFFFF true).wellFormed = true ∧
      (Instr.curU32 0x800000 false).wellFormed = false ∧ (Instr.curU32 0x7FFFFF false).wellFormed = true := by decide

/-- A CUR_ADVANCE of 25 bits is refused. -/
theorem test_wellFormed_advance :
    (Instr.curAdv 0x1000000).wellFormed = false ∧ (Instr.curAdv 0xFFFFFF).wellFormed = true := by decide

/-- A channel index of 9 bits is refused. -/
theorem test_wellFormed_index :
    (Instr.decChan 256).wellFormed = false ∧ (Instr.decChan 255).wellFormed = true ∧
      (Instr.decSamples 256).wellFormed = false ∧ (Instr.decSamples 255).wellFormed = true := by decide

/-! ## Encodings (95_test_vectors.md section 2.1) -/

theorem test_decode_cursor :
    decode 0x00000001 = .ok (.curByte 0) ∧ decode 0x00000102 = .ok (.curU16 1 false) ∧
      decode 0x80000702 = .ok (.curU16 7 true) ∧ decode 0x80000203 = .ok (.curU32 2 true) ∧
      decode 0x00000804 = .ok (.curAdv 8) ∧ decode 0x00000005 = .ok .curNorm := by decide

theorem test_decode_crc_reorder :
    decode 0x00000010 = .ok .crc ∧ decode 0x00000011 = .ok .crcBe ∧ decode 0x00000020 = .ok .reorder ∧
      decode 0x00000021 = .ok .disorder := by decide

theorem test_decode_decoder :
    decode 0x00000030 = .ok .decParse ∧ decode 0x00001331 = .ok (.decChan 19) ∧ decode 0x00001332 = .ok (.decSamples 19) ∧
      decode 0x00000033 = .ok .decCheck ∧ decode 0x00000034 = .ok .decStatus := by decide

theorem test_decode_encoder_utility :
    decode 0x00000000 = .ok .nop ∧ decode 0x00000040 = .ok .encBuild ∧ decode 0x00000041 = .ok (.swap64 .ibuf) ∧
      decode 0x00000141 = .ok (.swap64 .obuf) ∧ decode 0x00000042 = .ok .copyO2i := by decide

/-- OP1 to OP4: reserved OPs, and ARG bits that no operand uses. -/
theorem test_decode_corners :
    decode 0x00000006 = .error (.reservedOp 6) ∧ decode 0x000000FF = .error (.reservedOp 0xFF) ∧
      decode 0xFFFFFF00 = .ok .nop ∧ decode 0x00FFFF31 = .ok (.decChan 0xFF) ∧
      decode 0xFFFFFF02 = .ok (.curU16 0x7FFFFF true) := by decide

theorem test_encode :
    encode (.curU16 7 true) = 0x80000702 ∧ encode (.curAdv 8) = 0x00000804 ∧ encode (.decSamples 19) = 0x00001332 ∧
      encode (.swap64 .obuf) = 0x00000141 := by decide

/-! ## One step of each command -/

/-- The state after a command, run on `s` as a latched command. -/
def after (i : Instr) (s : State) : State :=
  match step (s.withFetchWord 32 (encode i).toNat) with
  | .next t => t
  | .fault _ => s
  | .refused _ => s

/-- The error record of a state: ERR_CODE, ERR_OFFSET, ERR_CHANNEL, ERR_EXPECTED, ERR_ACTUAL. -/
def errorRecord (s : State) : List Nat :=
  [s.errs.code.toNat, s.errs.offset.toNat, s.errs.channel.toNat, s.errs.expected.toNat, s.errs.actual.toNat]

/-- A state with these first words of IBUF. -/
def withIbuf (ws : List Word) : State := { State.reset with mem := Memory.storeWords [] (ramBase .ibuf) ws }

/-- The start state of CU1 to CU9, with its cursor. -/
def cursorState (off rem : Word) : State :=
  { withIbuf [0x11223344, 0x55667788] with cur := { base := 0, off := off, rem := rem, data := 0 } }

/-- CU1, CU10, CU14. -/
theorem test_curByte :
    (after (.curByte 0) (cursorState 0 8)).cur.data = 0x11 ∧
      errorRecord (after (.curByte 0) (cursorState 8 0)) = [2, 8, 0xFF, 0, 1] := by decide +kernel

/-- CU2, CU3. -/
theorem test_curU16 :
    (after (.curU16 1 false) (cursorState 1 7)).cur.data = 0x3344 ∧
      (after (.curU16 1 true) (cursorState 1 7)).cur.data = 0x4433 := by decide +kernel

/-- CU4, CU5, CU13. -/
theorem test_curU32 :
    (after (.curU32 2 false) (cursorState 1 7)).cur.data = 0x44556677 ∧
      (after (.curU32 2 true) (cursorState 1 7)).cur.data = 0x77665544 ∧
      errorRecord (after (.curU32 2 false) (cursorState 0xFFFC 8)) = [2, 0xFFFE, 0xFF, 0x10000, 0x10002] := by
  decide +kernel

/-- CU7, CU8. -/
theorem test_curAdv :
    (after (.curAdv 3) (cursorState 1 7)).cur = { base := 0, off := 4, rem := 4, data := 0 } ∧
      (after (.curAdv 5) (cursorState 4 4)).cur = { base := 0, off := 4, rem := 4, data := 0 } ∧
      errorRecord (after (.curAdv 5) (cursorState 4 4)) = [2, 4, 0xFF, 4, 5] := by decide +kernel

/-- CU11. -/
theorem test_curNorm :
    (after .curNorm { State.reset with cur := { base := 0x13, off := 0x22, rem := 0, data := 0 } }).cur =
      { base := 0x34, off := 1, rem := 0, data := 0 } := by decide +kernel

/-- CR7, CR8. -/
theorem test_crc :
    (after .crc { cursorState 0 0 with crc := { start := 0, len := 8, result := 0 } }).crc.result = 0x5DB5 ∧
      errorRecord (after .crc { State.reset with crc := { start := 0xFFFC, len := 8, result := 0 } }) =
        [2, 0xFFFC, 0xFF, 0x10000, 0x10004] := by decide +kernel

/-- CR2, CR3, CR5. -/
theorem test_crc16 :
    crc16 [] = 0xFFFF ∧ crc16 [0x00] = 0xE1F0 ∧
      crc16 [0x31, 0x32, 0x33, 0x34, 0x35, 0x36, 0x37, 0x38, 0x39] = 0x29B1 := by decide +kernel

/-- CR11, CR12. -/
theorem test_crcBe :
    errorRecord (after .crcBe { State.reset with decLen := 1 }) = [1, 0, 0xFF, 8, 4] ∧
      errorRecord (after .crcBe { State.reset with decLen := 0x4001 }) = [0x31, 0, 0xFF, 16384, 16385] := by decide +kernel

/-- FIN[i] = i. -/
def frameState : State :=
  { State.reset with mem := Memory.storeHalves [] (ramBase .fin) ((List.range 128).map (BitVec.ofNat 16)) }

/-- RO1. -/
theorem test_reorder :
    (List.range 16).map (fun i => (ramHalf (after .reorder frameState).mem .fout i).toNat) =
      [0, 16, 32, 48, 64, 80, 96, 112, 4, 20, 36, 52, 68, 84, 100, 116] := by decide +kernel

/-- RO2. -/
theorem test_disorder :
    (List.range 16).map (fun i => (ramHalf (after .disorder frameState).mem .fout i).toNat) =
      [0, 32, 64, 96, 8, 40, 72, 104, 16, 48, 80, 112, 24, 56, 88, 120] := by decide +kernel

/-- The bytes of a unit of the ZS scenario event: twelve channels without clusters, padded to 88 bytes (95_test_vectors.md 2.6.2). -/
def emptyUnit : List Byte := (List.replicate 12 [0x07, 0x00, 0xEA, 0x00, 0x00, 0x00, 0x00]).flatten ++ List.replicate 4 0

/-- Unit 1 of the ZS scenario event: channel 19 holds the cluster of strip 5000. -/
def clusterUnit : List Byte :=
  (List.replicate 7 [0x07, 0x00, 0xEA, 0x00, 0x00, 0x00, 0x00]).flatten ++
    [0x0A, 0x00, 0xEA, 0x00, 0x00, 0x00, 0x00, 0x88, 0x01, 0xFF] ++
    (List.replicate 4 [0x07, 0x00, 0xEA, 0x00, 0x00, 0x00, 0x00]).flatten ++ [0x00]

/-- IBUF holds the ZS scenario event of 95_test_vectors.md 2.6.2, as 2.7 has it, with DEC_CFG and DEC_LEN for it. -/
def scenario : State :=
  { withIbuf
      ([0x50000000, 0x02A00000, 0x1A0000FF, 0x00000000] ++
        (List.replicate 8 [0xFFFFFFFF, 0xFFFFFFFF, 0xFF000000, 0x00005800]).flatten ++
        bytesToWords (emptyUnit ++ clusterUnit ++ (List.replicate 6 emptyUnit).flatten) ++ [0xA000006B, 0x4E400000]) with
    decCfg := 0x0000FF20
    decLen := 214 }

/-- DE1. -/
theorem test_decParse :
    let t := after .decParse scenario
    t.flags.err = false ∧ t.hdr.bx = 42 ∧ t.hdr.tshInfo = 0x000000A1 ∧ t.hdr.feRegs = 0x000000FF ∧
      t.hdr.decBytes = 856 ∧ t.hdr.trlLen = 107 ∧ t.hdr.trlInfo = 0x00004E40 ∧
      t.hdr.units.toList.map (fun u => u.off.toNat) = [144, 232, 320, 408, 496, 584, 672, 760] := by decide +kernel

/-- DE23, DE25. -/
theorem test_decParse_errors :
    errorRecord (after .decParse { scenario with decLen := 39 }) = [5, 156, 0xFF, 40, 39] ∧
      errorRecord (after .decParse { scenario with decLen := 100 }) = [2, 397, 35, 404, 400] := by decide +kernel

/-- DE10. -/
theorem test_decChan :
    (after (.decChan 19) (after .decParse scenario)).chan = { sel := 19, info := 0x000A3FEA, offset := 281 } := by
  decide +kernel

/-- DE15. -/
theorem test_decSamples :
    let t := after (.decSamples 19) (after .decParse scenario)
    t.res = { kind := 0x202, count := 3, cm := 0, nclus := 1 } ∧
      (List.range 3).map (fun k => (ramHalf t.mem .res k).toNat) = [136, 1, 255] := by decide +kernel

/-- DE33: no CRC is computed under SKIP_CRC. -/
theorem test_decCheck :
    let t := after .decCheck { after .decParse scenario with decCfg := 0x0000FF28 }
    t.crcComputed = 0 ∧ t.flags.crcChecked = false ∧ t.flags.lenMismatch = false ∧ t.flags.err = false := by decide +kernel

/-- DE14. -/
theorem test_noEvent :
    errorRecord (after (.decChan 200) scenario) = [0x14, 0, 0xFF, 1, 0] ∧
      errorRecord (after (.decSamples 0) scenario) = [0x14, 0, 0xFF, 1, 0] ∧
      errorRecord (after .decCheck scenario) = [0x14, 0, 0xFF, 1, 0] ∧
      errorRecord (after .decStatus scenario) = [0x14, 0, 0xFF, 1, 0] := by decide +kernel

/-- DE35: one status bit of channel 0 cleared. -/
theorem test_decStatus :
    let s := { scenario with mem := Memory.storeWords scenario.mem 0x10010 [0xFEFFFFFF] }
    let t := after .decStatus (after .decParse s)
    t.stat = { bad0 := 1, bad1 := 0, bad2 := 0, count := 1 } := by decide +kernel

/-- EN2, EN3. -/
theorem test_encBuild_refuses :
    errorRecord (after .encBuild { State.reset with enc := { State.reset.enc with cfg0 := 0x00014000 } }) =
        [0x31, 0, 0xFF, 0, 1] ∧
      errorRecord (after .encBuild { State.reset with enc := { State.reset.enc with cfg0 := 0x00005000 } }) =
        [0x31, 0, 0xFF, 4, 5] := by decide +kernel

/-- ZS2: the bytes of channel 0. -/
theorem test_encodedChannel :
    encodedChannel (Memory.storeHalves [] (ramBase .strip) [5, 6, 0, 1023])
        (encoderFields { State.reset.enc with cfg0 := 0x00013000 } .zeroSuppressedLite .w10) 0x8C 0 =
      [0x0C, 0x00, 0x8C, 0x00, 0x02, 0x01, 0x40, 0x60, 0x03, 0x01, 0xFF, 0xC0] := by decide +kernel

/-- UT1, and UT4: EV is kept when the length is refused. -/
theorem test_swap64 :
    (List.range 4).map (ramWord (after (.swap64 .obuf)
        { State.reset with
          mem := Memory.storeWords [] (ramBase .obuf) [0x50000000, 0x02A00000, 0x1A0000FF, 0]
          enc := { State.reset.enc with len := 4 } }).mem .obuf) = [0x02A00000, 0x50000000, 0, 0x1A0000FF] ∧
      errorRecord (after (.swap64 .ibuf) { State.reset with decLen := 0x4001 }) = [0x31, 0, 0xFF, 16384, 16385] := by
  decide +kernel

/-- UT2. -/
theorem test_copyO2i :
    let t := after .copyO2i
      { State.reset with
        mem := Memory.storeWords [] (ramBase .obuf) [0x50000000, 0x02A00000]
        enc := { State.reset.enc with len := 2 } }
    t.decLen = 2 ∧ ramWord t.mem .ibuf 0 = 0x50000000 ∧ ramWord t.mem .ibuf 1 = 0x02A00000 := by decide +kernel

/-- UT5: a NOP clears the error record; HZ2: ERR_P stays. -/
theorem test_nop :
    errorRecord (after .nop (after (.curByte 0) State.reset)) = [0, 0, 0xFF, 0, 0] ∧
      (after .nop (after (.curByte 0) State.reset)).irq.errP = true := by decide +kernel

/-! ## Witnesses: encoding and the engine -/

theorem witness_DecodeOfEncodeIsTheCommand : (Instr.curU16 0x7FFFFF true).wellFormed = true := by decide

theorem witness_UnusedArgumentBitsAreIgnored : decode 0x00FFFF31 = .ok (.decChan 0xFF) := by decide

/-- A state whose latch holds `cur.byte 0`, with this inbox. -/
def latched (inbox : List HostEvent) : State := { State.reset with pend := some { op := 0x01, arg := 0 }, inbox := inbox }

theorem witness_StepRunsTheDecodedCommand :
    (latched []).pend = some { op := 0x01, arg := 0 } ∧ decode (commandWord 0x01 0) = .ok (.curByte 0) ∧
      (latched []).inbox = [] ∧ (latched [.idle, .read 8]).inbox = .idle :: [.read 8] ∧
      State.reset.pend = none ∧ State.reset.inbox = [] := by decide

theorem witness_ReservedOpRaisesIllegalOpcode :
    Spec.reservedOp (0x06 : Byte).toNat ∧ Spec.reservedOp (0xFF : Byte).toNat ∧
      { State.reset with pend := some { op := 0x06, arg := 0 } }.inbox = [] ∧
      { State.reset with pend := some { op := 0xFF, arg := 0 }, inbox := [.idle] }.inbox = .idle :: [] := by
  refine ⟨?_, ?_, rfl, rfl⟩ <;> simp [Spec.reservedOp]

theorem witness_FailureWritesOnlyItsTable :
    ∃ t, exec (.curByte 0) State.reset = .next t ∧ t.flags.err = true := ⟨_, rfl, rfl⟩

theorem witness_CommandIgnoresHostSide :
    Spec.sameForEngine State.reset (latched [.idle]) ∧ (∃ t, exec (.curByte 0) State.reset = .next t) ∧
      ∃ t, exec (.curByte 0) (latched [.idle]) = .next t := ⟨rfl, exec_next _ _, exec_next _ _⟩

theorem witness_CommandsWriteOnlyTheirState_CrcResultHasNoAuthority : ∃ t, exec .crc State.reset = .next t := exec_next _ _

/-! ## Witnesses: cursor, coding, CRC, permutation -/

/-- A state with this cursor. -/
def cursorAt (base rem : Word) : State := { State.reset with cur := { base := base, off := 0, rem := rem, data := 0 } }

theorem witness_cursorReads :
    (0 + 1 ≤ (cursorAt 0xFFFF 1).cur.rem.toNat ∧ Spec.cursor (cursorAt 0xFFFF 1) + 0 + 1 ≤ 4 * 16384) ∧
      (0 + 2 ≤ (cursorAt 0xFFFE 2).cur.rem.toNat ∧ Spec.cursor (cursorAt 0xFFFE 2) + 0 + 2 ≤ 4 * 16384) ∧
      (0 + 4 ≤ (cursorAt 0xFFFC 4).cur.rem.toNat ∧ Spec.cursor (cursorAt 0xFFFC 4) + 0 + 4 ≤ 4 * 16384) := by decide

theorem witness_CursorReadOutOfRange :
    (cursorAt 0 0).cur.rem.toNat < 0 + 1 ∧ (cursorAt 0 1).cur.rem.toNat < 0 + 2 ∧ (cursorAt 0 3).cur.rem.toNat < 0 + 4 ∧
      (0 + 2 ≤ (cursorAt 0xFFFF 2).cur.rem.toNat ∧ 4 * 16384 < Spec.cursor (cursorAt 0xFFFF 2) + 0 + 2) := by decide

theorem witness_CurAdvanceMovesTheCursor :
    4 ≤ (cursorAt 0 4).cur.rem.toNat ∧ (cursorAt 0 4).cur.rem.toNat < 5 := by decide

theorem witness_LogicalByteOfItsWord_TenBitPacking : 65535 < 4 * 16384 ∧ 39 < 8 * ((10 * 4 + 7) / 8) := by decide

/-- The values 0x3FF, 0, 0x155, 0x2AA in 10-bit form at logical byte 0. -/
theorem witness_DecodeOfCodedValues :
    ∀ j < (codeValues .virginRaw .w10 [0x3FF, 0x000, 0x155, 0x2AA]).length,
      logicalByte (withIbuf [0xFFC00556, 0xAA000000]).mem (0 + j) =
        (codeValues .virginRaw .w10 [0x3FF, 0x000, 0x155, 0x2AA]).getD j 0 := by decide +kernel

/-- A state with this CRC range. -/
def crcRange (start len : Word) : State := { State.reset with crc := { start := start, len := len, result := 0 } }

theorem witness_CrcOfARange :
    (crcRange 0xFFFC 4).crc.start.toNat + (crcRange 0xFFFC 4).crc.len.toNat ≤ 4 * 16384 ∧
      4 * 16384 < (crcRange 0xFFFC 5).crc.start.toNat + (crcRange 0xFFFC 5).crc.len.toNat := by decide

/-- A state with this DEC_LEN and DEC_CFG. -/
def parseState (len cfg : Word) : State := { State.reset with decLen := len, decCfg := cfg }

theorem witness_BestEffortCrc :
    2 ≤ (parseState 2 0).decLen.toNat ∧ (parseState 2 0).decLen.toNat ≤ 16384 ∧
      16384 < (parseState 16385 0).decLen.toNat ∧ (parseState 1 0).decLen.toNat < 2 := by decide

/-- The state after REORDER of FIN[i] = i, its FOUT copied into FIN. -/
def reordered : State :=
  let t := after .reorder frameState
  { t with mem := Memory.storeHalves t.mem (ramBase .fin) (Memory.halves t.mem (ramBase .fout) 128) }

theorem witness_ReorderAndDisorderCancel :
    (∃ t, exec .reorder frameState = .next t) ∧
      (∀ k < 128, ramHalf reordered.mem .fin k = ramHalf (after .reorder frameState).mem .fout k) ∧
      ∃ v, exec .disorder reordered = .next v := ⟨exec_next _ _, by decide +kernel, exec_next _ _⟩

/-! ## Witnesses: the decoder -/

/-- DEC_LEN and DEC_CFG that fail each of the first four checks and no earlier one: MODE 5, 16385 words, 37 words of 38, and
39 words. -/
theorem witness_ParseRefusesBadConfiguration :
    5 ≤ ((parseState 38 0xFF50).decCfg.extractLsb' 4 3).toNat ∧
      ((parseState 16385 0xFF40).decCfg.extractLsb' 4 3).toNat < 5 ∧ 16384 < (parseState 16385 0xFF40).decLen.toNat ∧
      4 * (parseState 37 0xFF40).decLen.toNat < 16 + 128 + 8 ∧
      (16 + 128 + 8 ≤ 4 * (parseState 39 0xFF40).decLen.toNat ∧ (parseState 39 0xFF40).decLen.toNat % 2 = 1) := by decide

/-- A legacy ApvError event with unit 0 enabled and these payload words after the 24 bytes of FE headers. -/
def legacyEvent (len : Word) (payload : List Word) : State :=
  { withIbuf (List.replicate 8 0 ++ payload) with decLen := len, decCfg := 0x0136 }

/-- Twelve zero-suppressed-lite channels without clusters, each of 3 bytes. -/
def emptyChannels : List Word := [0x0300EC03, 0x00EC0300, 0xEC0300EC, 0x0300EC03, 0x00EC0300, 0xEC0300EC,
  0x0300EC03, 0x00EC0300, 0xEC0300EC]

/-- Where the units of `legacyEvent` start: 36 bytes of unit 0, padded to 40, from byte 32 on. -/
def unitStart (u : Nat) : Nat := if u = 0 then 32 else 72

/-- Where the channels of `legacyEvent` start. -/
def channelStart (ch : Nat) : Nat := 32 + 3 * ch

/-- The walk of `legacyEvent` goes through if the event has room for unit 0. -/
theorem legacyEvent_walked (len : Word) (hlen : 68 ≤ 4 * len.toNat) :
    Spec.walked (legacyEvent len emptyChannels) unitStart channelStart 8 := by
  have henable : ∀ u < 8, (1 : BitVec 8).getLsbD u = decide (u = 0) := by decide
  have hmem : ∀ c < 12, Spec.channelLength (legacyEvent len emptyChannels).mem (channelStart (12 * 0 + c)) = 3 :=
    show ∀ c < 12, Spec.channelLength (legacyEvent 20 emptyChannels).mem (channelStart (12 * 0 + c)) = 3 by decide +kernel
  have zero : ∀ u < 8, (1 : BitVec 8).getLsbD u = true → u = 0 := fun u hu he => by
    rw [henable u hu] at he; exact of_decide_eq_true he
  have hlegacy : (0x0136 : Word).getLsbD 2 = true := by decide
  have hE : Spec.decEnable (legacyEvent len emptyChannels) = 1 := 
    (if_pos hlegacy).trans (show (0x0136 : Word).extractLsb' 8 8 = 1 by decide)
  have hF : Spec.decHeaderFormat (legacyEvent len emptyChannels) = .apvError :=
    if_pos (show (0x0136 : Word).getLsbD 1 = true by decide)
  have hS : Spec.decStart (legacyEvent len emptyChannels) = 8 := if_pos hlegacy
  rw [Spec.walked, hE, hF, hS]
  refine ⟨by decide, fun u hu he => ?_, fun u hu he => ?_, fun u hu he c hc => ?_, fun u hu he c hc => ?_, nofun,
    fun _ u hu he => ?_⟩
  · have hn : u ≠ 0 := fun h0 => by subst h0; exact absurd he (by decide)
    simp [unitStart, hn]
  · rw [zero u hu he]; rfl
  · rw [zero u hu he, hmem c (by omega)]
    rfl
  · rw [zero u hu he, hmem c hc]
    simp only [channelStart, legacyEvent]
    omega
  · rw [zero u hu he, hmem 11 (by omega)]
    rfl

/-- The walk goes through, and the trailer fits 20 words exactly. -/
theorem witness_ParseBuildsTheEvent :
    Spec.parseable (legacyEvent 20 emptyChannels) .zeroSuppressedLite ∧
      Spec.walked (legacyEvent 20 emptyChannels) unitStart channelStart 8 ∧
      unitStart 8 + 8 ≤ 4 * (legacyEvent 20 emptyChannels).decLen.toNat :=
  ⟨⟨by decide, by decide, by decide, by decide⟩, legacyEvent_walked _ (by decide), by decide⟩

/-- The walk goes through, and the trailer does not fit 18 words. -/
theorem witness_ParseWalkErrors_trailer :
    Spec.parseable (legacyEvent 18 emptyChannels) .zeroSuppressedLite ∧
      Spec.walked (legacyEvent 18 emptyChannels) unitStart channelStart 8 ∧
      4 * (legacyEvent 18 emptyChannels).decLen.toNat < unitStart 8 + 8 :=
  ⟨⟨by decide, by decide, by decide, by decide⟩, legacyEvent_walked _ (by decide), by decide⟩

/-- Nothing is walked before unit 0. -/
theorem walked_zero (s : State) (p q : Nat → Nat)
    (h : p 0 = Spec.decStart s + (if Spec.decHeaderFormat s = .fullDebug then 128 else 24)) : Spec.walked s p q 0 :=
  ⟨h, fun _ hu => absurd hu (Nat.not_lt_zero _), fun _ hu => absurd hu (Nat.not_lt_zero _),
    fun _ hu => absurd hu (Nat.not_lt_zero _), fun _ hu => absurd hu (Nat.not_lt_zero _),
    fun _ _ hu => absurd hu (Nat.not_lt_zero _), fun _ _ hu => absurd hu (Nat.not_lt_zero _)⟩

/-- No channel is walked yet. -/
theorem channelWalk_zero (m : Memory) (nb : Nat) (p q : Nat → Nat) (h : q 0 = p 0) : Spec.ChannelWalk m nb p q 0 0 :=
  ⟨h, fun _ hu => absurd hu (Nat.not_lt_zero _), fun _ hu => absurd hu (Nat.not_lt_zero _)⟩

/-- A channel of length 2, and one of 9 bytes where 8 are left. -/
theorem witness_ParseWalkErrors_channel :
    Spec.parseable (legacyEvent 10 [0x0200EC00]) .zeroSuppressedLite ∧
      Spec.walked (legacyEvent 10 [0x0200EC00]) (fun _ => 32) (fun _ => 32) 0 ∧
      Spec.ChannelWalk (legacyEvent 10 [0x0200EC00]).mem 40 (fun _ => 32) (fun _ => 32) 0 0 ∧
      Spec.channelLength (legacyEvent 10 [0x0200EC00]).mem 32 < 3 ∧
      40 < 32 + Spec.channelLength (legacyEvent 10 [0x0900EC00]).mem 32 :=
  ⟨⟨by decide, by decide, by decide, by decide⟩, walked_zero _ _ _ (by decide), channelWalk_zero _ _ _ _ rfl,
    by decide +kernel, by decide +kernel⟩

/-- A second channel whose length field starts at the last byte of the buffer. -/
theorem witness_ParseWalkErrors_field :
    Spec.parseable (legacyEvent 10 [0x0700EC00]) .zeroSuppressedLite ∧
      Spec.walked (legacyEvent 10 [0x0700EC00]) (fun _ => 32) (fun ch => 32 + 7 * ch) 0 ∧
      Spec.ChannelWalk (legacyEvent 10 [0x0700EC00]).mem 40 (fun _ => 32) (fun ch => 32 + 7 * ch) 0 1 ∧
      40 < (32 + 7 * (12 * 0 + 1)) + 2 :=
  ⟨⟨by decide, by decide, by decide, by decide⟩, walked_zero _ _ _ (by decide),
    ⟨rfl, by decide +kernel, by decide +kernel⟩, by decide⟩

/-- A legacy FullDebug event whose unit 0 holds 36 bytes against a recorded length of 35. -/
def overrunEvent : State :=
  { withIbuf (List.replicate 5 0 ++ [0x00002300] ++ List.replicate 28 0 ++ emptyChannels) with
    decLen := 46
    decCfg := 0x0134 }

theorem witness_ParseWalkErrors_overrun :
    Spec.parseable overrunEvent .zeroSuppressedLite ∧
      Spec.walked overrunEvent (fun _ => 136) (fun ch => 136 + 3 * ch) 0 ∧ (Spec.decEnable overrunEvent).getLsbD 0 = true ∧
      Spec.ChannelWalk overrunEvent.mem 184 (fun _ => 136) (fun ch => 136 + 3 * ch) 0 12 ∧
      Spec.decHeaderFormat overrunEvent = .fullDebug ∧
      Spec.channelLength overrunEvent.mem (Spec.decStart overrunEvent + 16 * 0 + 14) < 136 + 3 * (12 * 0 + 12) - 136 :=
  ⟨⟨by decide, by decide, by decide, by decide⟩, walked_zero _ _ _ (by decide), by decide,
    ⟨rfl, by decide +kernel, by decide +kernel⟩, by decide, by decide +kernel⟩

/-- An event record of this mode, every unit enabled but unit 1, every channel the same. -/
def heldRecord (mode : DaqMode) (entry : ChannelEntry) : EventRecord :=
  { evfmt := .standard, hdrfmt := .apvError, legacy := true, mode := mode, nbytes := 80, h0 := 8, enable := 0xFD,
    chan := Vector.replicate 96 entry, t := 72 }

/-- A state that holds `heldRecord`. -/
def held (mode : DaqMode) (entry : ChannelEntry) (s : State) : State := { s with ev := some (heldRecord mode entry) }

/-- Channels 0 and 95 of `held` resolve. -/
theorem held_resolves (mode : DaqMode) (entry : ChannelEntry) (s : State) :
    Spec.resolves (held mode entry s) 0 (heldRecord mode entry) entry ∧
      Spec.resolves (held mode entry s) 95 (heldRecord mode entry) entry :=
  ⟨⟨rfl, by simp [heldRecord], by omega, by simp [heldRecord]⟩,
    ⟨rfl, by simp [heldRecord], by omega, by simp [heldRecord]⟩⟩

theorem witness_AccessorErrors :
    State.reset.ev = none ∧ (held .scope ChannelEntry.absent State.reset).ev = some (heldRecord .scope ChannelEntry.absent) ∧
      96 ≤ 96 ∧ (heldRecord .scope ChannelEntry.absent).enable.getLsbD (12 / 12) = false := ⟨rfl, rfl, le_rfl, rfl⟩

theorem witness_DecChannelReportsTheChannel_ChannelStatusBits_DecCheck_DecStatuses :
    (held .scope ChannelEntry.absent State.reset).ev = some (heldRecord .scope ChannelEntry.absent) ∧
      (heldRecord .scope ChannelEntry.absent).enable.getLsbD (95 / 12) = true ∧
      (heldRecord .scope ChannelEntry.absent).hdrfmt = .apvError ∧
      (held .scope ChannelEntry.absent (parseState 20 8)).decCfg.getLsbD 3 = true ∧
      (held .scope ChannelEntry.absent (parseState 20 0)).decCfg.getLsbD 3 = false := ⟨rfl, rfl, rfl, rfl, rfl⟩

/-- A raw channel of 256 one-byte values. -/
theorem witness_DecSamplesOfARawChannel :
    let entry : ChannelEntry := { off := 32, len := 259, pcode := 0xC6 }
    Spec.resolves (held .virginRaw entry State.reset) 95 (heldRecord .virginRaw entry) entry ∧
      packetCode .virginRaw .botbot = some entry.pcode ∧ entry.len = 3 + codedSize 256 .virginRaw .botbot :=
  ⟨(held_resolves _ _ _).2, rfl, rfl⟩

/-- A Scope channel of one value; one without any is the boundary. -/
theorem witness_DecSamplesOfAScopeChannel :
    let entry : ChannelEntry := { off := 32, len := 5, pcode := 0xE1 }
    Spec.resolves (held .scope entry State.reset) 95 (heldRecord .scope entry) entry ∧ entry.pcode = 0xE1 ∧
      (entry.len - 3) % 2 = 0 ∧ (3 - 3) % 2 = 0 := ⟨(held_resolves _ _ _).2, rfl, rfl, rfl⟩

/-- A channel of one cluster of one strip, with medians and without. -/
theorem witness_DecSamplesOfClusters :
    let zs : ChannelEntry := { off := 32, len := 10, pcode := 0xEA }
    let lite : ChannelEntry := { off := 32, len := 6, pcode := 0xEC }
    let mzs := (legacyEvent 20 [0x0A00EA00, 0x000000FF, 0x012A0000]).mem
    let mlite := (legacyEvent 20 [0x0600ECFF, 0x012A0000]).mem
    Spec.resolves (held .zeroSuppressed zs { State.reset with mem := mzs }) 0 (heldRecord .zeroSuppressed zs) zs ∧
      packetCode .zeroSuppressed .std = some zs.pcode ∧ Spec.clusterStart .zeroSuppressed zs ≤ zs.off + zs.len ∧
      (∃ cs, Spec.Clusters mzs .zeroSuppressed .std 42 (Spec.clusterStart .zeroSuppressed zs) 42 cs ∧ cs.length = 1) ∧
      ∃ cs, Spec.Clusters mlite .zeroSuppressedLite .std 38 (Spec.clusterStart .zeroSuppressedLite lite) 38 cs ∧
        cs.length = 1 := by
  refine ⟨(held_resolves _ _ _).1, rfl, by decide, ⟨[_], .cluster rfl rfl ?_ ?_ ?_ ?_, rfl⟩,
    ⟨[_], .cluster rfl rfl ?_ ?_ ?_ ?_, rfl⟩⟩
  case refine_4 => exact .done 42
  case refine_8 => exact .done 38
  all_goals decide +kernel

theorem witness_PacketCodeIsChecked :
    let entry : ChannelEntry := { off := 32, len := 5, pcode := 0xE6 }
    Spec.resolves (held .zeroSuppressed entry State.reset) 95 (heldRecord .zeroSuppressed entry) entry ∧
      (∀ w, packetCode .zeroSuppressed w ≠ some entry.pcode) ∧ packetCode .zeroSuppressed .std = some 0xEA :=
  ⟨(held_resolves _ _ _).2, fun w => by cases w <;> decide, rfl⟩

/-- Each clause at a boundary: a raw length one too long, an odd Scope length, a ZeroSuppressed length of 6, and cluster bodies of
one byte, of width 0, of address + width 257, and of a value past the end. -/
theorem witness_PayloadIsChecked :
    (260 : Nat) ≠ 3 + codedSize 256 .virginRaw .botbot ∧ (4 - 3) % 2 = 1 ∧ (6 < 7) ∧
      (∀ entry : ChannelEntry, entry = { off := 32, len := 4, pcode := 0xEC } ∨ entry = { off := 32, len := 5, pcode := 0xEC } →
        Spec.resolves (held .zeroSuppressedLite entry State.reset) 95 (heldRecord .zeroSuppressedLite entry) entry ∧
          packetCode .zeroSuppressedLite .std = some entry.pcode ∧ 3 ≤ entry.len ∧
          Spec.Clusters State.reset.mem .zeroSuppressedLite .std (entry.off + entry.len)
            (Spec.clusterStart .zeroSuppressedLite entry) (Spec.clusterStart .zeroSuppressedLite entry) [] ∧
          Spec.clusterStart .zeroSuppressedLite entry < entry.off + entry.len) ∧
      32 + 4 < 35 + 2 ∧ 35 + 2 ≤ 32 + 5 ∧ (logicalByte (legacyEvent 20 [0x0500EC05, 0]).mem 36).toNat = 0 ∧
      256 < (logicalByte (legacyEvent 20 [0x0500ECFF, 0x02000000]).mem 35).toNat +
        (logicalByte (legacyEvent 20 [0x0500ECFF, 0x02000000]).mem 36).toNat ∧
      32 + 5 < 35 + 2 + codedSize (logicalByte (legacyEvent 20 [0x0500EC05, 0x01000000]).mem 36).toNat
        .zeroSuppressedLite .std := by
  refine ⟨by decide, by decide, by decide, fun entry h => ?_, by decide, by decide, by decide +kernel, by decide +kernel,
    by decide +kernel⟩
  refine ⟨(held_resolves _ _ _).2, ?_, ?_, .done _, ?_⟩ <;> obtain rfl | rfl := h <;> decide

/-! ## Witnesses: the encoder and the buffers -/

/-- A reset state with this ENC_CFG0. -/
def encState (cfg0 : Word) : State := { State.reset with enc := { State.reset.enc with cfg0 := cfg0 } }

theorem witness_EncBuildWritesAnEvent_EncodedEventParsesBack :
    Spec.encodes (encState 0) .virginRaw .std ∧ Spec.encodes (encState 0x4000) .scope .std ∧
      Spec.encodes (encState 0x00033000) .zeroSuppressedLite .topbot :=
  ⟨⟨rfl, rfl, nofun⟩, ⟨rfl, rfl, fun _ => rfl⟩, ⟨rfl, rfl, nofun⟩⟩

theorem witness_EncBuildRefusesBadConfiguration :
    5 ≤ ((encState 0x5000).enc.cfg0.extractLsb' 12 3).toNat ∧ ((encState 0x14000).enc.cfg0.extractLsb' 12 3).toNat = 4 ∧
      ((encState 0x14000).enc.cfg0.extractLsb' 16 2).toNat ≠ 0 := by decide

/-- No strip of the reset state is above the threshold, so no APV has a run. -/
theorem witness_EncBuildWritesAnEvent_runs : Spec.runsOf (encState 0) fun _ _ => [] := by
  intro ch _ apv _
  refine ⟨.nil, nofun, nofun, fun k h => absurd h.2 ?_⟩
  have : (Spec.stripValue (encState 0) ch (128 * apv + k)).toNat = 0 := by
    simp [Spec.stripValue, ramHalf, Memory.half, encState, State.reset, Memory.read, Config.unwrittenByte]
  rw [this]
  decide

/-- Every encoded event can be copied and parsed. -/
theorem encodedAndCopied_exists (s : State) (skipCrc : Bool) (extEnable : BitVec 8) (h : s.enc.cfg0.getLsbD 18 = false) :
    ∃ u t, Spec.encodedAndCopied s u skipCrc extEnable ∧ exec .decParse u = .next t := by
  obtain ⟨t1, h1⟩ := exec_next .encBuild s
  obtain ⟨t2, h2⟩ := exec_next .copyO2i t1
  refine ⟨_, _, ⟨t1, t2, t2, h1, h2, ?_, rfl⟩, (exec_next .decParse _).choose_spec⟩
  rw [h]; rfl

theorem witness_RawEventsRoundTrip :
    Spec.encodes (encState 0) .virginRaw .std ∧
      (∃ u t, Spec.encodedAndCopied (encState 0) u false 0xFF ∧ exec .decParse u = .next t) ∧
      Spec.encodes (encState 0x4000) .scope .std ∧
      ∃ u t, Spec.encodedAndCopied (encState 0x4000) u false 0xFF ∧ exec .decParse u = .next t :=
  ⟨⟨rfl, rfl, nofun⟩, encodedAndCopied_exists _ _ _ rfl, ⟨rfl, rfl, fun _ => rfl⟩, encodedAndCopied_exists _ _ _ rfl⟩

/-- A ZeroSuppressed configuration with STRIP[0] = 5. -/
def oneStrip : State := { encState 0x2000 with mem := Memory.storeHalves [] (ramBase .strip) [5] }

theorem witness_ZeroSuppressedEventsRoundTrip :
    Spec.encodes oneStrip .zeroSuppressed .std ∧
      (∃ u t, Spec.encodedAndCopied oneStrip u false 0xFF ∧ exec .decParse u = .next t) ∧
      Spec.Runs (Spec.aboveThreshold oneStrip 0 0) [(0, 1)] ∧ Spec.Runs (Spec.aboveThreshold oneStrip 0 1) [] := by
  have above : ∀ k < 128, (oneStrip.enc.cfg2.extractLsb' 20 10).toNat < min (Spec.stripValue oneStrip 0 (128 * 0 + k)).toNat 1023 ↔
      k = 0 := by decide +kernel
  have none : ∀ k < 128, ¬ (oneStrip.enc.cfg2.extractLsb' 20 10).toNat < min (Spec.stripValue oneStrip 0 (128 * 1 + k)).toNat 1023 := by
    decide +kernel
  refine ⟨⟨rfl, rfl, nofun⟩, encodedAndCopied_exists _ _ _ rfl, ⟨by simp, ?_, ?_, ?_⟩, ⟨by simp, by simp, by simp, ?_⟩⟩
  · rintro r hr
    obtain rfl := List.mem_singleton.1 hr
    refine ⟨le_rfl, fun k hk => ?_⟩
    obtain rfl : k = 0 := by simpa using hk
    exact ⟨by decide, (above 0 (by decide)).2 rfl⟩
  · rintro r hr
    obtain rfl := List.mem_singleton.1 hr
    exact ⟨fun h => absurd ((above 1 h.1).1 h.2) (by decide), fun h => absurd h (by decide)⟩
  · intro k h
    obtain rfl := (above k h.1).1 h.2
    exact ⟨(0, 1), List.mem_singleton.2 rfl, le_rfl, Nat.one_pos⟩
  · exact fun k h => absurd h.2 (none k h.1)

theorem witness_Swap64_CopyO2i_lengths :
    (parseState 16384 0).decLen.toNat ≤ 16384 ∧ 16384 < (parseState 16385 0).decLen.toNat ∧
      { State.reset with enc := { State.reset.enc with len := 16384 } }.enc.len.toNat ≤ 16384 ∧
      16384 < { State.reset with enc := { State.reset.enc with len := 16385 } }.enc.len.toNat := by decide

theorem witness_Swap64TwiceRestores :
    Memory.wf (withIbuf [1, 2]).mem ∧ ∃ t, exec (.swap64 .ibuf) (withIbuf [1, 2]) = .next t ∧
      ∃ u, exec (.swap64 .ibuf) t = .next u :=
  ⟨by decide +kernel, (exec_next _ _).choose, (exec_next _ _).choose_spec, exec_next _ _⟩

/-! ## Witnesses: the host and the whole machine -/

/-- A reset state with this inbox. -/
def hostState (inbox : List HostEvent) : State := { State.reset with inbox := inbox }

theorem witness_HostReadsAndWritesTheRegisterMap :
    (hostState [.read 0xFFC]).pend = none ∧ (hostState [.read 0xFFC]).inbox = .read 0xFFC :: [] ∧
      (0xFFC : BusAddr).toNat < 0x1000 ∧ (hostState [.write 0x044 7]).inbox = .write 0x044 7 :: [] := ⟨rfl, rfl, by decide, rfl⟩

/-- The last entry of RES, the first of IBUF, and the first address past FIN and before FOUT, which is no RAM's. -/
theorem witness_HostAccessesTheRams :
    65535 < ramEntries .res ∧ (0xBFFFF : BusAddr).toNat / 4 * 4 = ramBase .res + 4 * 65535 ∧
      (0x10000 : BusAddr).toNat / 4 * 4 = ramBase .ibuf + 4 * 0 ∧ 0x1000 ≤ (0x60300 : BusAddr).toNat ∧
      ∀ r i, i < ramEntries r → (0x60300 : BusAddr).toNat / 4 * 4 ≠ ramBase r + 4 * i := by
  refine ⟨by decide, by decide, by decide, by decide, fun r i hi => ?_⟩
  cases r <;> simp [ramEntries, ramBase, Config.ibufWords, Config.obufWords, Config.resDepth] at hi ⊢ <;> omega

theorem witness_HostAccessesWhileBusy :
    (latched [.read 0x008]).pend ≠ none ∧ (latched [.read 0x008]).inbox = .read 0x008 :: [] ∧
      (0x008 : BusAddr).toNat / 4 * 4 ∈ [0x000, 0x008, 0x00C, 0x010] ∧
      (0x014 : BusAddr).toNat / 4 * 4 ∉ [0x000, 0x008, 0x00C, 0x010] ∧
      (latched [.read 0x014]).inbox = .read 0x014 :: [] ∧
      (latched [.write 0x004 0]).inbox = .write 0x004 0 :: [] ∧ (0x007 : BusAddr).toNat / 4 * 4 = 0x004 := by decide

/-- Writes that take effect, at STATUS, IRQ_EN and IRQ_PEND, each in the register map, one to ID, which is ignored, and writes that
are refused, to ERR_CODE and to IBUF. -/
theorem witness_HostAccessesWhileBusy_writes :
    ([(0x008 : BusAddr), 0x00C, 0x010].map fun a => a.toNat / 4 * 4) = [0x008, 0x00C, 0x010] ∧
      (∀ n ∈ [0x008, 0x00C, 0x010], n ∈ (Spec.writeTable (latched []) 3).map Prod.fst) ∧
      (0x003 : BusAddr).toNat / 4 * 4 = 0x000 ∧
      (∀ n ∈ [(0x014 : BusAddr), 0x10000].map fun a => a.toNat / 4 * 4, n ∉ [0x000, 0x004, 0x008, 0x00C, 0x010]) ∧
      ∀ a, (latched [.write a 3]).pend ≠ none ∧ (latched [.write a 3]).inbox = .write a 3 :: [] :=
  ⟨by decide, by simp [Spec.writeTable], by decide, by decide, fun _ => ⟨nofun, rfl⟩⟩

/-- What those writes do: IRQ_EN takes effect without BUSY_ACCESS, a write to ID is ignored (log entry 7), one to ERR_CODE is refused. -/
theorem test_writes_while_busy :
    (hostWrite 0x00C 3 (latched [])).irq.errEn = true ∧ (hostWrite 0x00C 3 (latched [])).flags.busyAccess = false ∧
      hostWrite 0x000 3 (latched []) = latched [] ∧ (hostWrite 0x014 3 (latched [])).flags.busyAccess = true ∧
      (hostWrite 0x004 0 (latched [])).flags.cmdOverrun = true ∧
      (hostWrite 0x004 0 (latched [])).flags.busyAccess = false := by decide +kernel

theorem witness_IrqIsALevel :
    { State.reset with irq := { doneEn := true, errEn := true, doneP := false, errP := false } }.irq.doneEn = true ∧
      (∃ t, exec (.curByte 0) State.reset = .next t ∧ t.flags.err = true) ∧
      (hostState [.write 0x10 3]).inbox = .write 0x10 3 :: [] ∧ (3 : Word).getLsbD 0 = true ∧ (3 : Word).getLsbD 1 = true ∧
      ∃ t, step (hostState [.write 0x10 3]) = .next t := ⟨rfl, ⟨_, rfl, rfl⟩, rfl, rfl, rfl, _, rfl⟩

theorem witness_ResetLeavesTheResetValues : (hostState [.rst]).inbox = .rst :: [] := rfl

/-- The legacy event of `legacyEvent` parses. -/
theorem legacyEvent_parses :
    ∃ p, parseEvent (legacyEvent 20 emptyChannels).mem (legacyEvent 20 emptyChannels).decCfg 20 = .ok p := by
  have h : (parseEvent (legacyEvent 20 emptyChannels).mem (legacyEvent 20 emptyChannels).decCfg 20).toBool = true := by
    decide +kernel
  cases hp : parseEvent (legacyEvent 20 emptyChannels).mem (legacyEvent 20 emptyChannels).decCfg 20 with
  | ok p => exact ⟨p, rfl⟩
  | error e => rw [hp] at h; exact absurd h Bool.false_ne_true

/-- The state after that parse. -/
noncomputable def eventHeld : State :=
  { legacyEvent 20 emptyChannels with
    ev := some legacyEvent_parses.choose.ev
    hdr := legacyEvent_parses.choose.hdr }

theorem witness_StepKeepsEventIsCurrent :
    eventHeld.ev ≠ none ∧ EventIsCurrent eventHeld ∧ ∃ t, step eventHeld = .next t := by
  refine ⟨nofun, fun ev h => ⟨(legacyEvent 20 emptyChannels).decCfg, 20, ?_⟩, _, rfl⟩
  obtain rfl := Option.some.inj h
  exact legacyEvent_parses.choose_spec

/-- A state that holds an event record, with DEC_CHECK latched. -/
noncomputable def checkLatched : State :=
  { legacyEvent 20 emptyChannels with ev := some legacyEvent_parses.choose.ev, pend := some { op := 0x33, arg := 0 } }

theorem witness_StepKeepsInv : Inv checkLatched ∧ ∃ t, step checkLatched = .next t := by
  refine ⟨⟨⟨?_, ?_⟩, ⟨rfl, rfl, rfl, rfl, rfl, rfl⟩, ⟨fun _ => rfl, ⟨nofun, fun h => absurd rfl h⟩, nofun, nofun⟩,
    ⟨by decide, rfl, nofun⟩, by decide, fun ev h => ?_⟩, exec_next .decCheck checkLatched⟩
  · show Memory.wf (legacyEvent 20 emptyChannels).mem
    decide +kernel
  · show ∀ c ∈ (legacyEvent 20 emptyChannels).mem, isRamByte c.1 = true
    decide +kernel
  · obtain rfl := Option.some.inj h
    exact recordOk_of_parseEvent legacyEvent_parses.choose_spec

theorem witness_LatchedCommandCompletes :
    (latched [.read 8, .write 4 0, .idle]).pend = some { op := 0x01, arg := 0 } ∧
      decode (commandWord 0x01 0) = .ok (.curByte 0) ∧
      (∀ e ∈ [HostEvent.read 8, .write 4 0], e ≠ .idle ∧ e ≠ .rst) ∧
      (latched [.read 8, .write 4 0, .idle]).inbox = [.read 8, .write 4 0] ++ .idle :: [] ∧
      Spec.reservedOp (0x43 : Byte).toNat :=
  ⟨rfl, by decide, by decide, rfl, by simp [Spec.reservedOp]⟩

end Sys2Proof.Tests
end

section
/-! Cluster finding: the runs that `findRuns` finds are maximal runs, and a list of maximal runs is unique (44_encoder.md
R349). -/

namespace Sys2Proof.Spec

/-- A first run that ends where `above` fails, in front of the maximal runs past that place. -/
theorem Runs.cons {above : Nat → Prop} {runs : List (Nat × Nat)} {first n : Nat}
    (h : Runs (fun k => first + n + 1 ≤ k ∧ above k) runs) (hpos : 1 ≤ n) (hrun : ∀ k < n, above (first + k))
    (hend : ¬ above (first + n)) : Runs (fun k => first ≤ k ∧ above k) ((first, n) :: runs) := by
  have past : ∀ r ∈ runs, first + n + 1 ≤ r.1 := fun r hr => ((h.inside r hr).2 0 (h.inside r hr).1).1
  refine ⟨List.pairwise_cons.2 ⟨fun r hr => past r hr, h.ascending⟩, ?inside, ?maximal, ?all⟩
  case inside =>
    intro r hr
    rcases List.mem_cons.1 hr with rfl | hr
    · exact ⟨hpos, fun k hk => ⟨Nat.le_add_right _ _, hrun k hk⟩⟩
    · refine ⟨(h.inside r hr).1, fun k hk => ⟨?_, ((h.inside r hr).2 k hk).2⟩⟩
      have := past r hr
      omega
  case maximal =>
    intro r hr
    rcases List.mem_cons.1 hr with rfl | hr
    · exact ⟨fun h => hend h.2, fun h0 h => absurd h.1 (by simp only at h0 ⊢; omega)⟩
    · have hp := past r hr
      refine ⟨fun ha => (h.maximal r hr).1 ⟨by omega, ha.2⟩, fun h0 ha => ?_⟩
      by_cases hlast : r.1 - 1 = first + n
      · exact hend (hlast ▸ ha.2)
      · exact (h.maximal r hr).2 h0 ⟨by omega, ha.2⟩
  case all =>
    rintro k ⟨hk, ha⟩
    rcases Nat.lt_trichotomy k (first + n) with hlt | rfl | hgt
    · exact ⟨(first, n), List.mem_cons_self, hk, hlt⟩
    · exact absurd ha hend
    · obtain ⟨r, hr, hin⟩ := h.all k ⟨hgt, ha⟩
      exact ⟨r, List.mem_cons_of_mem _ hr, hin⟩

/-- A place where `above` fails starts no run. -/
theorem Runs.skip {above : Nat → Prop} {runs : List (Nat × Nat)} {s : Nat}
    (h : Runs (fun k => s + 1 ≤ k ∧ above k) runs) (hs : ¬ above s) : Runs (fun k => s ≤ k ∧ above k) runs := by
  have same : (fun k => s + 1 ≤ k ∧ above k) = fun k => s ≤ k ∧ above k := by
    funext k
    refine propext ⟨fun ⟨hk, ha⟩ => ⟨by omega, ha⟩, fun ⟨hk, ha⟩ => ⟨?_, ha⟩⟩
    exact Nat.lt_of_le_of_ne hk fun e => hs (e ▸ ha)
  exact same ▸ h

theorem Runs.nil {above : Nat → Prop} (h : ∀ k, ¬ above k) : Runs above [] :=
  ⟨.nil, nofun, nofun, fun k hk => absurd hk (h k)⟩

/-- Every run of one list of maximal runs stands in any other. -/
theorem Runs.mem_of_mem {above : Nat → Prop} {runs runs' : List (Nat × Nat)} (h : Runs above runs)
    (h' : Runs above runs') {r : Nat × Nat} (hr : r ∈ runs) : r ∈ runs' := by
  obtain ⟨hpos, hin⟩ := h.inside r hr
  obtain ⟨hafter, hbefore⟩ := h.maximal r hr
  obtain ⟨q, hq, hle, hlt⟩ := h'.all r.1 (hin 0 hpos)
  obtain ⟨-, hqin⟩ := h'.inside q hq
  obtain ⟨hqafter, -⟩ := h'.maximal q hq
  have hfirst : q.1 = r.1 := by
    by_contra hne
    have := hqin (r.1 - 1 - q.1) (by omega)
    rw [show q.1 + (r.1 - 1 - q.1) = r.1 - 1 by omega] at this
    exact hbefore (by omega) this
  have hwidth : q.2 = r.2 := by
    rcases Nat.lt_trichotomy q.2 r.2 with hlt | heq | hgt
    · exact absurd (hfirst ▸ hin q.2 hlt) hqafter
    · exact heq
    · exact absurd (hfirst ▸ hqin r.2 hgt) hafter
  rwa [← Prod.ext hfirst hwidth]

/-- The maximal runs are determined by `above`. -/
theorem Runs.unique {above : Nat → Prop} {runs runs' : List (Nat × Nat)} (h : Runs above runs)
    (h' : Runs above runs') : runs = runs' := by
  have rising : ∀ {l : List (Nat × Nat)}, Runs above l → l.Pairwise fun r q => r.1 < q.1 := fun h =>
    h.ascending.imp fun hlt => Nat.lt_of_le_of_lt (Nat.le_add_right _ _) hlt
  have nodup : ∀ {l : List (Nat × Nat)}, Runs above l → l.Nodup := fun h =>
    (rising h).imp fun hlt e => Nat.ne_of_lt hlt (congrArg Prod.fst e)
  have hperm : runs.Perm runs' := (List.perm_ext_iff_of_nodup (nodup h) (nodup h')).2 fun r =>
    ⟨fun hr => h.mem_of_mem h' hr, fun hr => h'.mem_of_mem h hr⟩
  exact hperm.eq_of_pairwise (fun r q _ _ h1 h2 => absurd (Nat.lt_trans h1 h2) (Nat.lt_irrefl _)) (rising h) (rising h')

end Sys2Proof.Spec

namespace Sys2Proof.Machine

/-- A run of strips with its values, as `findRuns` gives it. -/
def runValues (value : Nat → Half) (r : Nat × Nat) : Nat × List Half := (r.1, (List.range' r.1 r.2).map value)

/-- A strip of the range from `start` to `stop` that is above the threshold. -/
def aboveIn (threshold : Nat) (value : Nat → Half) (start stop k : Nat) : Prop :=
  start ≤ k ∧ k < stop ∧ aboveThreshold threshold (value k) = true

/-- `findRuns` on the strips `s`, ..., `s + n - 1`: with no run under way it finds the maximal runs among them, and with a run
under way from `first` on those of the strips from `first` on (44_encoder.md R349). -/
theorem findRuns_finds (threshold : Nat) (value : Nat → Half) (n : Nat) : ∀ s,
    (∃ runs, Spec.Runs (aboveIn threshold value s (s + n)) runs ∧
      findRuns threshold s none ((List.range' s n).map value) = runs.map (runValues value)) ∧
    ∀ first m, first + m = s → 1 ≤ m → (∀ k < m, aboveThreshold threshold (value (first + k)) = true) →
      ∃ runs, Spec.Runs (aboveIn threshold value first (s + n)) runs ∧
        findRuns threshold s (some (first, ((List.range' first m).map value).reverse)) ((List.range' s n).map value) =
          runs.map (runValues value) := by
  induction n with
  | zero =>
    intro s
    refine ⟨⟨[], .nil fun k hk => ?_, rfl⟩, fun first m hm hpos hrun => ⟨[(first, m)], ?_, ?_⟩⟩
    · obtain ⟨h1, h2, -⟩ := hk
      omega
    · refine Spec.Runs.cons (.nil fun k hk => ?_) hpos (fun k hk => ⟨by omega, hrun k hk⟩) fun h => ?_
      · obtain ⟨h1, h2, -⟩ := hk
        omega
      · exact absurd h.1 (by omega)
    · simp [findRuns, runValues]
  | succ n ih =>
    intro s
    obtain ⟨ihNone, ihSome⟩ := ih (s + 1)
    rw [show s + 1 + n = s + (n + 1) by omega] at ihNone ihSome
    simp only [List.range'_succ, List.map_cons]
    by_cases hv : aboveThreshold threshold (value s) = true
    · refine ⟨?_, fun first m hm hpos hrun => ?_⟩
      · obtain ⟨runs, hruns, hfind⟩ := ihSome s 1 rfl (by omega) fun k hk => by rwa [show k = 0 by omega]
        exact ⟨runs, hruns, by simpa [findRuns, hv] using hfind⟩
      · obtain ⟨runs, hruns, hfind⟩ := ihSome first (m + 1) (by omega) (by omega) fun k hk => by
          by_cases hk' : k < m
          · exact hrun k hk'
          · rwa [show first + k = s by omega]
        refine ⟨runs, hruns, ?_⟩
        rw [List.range'_concat] at hfind
        simpa [findRuns, hv, hm] using hfind
    · obtain ⟨runs, hruns, hfind⟩ := ihNone
      refine ⟨⟨runs, Spec.Runs.skip hruns fun h => hv h.2, by simpa [findRuns, hv] using hfind⟩,
        fun first m hm hpos hrun => ⟨(first, m) :: runs, ?_, ?_⟩⟩
      · subst hm
        exact Spec.Runs.cons hruns hpos (fun k hk => ⟨by omega, hrun k hk⟩) fun h => hv h.2
      · simpa [findRuns, hv, runValues] using hfind

/-- The clusters `findRuns` finds are the maximal runs, each with its strips' values (44_encoder.md R349). -/
theorem findRuns_eq_of_runs {threshold n : Nat} {value : Nat → Half} {runs : List (Nat × Nat)}
    (h : Spec.Runs (fun k => k < n ∧ threshold < min (value k).toNat 1023) runs) :
    findRuns threshold 0 none ((List.range n).map value) = runs.map (runValues value) := by
  obtain ⟨found, hfound, hfind⟩ := (findRuns_finds threshold value n 0).1
  have same : aboveIn threshold value 0 (0 + n) = fun k => k < n ∧ threshold < min (value k).toNat 1023 := by
    funext k
    simp [aboveIn, aboveThreshold, clampStrip]
  rw [List.range_eq_range', hfind, h.unique (same ▸ hfound)]

end Sys2Proof.Machine
end

section
/-! The finished event: its CRC on plain numbers, and its bytes and words as OBUF holds them (41_crc.md R240; 44_encoder.md
R351-R353; 20_memory.md R105). -/

namespace Sys2Proof.Machine

theorem toNat_crcBit (c : Half) : (crcBit c).toNat = Spec.crcShift c.toNat := by
  have top : c.getLsbD 15 = true ↔ c.toNat &&& 0x8000 ≠ 0 := by
    rw [show (0x8000 : Nat) = 2 ^ 15 from rfl, Nat.and_two_pow, BitVec.getLsbD]
    cases c.toNat.testBit 15 <;> simp
  have mask : ∀ x : Nat, x &&& 0xFFFF = x % 2 ^ 16 := fun x => Nat.and_two_pow_sub_one_eq_mod x 16
  by_cases h : c.getLsbD 15 = true
  · rw [crcBit, if_pos h, Spec.crcShift, if_pos (top.1 h), mask, BitVec.toNat_xor, BitVec.toNat_shiftLeft, Nat.xor_mod_two_pow]
    rfl
  · rw [crcBit, if_neg h, Spec.crcShift, if_neg (mt top.2 h), mask, BitVec.toNat_shiftLeft]

theorem toNat_crcByte (c : Half) (b : Byte) :
    (crcByte c b).toNat = Spec.crcShift^[8] (c.toNat ^^^ (b.toNat <<< 8)) := by
  have hb : (b.zeroExtend 16 <<< 8).toNat = b.toNat <<< 8 := by
    have := b.isLt
    simp only [BitVec.toNat_shiftLeft, BitVec.truncate_eq_setWidth, BitVec.toNat_setWidth, Nat.shiftLeft_eq]
    omega
  simp only [crcByte, crcEight, toNat_crcBit, BitVec.toNat_xor, hb, Function.iterate_succ_apply, Function.iterate_zero,
    id_eq]

/-- The CRC is the loop of 41_crc.md R240 on plain numbers. -/
theorem toNat_crc16 (bytes : List Byte) : (crc16 bytes).toNat = Spec.crcLoop bytes := by
  have key : ∀ c : Half, (bytes.foldl crcByte c).toNat =
      bytes.foldl (fun c b => Spec.crcShift^[8] (c ^^^ (b.toNat <<< 8))) c.toNat := by
    induction bytes with
    | nil => exact fun _ => rfl
    | cons b bytes ih => exact fun c => by rw [List.foldl_cons, List.foldl_cons, ih, toNat_crcByte]
  exact key Config.crcInit

/-- Byte j of a big-endian word (20_memory.md R105). -/
theorem extract_wordOfBytes (b0 b1 b2 b3 : Byte) {j : Nat} (hj : j < 4) :
    (b0 ++ b1 ++ b2 ++ b3 : Word).extractLsb' (8 * (3 - j)) 8 = [b0, b1, b2, b3].getD j 0 := by
  have higher : ∀ {n : Nat} (x : BitVec n) (y : Byte) (i : Nat), (x ++ y).extractLsb' (8 + i) 8 = x.extractLsb' i 8 :=
    fun x y i => by rw [BitVec.extractLsb'_append_eq_of_le (Nat.le_add_right _ _), Nat.add_sub_cancel_left]
  have lowest : ∀ {n : Nat} (x : BitVec n) (y : Byte), (x ++ y).extractLsb' 0 8 = y :=
    fun _ _ => BitVec.extractLsb'_append_eq_right
  interval_cases j
  · exact (higher _ _ 16).trans ((higher _ _ 8).trans ((higher _ _ 0).trans BitVec.extractLsb'_eq_self))
  · exact (higher _ _ 8).trans ((higher _ _ 0).trans (lowest _ _))
  · exact (higher _ _ 0).trans (lowest _ _)
  · exact lowest _ _

theorem getD_dwordBytes (v : DWord) {j : Nat} (hj : j < 8) : (dwordBytes v).getD j 0 = v.extractLsb' (56 - 8 * j) 8 := by
  simp [dwordBytes, hj]

/-- Four neighbouring bytes of a 64-bit word make the word they lie in. -/
theorem extract_append_bytes (v : DWord) (o : Nat) :
    (v.extractLsb' (o + 24) 8 ++ v.extractLsb' (o + 16) 8 ++ v.extractLsb' (o + 8) 8 ++ v.extractLsb' o 8 : Word) =
      v.extractLsb' o 32 := by
  rw [BitVec.extractLsb'_append_extractLsb'_eq_extractLsb' (by rfl : o + 24 = o + 16 + 8),
    BitVec.extractLsb'_append_extractLsb'_eq_extractLsb' (by rfl : o + 16 = o + 8 + 8),
    BitVec.extractLsb'_append_extractLsb'_eq_extractLsb' (by rfl : o + 8 = o + 8)]

/-- OBUF of `t` holds these bytes as an event that ENC_BUILD of `s` wrote: each word most significant byte first, the Slink64
word swap undone (20_memory.md R105; 44_encoder.md R353). -/
def HoldsEvent (s t : State) (bytes : List Byte) : Prop :=
  ∀ i, 4 * i + 3 < bytes.length → Spec.eventWord s t i =
    bytes.getD (4 * i) 0 ++ bytes.getD (4 * i + 1) 0 ++ bytes.getD (4 * i + 2) 0 ++ bytes.getD (4 * i + 3) 0

/-- The logical bytes of a held event of whole words. -/
theorem HoldsEvent.eventByte {s t : State} {bytes : List Byte} (h : HoldsEvent s t bytes) (h4 : bytes.length % 4 = 0) {q : Nat}
    (hq : q < bytes.length) : Spec.eventByte s t q = bytes.getD q 0 := by
  rw [Spec.eventByte, h (q / 4) (by omega), extract_wordOfBytes _ _ _ _ (Nat.mod_lt q (by decide))]
  obtain ⟨i, j, hj, rfl⟩ : ∃ i j, j < 4 ∧ q = 4 * i + j := ⟨q / 4, q % 4, by omega, by omega⟩
  rw [show (4 * i + j) / 4 = i by omega, show (4 * i + j) % 4 = j by omega]
  interval_cases j <;> rfl

/-- A 64-bit word of a held event (30_encoding.md R151). -/
theorem HoldsEvent.dword {s t : State} {pre post : List Byte} {v : DWord} {i : Nat}
    (h : HoldsEvent s t (pre ++ dwordBytes v ++ post)) (hi : pre.length = 4 * i) :
    (Spec.eventWord s t i ++ Spec.eventWord s t (i + 1) : DWord) = v := by
  have byte : ∀ j < 8, (pre ++ dwordBytes v ++ post).getD (4 * i + j) 0 = v.extractLsb' (56 - 8 * j) 8 := fun j hj => by
    rw [List.append_assoc, List.getD_append_right _ _ _ _ (by omega), hi, Nat.add_sub_cancel_left,
      List.getD_append _ _ _ _ (by simpa using hj), getD_dwordBytes v hj]
  have hlen : (pre ++ dwordBytes v ++ post).length = 4 * i + 8 + post.length := by
    simp only [List.length_append, length_dwordBytes, hi]
  have high := h i (by omega)
  have low := h (i + 1) (by omega)
  simp only [Nat.mul_add, Nat.mul_one, Nat.add_assoc, Nat.reduceAdd] at low
  have byte0 : (pre ++ dwordBytes v ++ post).getD (4 * i) 0 = v.extractLsb' 56 8 := byte 0 (by decide)
  rw [high, low, byte0, byte 1 (by decide), byte 2 (by decide), byte 3 (by decide), byte 4 (by decide),
    byte 5 (by decide), byte 6 (by decide), byte 7 (by decide)]
  calc _ = (v.extractLsb' 32 32 ++ v.extractLsb' 0 32 : DWord) :=
        congrArg₂ _ (extract_append_bytes v 32) (extract_append_bytes v 0)
    _ = v.extractLsb' 0 64 := BitVec.extractLsb'_append_extractLsb'_eq_extractLsb' rfl
    _ = v := BitVec.extractLsb'_eq_self

/-- The bytes of a finished event: what stands before its trailer, and the trailer with its CRC (44_encoder.md R351). -/
def finishedBytes (c : EncoderConfig) (body : List Byte) : List Byte :=
  body ++ dwordBytes (trailerWord c (body.length + 8) (finishEvent c body).crc)

theorem finishEvent_words (c : EncoderConfig) (body : List Byte) :
    (finishEvent c body).words =
      if c.slink64 then swapPairs (bytesToWords (finishedBytes c body)) else bytesToWords (finishedBytes c body) := rfl

@[simp] theorem length_finishedBytes (c : EncoderConfig) (body : List Byte) :
    (finishedBytes c body).length = body.length + 8 := by simp [finishedBytes]

theorem length_finishEvent_words (c : EncoderConfig) (body : List Byte) :
    (finishEvent c body).words.length = (body.length + 8) / 4 := by
  rw [finishEvent_words]
  split <;> simp [length_bytesToWords]

/-- Word i before the swap is word `i ^ 1` after it, in a whole number of pairs (44_encoder.md R353). -/
theorem getElem?_swapPairs_xor {ws : List Word} (heven : ws.length % 2 = 0) {i : Nat} (hi : i < ws.length) :
    (swapPairs ws)[i ^^^ 1]? = ws[i]? := by
  rw [getElem?_swapPairs]
  rcases Nat.mod_two_eq_zero_or_one i with h | h
  · rw [Nat.xor_one_of_even (Nat.even_iff.2 h), if_pos (by omega), if_neg (by omega), Nat.add_sub_cancel]
  · rw [Nat.xor_one_of_odd (Nat.odd_iff.2 h), if_pos (by omega), if_pos (by omega), Nat.sub_add_cancel (by omega)]

theorem xor_one_lt {i n : Nat} (heven : n % 2 = 0) (hi : i < n) : i ^^^ 1 < n := by
  rcases Nat.mod_two_eq_zero_or_one i with h | h
  · rw [Nat.xor_one_of_even (Nat.even_iff.2 h)]
    omega
  · rw [Nat.xor_one_of_odd (Nat.odd_iff.2 h)]
    omega

/-- OBUF after a build: the event's words, then zeros (44_encoder.md R352). -/
theorem ramWord_commitBuild {b : BuiltEvent} (s : State) {i : Nat} (hi : i < 16384) :
    ramWord (commitBuild b s).mem .obuf i = b.words.getD i 0 := by
  have stored : (b.words ++ List.replicate (Config.obufWords - b.words.length) (0 : Word)).getD i 0 = b.words.getD i 0 := by
    by_cases h : i < b.words.length
    · rw [List.getD_append _ _ _ _ h]
    · rw [List.getD_append_right _ _ _ _ (by omega), List.getD_eq_default b.words _ (by omega),
        List.getD_eq_getElem?_getD, List.getElem?_getD_replicate_default_eq]
  have hlen : i < (b.words ++ List.replicate (Config.obufWords - b.words.length) (0 : Word)).length := by
    simp only [List.length_append, List.length_replicate, Config.obufWords]
    omega
  rw [← stored, List.getD_eq_getElem _ _ hlen]
  exact Memory.word_storeWords s.mem (ramBase .obuf) _ hlen

/-- A build leaves every byte outside OBUF as it was (44_encoder.md R352). -/
theorem read_commitBuild_outside {b : BuiltEvent} (s : State) (hb : b.words.length ≤ 16384) {a : Nat}
    (ha : ¬ inRam .obuf a) :
    Memory.read (commitBuild b s).mem a = Memory.read s.mem a := by
  refine Memory.read_storeWords_outside ?_
  simp only [inRam, ramEntries, Config.obufWords] at ha
  simp only [List.length_append, List.length_replicate, Config.obufWords]
  omega

/-- A committed build of whole 64-bit words that fits OBUF is held there, byte for byte. -/
theorem holdsEvent_commitBuild {s : State} {c : EncoderConfig} {body : List Byte} (h8 : body.length % 8 = 0)
    (hfit : body.length + 8 ≤ 4 * 16384) (hs : c.slink64 = s.enc.cfg0.getLsbD 18) :
    HoldsEvent s (complete (commitBuild (finishEvent c body) s)) (finishedBytes c body) := by
  intro i hi
  rw [length_finishedBytes] at hi
  have hlen : (bytesToWords (finishedBytes c body)).length = (body.length + 8) / 4 := by simp [length_bytesToWords]
  have hword := getElem?_bytesToWords (finishedBytes c body) i (by rwa [length_finishedBytes])
  rw [Spec.eventWord, complete_mem, ← hs]
  cases hslink : c.slink64 with
  | false =>
    rw [if_neg Bool.false_ne_true, ramWord_commitBuild s (by omega), finishEvent_words, hslink, if_neg Bool.false_ne_true,
      List.getD_eq_getElem?_getD, hword, Option.getD_some]
  | true =>
    have hx := xor_one_lt (n := (body.length + 8) / 4) (i := i) (by omega) (by omega)
    rw [if_pos rfl, ramWord_commitBuild s (by omega), finishEvent_words, hslink, if_pos rfl, List.getD_eq_getElem?_getD,
      getElem?_swapPairs_xor (by omega) (by omega), hword, Option.getD_some]

/-- The trailer as what stands above its CRC field, the field, and what stands below (30_encoding.md R175). -/
theorem trailerWord_split (c : EncoderConfig) (d : Nat) (crc : Half) :
    trailerWord c d crc = ((0xA : BitVec 4) ++ (0 : BitVec 4) ++ BitVec.ofNat 24 (d / 8) : Word) ++ crc ++
      ((0 : BitVec 1) ++ (0 : BitVec 3) ++ c.evtStat ++ c.tts ++ (0 : BitVec 4) : Half) := by
  simp only [trailerWord, BitVec.append_assoc']
  rfl

/-- The CRC field is the two bytes of the trailer that change with the CRC (30_encoding.md R176). -/
theorem getD_trailer_zeroCrc (c : EncoderConfig) (d : Nat) (crc : Half) {j : Nat} (hj : j < 8) :
    (dwordBytes (trailerWord c d 0)).getD j 0 = if j = 4 ∨ j = 5 then 0 else (dwordBytes (trailerWord c d crc)).getD j 0 := by
  rw [getD_dwordBytes _ hj, getD_dwordBytes _ hj, trailerWord_split, trailerWord_split]
  generalize ((0xA : BitVec 4) ++ (0 : BitVec 4) ++ BitVec.ofNat 24 (d / 8) : Word) = above
  generalize ((0 : BitVec 1) ++ (0 : BitVec 3) ++ c.evtStat ++ c.tts ++ (0 : BitVec 4) : Half) = below
  have high : ∀ (crc : Half) (o : Nat), (above ++ crc ++ below).extractLsb' (16 + o) 8 = (above ++ crc).extractLsb' o 8 :=
    fun crc o => by rw [BitVec.extractLsb'_append_eq_of_le (Nat.le_add_right _ _), Nat.add_sub_cancel_left]
  rcases (by omega : j < 4 ∨ j = 4 ∨ j = 5 ∨ 6 ≤ j) with h | rfl | rfl | h
  · rw [if_neg (by omega), show 56 - 8 * j = 16 + (40 - 8 * j) by omega, high, high,
      BitVec.extractLsb'_append_eq_of_le (by omega), BitVec.extractLsb'_append_eq_of_le (by omega)]
  · rw [if_pos (by omega)]
    exact (high 0 8).trans ((BitVec.extractLsb'_append_eq_of_add_le (by decide)).trans (by decide))
  · rw [if_pos (by omega)]
    exact (high 0 0).trans ((BitVec.extractLsb'_append_eq_of_add_le (by decide)).trans (by decide))
  · rw [if_neg (by omega), BitVec.extractLsb'_append_eq_of_add_le (by omega),
      BitVec.extractLsb'_append_eq_of_add_le (by omega)]

end Sys2Proof.Machine
end

section
/-! The regions of an encoded event as the statements write them (44_encoder.md R342-R351), and the configuration they
come from. -/

namespace Sys2Proof.Machine

/-- The strips of an APV (10_state.md R35). -/
theorem apvStrips_eq (s : State) (ch apv : Nat) :
    apvStrips s.mem ch apv = (List.range 128).map fun k => Spec.stripValue s ch (128 * apv + k) := by
  refine List.map_congr_left fun k _ => ?_
  simp only [Spec.stripValue, ramHalf, ramAddr]
  congr 1
  omega

/-- A frame in MUX order (42_reorder.md R263). -/
theorem disorderFrame_map_range (value : Nat → Half) :
    disorderFrame ((List.range 128).map value) = (List.range 128).map fun i => value (Spec.muxToStrip i) := by
  refine List.map_congr_left fun i hi => ?_
  have hlt : stripOfMux i < 128 := by
    have := List.mem_range.1 hi
    unfold stripOfMux
    omega
  rw [List.getD_eq_getElem _ _ (by simpa using hlt), List.getElem_map, List.getElem_range]
  rfl

/-- The 256 values of a raw channel, APV 0 then APV 1, each in MUX order (44_encoder.md R347). -/
theorem rawChannelBody_eq (s : State) (c : EncoderConfig) (ch : Nat) :
    rawChannelBody s.mem c ch = codeValues c.mode c.width
      ((List.range 256).map fun k => Spec.stripValue s ch (128 * (k / 128) + Spec.muxToStrip (k % 128))) := by
  rw [rawChannelBody, apvStrips_eq, apvStrips_eq, disorderFrame_map_range, disorderFrame_map_range,
    show (256 : Nat) = 128 + 128 from rfl, List.range_add, List.map_append, List.map_map]
  refine congrArg (codeValues c.mode c.width) (congrArg₂ (· ++ ·) ?apv0 ?apv1)
  all_goals
    refine List.map_congr_left fun i hi => ?_
    have := List.mem_range.1 hi
  case apv0 => rw [Nat.div_eq_of_lt this, Nat.mod_eq_of_lt this]
  case apv1 => rw [Function.comp_apply, Nat.add_mod_left, Nat.mod_eq_of_lt this, show (128 + i) / 128 = 1 by omega]

/-- The clusters of an APV are its maximal runs above ZS_THRESH, stored (44_encoder.md R349). -/
theorem flatMap_clusterBytes_eq {s : State} {mode : DaqMode} {w : Width} {ch apv : Nat} {runs : List (Nat × Nat)}
    (h : Spec.Runs (Spec.aboveThreshold s ch apv) runs) :
    (apvClusters s.mem (encoderFields s.enc mode w) ch apv).flatMap (clusterBytes (encoderFields s.enc mode w) apv) =
      runs.flatMap fun r => BitVec.ofNat 8 (128 * apv + r.1) :: BitVec.ofNat 8 r.2 ::
        codeValues mode w ((List.range r.2).map fun k => Spec.stripValue s ch (128 * apv + r.1 + k)) := by
  have found : apvClusters s.mem (encoderFields s.enc mode w) ch apv =
      runs.map (runValues fun k => Spec.stripValue s ch (128 * apv + k)) := by
    rw [apvClusters, apvStrips_eq]
    exact findRuns_eq_of_runs h
  rw [found, List.flatMap_map]
  refine congrArg (List.flatMap · runs) (funext fun r => ?_)
  simp only [clusterBytes, runValues, List.range'_eq_map_range, List.length_map, List.length_range, List.map_map,
    Function.comp_def, Nat.add_assoc]
  rfl

theorem channelClusters_eq_storedClusters {s : State} {mode : DaqMode} {w : Width} {runs : Nat → Nat → List (Nat × Nat)}
    (h : Spec.runsOf s runs) {ch : Nat} (hch : ch < 96) :
    channelClusters s.mem (encoderFields s.enc mode w) ch = Spec.storedClusters s mode w runs ch := by
  rw [channelClusters, flatMap_clusterBytes_eq (h ch hch 0 (by decide)), flatMap_clusterBytes_eq (h ch hch 1 (by decide))]
  simp [Spec.storedClusters, List.range_succ]

/-- A median, or 0 where CM is not valid (44_encoder.md R348). -/
theorem encodedMedian_eq_littleEndian (s : State) (mode : DaqMode) (w : Width) (k : Nat) :
    encodedMedian s.mem (encoderFields s.enc mode w) k =
      Spec.littleEndian (if s.enc.cfg0.getLsbD 19 then (ramHalf s.mem .cm k).toNat else 0) := by
  rw [encodedMedian, le16_eq_littleEndian, le16_eq_littleEndian, apply_ite Spec.littleEndian]
  rfl

theorem encodedBody_eq_storedBody {s : State} {mode : DaqMode} {w : Width} {runs : Nat → Nat → List (Nat × Nat)}
    (h : Spec.runsOf s runs) {ch : Nat} (hch : ch < 96) :
    encodedBody s.mem (encoderFields s.enc mode w) ch = Spec.storedBody s mode w runs ch := by
  have raw : ∀ m, m = DaqMode.virginRaw ∨ m = .processedRaw ∨ m = .scope →
      rawChannelBody s.mem (encoderFields s.enc m w) ch = Spec.storedBody s m w runs ch := fun m hm => by
    rw [rawChannelBody_eq]
    rcases hm with rfl | rfl | rfl <;> rfl
  cases mode with
  | virginRaw => exact raw _ (.inl rfl)
  | processedRaw => exact raw _ (.inr (.inl rfl))
  | scope => exact raw _ (.inr (.inr rfl))
  | zeroSuppressed =>
    show encodedMedian _ _ _ ++ encodedMedian _ _ _ ++ channelClusters _ _ _ = _
    rw [encodedMedian_eq_littleEndian, encodedMedian_eq_littleEndian, channelClusters_eq_storedClusters h hch]
    simp [Spec.storedBody, List.range_succ]
  | zeroSuppressedLite => exact channelClusters_eq_storedClusters h hch

theorem encodedUnit_eq_unitBytes {s : State} {mode : DaqMode} {w : Width} {pc : Byte} {runs : Nat → Nat → List (Nat × Nat)}
    (h : Spec.runsOf s runs) (hpc : packetCode mode w = some pc) {u : Nat} (hu : u < 8) :
    encodedUnit s.mem (encoderFields s.enc mode w) pc u = Spec.unitBytes s mode w runs u := by
  have channels : unitChannels s.mem (encoderFields s.enc mode w) pc u =
      (List.range 12).flatMap fun c => Spec.storedChannel s mode w runs (12 * u + c) :=
    List.flatMap_congr fun k hk => by
      have := List.mem_range.1 hk
      rw [encodedChannel, encodedBody_eq_storedBody h (by omega), le16_eq_littleEndian, Spec.storedChannel, hpc]
      rfl
  rw [encodedUnit, channels]
  rfl

/-- What stands between the TSH and the trailer (44_encoder.md R340). -/
theorem encodedUnits_eq_unitBytes {s : State} {mode : DaqMode} {w : Width} {pc : Byte}
    {runs : Nat → Nat → List (Nat × Nat)} (h : Spec.runsOf s runs) (hpc : packetCode mode w = some pc) :
    encodedUnits s.mem (encoderFields s.enc mode w) pc = (List.range 8).map (Spec.unitBytes s mode w runs) :=
  List.map_congr_left fun _ hu => encodedUnit_eq_unitBytes h hpc (List.mem_range.1 hu)

/-- A mode and width that have a packet code pass the checks of ENC_BUILD (44_encoder.md R342). -/
theorem encoderConfig_of_encodes {s : State} {mode : DaqMode} {w : Width} (h : Spec.encodes s mode w) :
    ∃ pc, packetCode mode w = some pc ∧ encoderConfig s.enc = .ok (encoderFields s.enc mode w, pc) := by
  obtain ⟨hmode, hwidth, hscope⟩ := h
  have hm : modeOfCode (field s.enc.cfg0 12 3) = some mode := by
    rw [field, hmode]
    cases mode <;> rfl
  have hw : widthOfCode (field s.enc.cfg0 16 2) = w := by
    rw [field, hwidth]
    cases w <;> rfl
  have hpc : ∃ pc, packetCode mode w = some pc := by
    cases mode with
    | scope => exact hscope rfl ▸ ⟨_, rfl⟩
    | _ => cases w <;> exact ⟨_, rfl⟩
  obtain ⟨pc, hpc⟩ := hpc
  exact ⟨pc, hpc, by simp only [encoderConfig, hm, hw, hpc]⟩

theorem append_zeros_one_three {n : Nat} (x : BitVec n) :
    (x ++ (0 : BitVec 1) ++ (0 : BitVec 3) : BitVec (n + 4)) = x ++ (0 : BitVec 4) := BitVec.append_assoc

/-- The DAQ header, its fields as ENC_CFG gives them (44_encoder.md R343). -/
theorem daqHeader_eq (e : EncoderRegs) (mode : DaqMode) (w : Width) :
    daqHeader (encoderFields e mode w) =
      (0x5 : BitVec 4) ++ e.cfg1.extractLsb' 24 4 ++ e.cfg1.extractLsb' 0 24 ++ e.cfg0.extractLsb' 0 12 ++
        e.cfg2.extractLsb' 0 12 ++ e.cfg1.extractLsb' 28 4 ++ (0 : BitVec 4) := append_zeros_one_three _

/-- The tracker-special header (44_encoder.md R343). -/
theorem trackerHeader_eq (e : EncoderRegs) (mode : DaqMode) (w : Width) :
    trackerHeader (encoderFields e mode w) =
      (if e.cfg0.getLsbD 15 then 0x2 else 0x1 : BitVec 4) ++ tshEventType mode ++ (0x0000FF00000000 : BitVec 56) := by
  simp only [trackerHeader, encoderFields]
  cases e.cfg0.getLsbD 15 <;> cases mode <;> rfl

/-- The trailer, its fields as ENC_CFG gives them (44_encoder.md R351). -/
theorem trailerWord_eq (e : EncoderRegs) (mode : DaqMode) (w : Width) (d : Nat) (crc : Half) :
    trailerWord (encoderFields e mode w) d crc =
      (0xA0 : BitVec 8) ++ BitVec.ofNat 24 (d / 8) ++ crc ++ (0 : BitVec 4) ++ e.cfg2.extractLsb' 12 4 ++
        e.cfg2.extractLsb' 16 4 ++ (0 : BitVec 4) := by
  rw [trailerWord, append_zeros_one_three]
  rfl

end Sys2Proof.Machine
end

section
/-! The size of an STD raw event, the state that ENC_BUILD leaves, and ENC_BUILD's statement (44_encoder.md R340-R354). -/

namespace Sys2Proof.Machine

theorem isRawMode_iff (mode : DaqMode) : isRawMode mode = true ↔ mode ∉ [DaqMode.zeroSuppressed, .zeroSuppressedLite] := by
  cases mode <;> decide

/-- Every channel body of an STD raw or Scope event takes 512 bytes (44_encoder.md R347). -/
theorem length_encodedBody_stdRaw {c : EncoderConfig} (hmode : isRawMode c.mode = true) (hw : c.width = .std) (m : Memory)
    (ch : Nat) : (encodedBody m c ch).length = 512 := by
  have hraw : (rawChannelBody m c ch).length = 512 := by
    rw [length_rawChannelBody, hw, codedSize, if_pos hmode]
  unfold encodedBody
  split <;> rename_i h
  case h_4 | h_5 => simp [h, isRawMode] at hmode
  all_goals exact hraw

/-- The size of an STD raw or Scope event (00_scope.md R12). -/
theorem length_eventBody_stdRaw {c : EncoderConfig} (hmode : isRawMode c.mode = true) (hw : c.width = .std) (m : Memory)
    (pc : Byte) : (eventBody c (encodedUnits m c pc)).length = 16 + feHeaderSize c.hdrfmt + 8 * 6184 := by
  have unit : ∀ u, (encodedUnit m c pc u).length = 6184 := fun u => by
    rw [length_encodedUnit, unitChannels, length_flatMap_const (n := 515) fun k _ => by
      rw [length_encodedChannel, length_encodedBody_stdRaw hmode hw]]
    rfl
  rw [length_eventBody]
  simp only [unit, List.map_const', List.sum_replicate, List.length_range, smul_eq_mul]

theorem finishEvent_crc (c : EncoderConfig) (body : List Byte) :
    (finishEvent c body).crc = crc16 (body ++ dwordBytes (trailerWord c (body.length + 8) 0)) := rfl

/-- The bytes that the CRC is taken of are the event's, its CRC field 0 (41_crc.md R242; 44_encoder.md R351). -/
theorem HoldsEvent.maskedBytes {s t : State} {c : EncoderConfig} {body : List Byte}
    (h : HoldsEvent s t (finishedBytes c body)) (h4 : body.length % 4 = 0) :
    ((List.range (body.length + 8)).map fun i =>
        if i = body.length + 8 - 4 ∨ i = body.length + 8 - 3 then 0 else Spec.eventByte s t i) =
      body ++ dwordBytes (trailerWord c (body.length + 8) 0) := by
  refine List.ext_getElem (by simp) fun i hi hi' => ?_
  have hd : i < body.length + 8 := by simpa using hi
  have hbyte := h.eventByte (by rw [length_finishedBytes]; omega) (q := i) (by rwa [length_finishedBytes])
  rw [List.getElem_map, List.getElem_range, hbyte, ← List.getD_eq_getElem _ 0 hi']
  by_cases hin : i < body.length
  · rw [if_neg (by omega), finishedBytes, List.getD_append _ _ _ _ hin, List.getD_append _ _ _ _ hin]
  · obtain ⟨j, hj, rfl⟩ : ∃ j < 8, i = body.length + j := ⟨i - body.length, by omega, by omega⟩
    rw [finishedBytes, List.getD_append_right _ _ _ _ (by omega), List.getD_append_right _ _ _ _ (by omega),
      Nat.add_sub_cancel_left, getD_trailer_zeroCrc c _ (finishEvent c body).crc hj]
    exact if_congr (by omega) rfl rfl

/-- The bytes of an event before its trailer, for the configuration of `s` (44_encoder.md R340). -/
def encodedEvent (s : State) (mode : DaqMode) (w : Width) (pc : Byte) : List Byte :=
  eventBody (encoderFields s.enc mode w) (encodedUnits s.mem (encoderFields s.enc mode w) pc)

/-- The CRC of that event (44_encoder.md R351). -/
def encodedCrc (s : State) (mode : DaqMode) (w : Width) (pc : Byte) : Half :=
  (finishEvent (encoderFields s.enc mode w) (encodedEvent s mode w pc)).crc

/-- The state that ENC_BUILD of `s` leaves. -/
def builtState (s : State) (mode : DaqMode) (w : Width) (pc : Byte) : State :=
  complete (commitBuild (finishEvent (encoderFields s.enc mode w) (encodedEvent s mode w pc)) s)

theorem exec_encBuild {s : State} {mode : DaqMode} {w : Width} {pc : Byte}
    (h : encoderConfig s.enc = .ok (encoderFields s.enc mode w, pc)) : exec .encBuild s = .next (builtState s mode w pc) :=
  exec_of_commits (.encBuild (buildEvent_of_config h))

section
variable (s : State) (mode : DaqMode) (w : Width) (pc : Byte)

theorem feHeaderSize_encoderFields :
    feHeaderSize (encoderFields s.enc mode w).hdrfmt = if s.enc.cfg0.getLsbD 15 then 24 else 128 := by
  simp only [encoderFields]
  split <;> rfl

/-- The regions before the trailer (44_encoder.md R340). -/
theorem encodedEvent_eq :
    encodedEvent s mode w pc = dwordBytes (daqHeader (encoderFields s.enc mode w)) ++
      dwordBytes (trackerHeader (encoderFields s.enc mode w)) ++
        (Spec.frontEndHeaders s ((encodedUnits s.mem (encoderFields s.enc mode w) pc).map List.length) ++
          (encodedUnits s.mem (encoderFields s.enc mode w) pc).flatten) := by
  rw [encodedEvent, eventBody, feHeaderRegion_eq_frontEndHeaders, List.append_assoc _ (Spec.frontEndHeaders _ _)]

theorem encodedEvent_mod_eight : (encodedEvent s mode w pc).length % 8 = 0 := (length_eventBody_bounds _ _ _).1

theorem encodedEvent_le : (encodedEvent s mode w pc).length + 8 ≤ 50200 := length_eventBody_le_longest _ _ _

theorem length_frontEndHeaders {lengths : List Nat} (h : lengths.length = 8) :
    (Spec.frontEndHeaders s lengths).length = if s.enc.cfg0.getLsbD 15 then 24 else 128 := by
  rw [← feHeaderRegion_eq_frontEndHeaders s .scope .std, length_feHeaderRegion _ _ h, feHeaderSize_encoderFields]

theorem holdsEvent_builtState :
    HoldsEvent s (builtState s mode w pc) (finishedBytes (encoderFields s.enc mode w) (encodedEvent s mode w pc)) :=
  holdsEvent_commitBuild (encodedEvent_mod_eight s mode w pc)
    (Nat.le_trans (encodedEvent_le s mode w pc) (by decide)) rfl

theorem builtState_daqHeader :
    Spec.eventWord s (builtState s mode w pc) 0 ++ Spec.eventWord s (builtState s mode w pc) 1 =
      daqHeader (encoderFields s.enc mode w) := by
  have h := holdsEvent_builtState s mode w pc
  rw [finishedBytes, encodedEvent_eq, List.append_assoc, List.append_assoc, ← List.nil_append (dwordBytes _ ++ _),
    ← List.append_assoc] at h
  exact h.dword rfl

theorem builtState_trackerHeader :
    Spec.eventWord s (builtState s mode w pc) 2 ++ Spec.eventWord s (builtState s mode w pc) 3 =
      trackerHeader (encoderFields s.enc mode w) := by
  have h := holdsEvent_builtState s mode w pc
  rw [finishedBytes, encodedEvent_eq, List.append_assoc] at h
  exact h.dword (length_dwordBytes _)

theorem builtState_trailer :
    Spec.eventWord s (builtState s mode w pc) (((encodedEvent s mode w pc).length + 8) / 4 - 2) ++
        Spec.eventWord s (builtState s mode w pc) (((encodedEvent s mode w pc).length + 8) / 4 - 1) =
      trailerWord (encoderFields s.enc mode w) ((encodedEvent s mode w pc).length + 8) (encodedCrc s mode w pc) := by
  have h8 := encodedEvent_mod_eight s mode w pc
  have h := holdsEvent_builtState s mode w pc
  rw [finishedBytes, ← List.append_nil (_ ++ _)] at h
  rw [show ((encodedEvent s mode w pc).length + 8) / 4 - 1 = ((encodedEvent s mode w pc).length + 8) / 4 - 2 + 1 by omega]
  exact h.dword (by omega)

/-- The bytes between the TSH and the trailer (44_encoder.md R344-R350). -/
theorem builtState_region {region : List Byte}
    (hr : encodedEvent s mode w pc = dwordBytes (daqHeader (encoderFields s.enc mode w)) ++
      dwordBytes (trackerHeader (encoderFields s.enc mode w)) ++ region) {i : Nat} (hi : i < region.length) :
    Spec.eventByte s (builtState s mode w pc) (16 + i) = region[i] := by
  have h8 := encodedEvent_mod_eight s mode w pc
  have hlen : (encodedEvent s mode w pc).length = 16 + region.length := by
    simp only [hr, List.length_append, length_dwordBytes]
  rw [(holdsEvent_builtState s mode w pc).eventByte (by rw [length_finishedBytes]; omega) (by rw [length_finishedBytes]; omega),
    finishedBytes, List.getD_append _ _ _ _ (by omega), hr, List.getD_append_right _ _ _ _ (by simp), List.length_append,
    length_dwordBytes, length_dwordBytes, Nat.add_sub_cancel_left, List.getD_eq_getElem _ _ hi]

theorem builtState_crc :
    (encodedCrc s mode w pc).toNat = Spec.crcLoop
      ((List.range ((encodedEvent s mode w pc).length + 8)).map fun i =>
        if i = (encodedEvent s mode w pc).length + 8 - 4 ∨ i = (encodedEvent s mode w pc).length + 8 - 3 then 0
        else Spec.eventByte s (builtState s mode w pc) i) := by
  have h8 := encodedEvent_mod_eight s mode w pc
  rw [(holdsEvent_builtState s mode w pc).maskedBytes (by omega), ← toNat_crc16, encodedCrc, finishEvent_crc]

theorem builtState_mem_outside {a : Nat} (ha : ¬ inRam .obuf a) :
    Memory.read (builtState s mode w pc).mem a = Memory.read s.mem a := by
  have := encodedEvent_le s mode w pc
  exact read_commitBuild_outside s (by rw [length_finishEvent_words]; omega) ha

theorem builtState_zeros {i : Nat} (hi : ((encodedEvent s mode w pc).length + 8) / 4 ≤ i) (hd : i < 16384) :
    ramWord (builtState s mode w pc).mem .obuf i = 0 :=
  (ramWord_commitBuild s hd).trans (List.getD_eq_default _ _ (by rwa [length_finishEvent_words]))

end

/-- Settles O41: each clause is a fact about `builtState`, and the runs enter only where the units' bytes are compared. -/
theorem encBuildWritesAnEvent : Obligations.EncBuildWritesAnEvent := by
  intro s mode w henc
  obtain ⟨pc, hpc, hconfig⟩ := encoderConfig_of_encodes henc
  have h8 := encodedEvent_mod_eight s mode w pc
  have hlongest := encodedEvent_le s mode w pc
  have hlen := congrArg List.length (encodedEvent_eq s mode w pc)
  simp only [List.length_append, length_dwordBytes] at hlen
  rw [length_frontEndHeaders s (by simp [encodedUnits])] at hlen
  refine ⟨builtState s mode w pc, (encodedEvent s mode w pc).length + 8, encodedCrc s mode w pc,
    exec_encBuild hconfig, by omega, by omega, by omega, hlongest, fun hnarrow => ?narrow, fun hraw hw hhdr => ?stdRaw, rfl,
    fun a => builtState_mem_outside s mode w pc, fun i => builtState_zeros s mode w pc,
    (builtState_daqHeader s mode w pc).trans (daqHeader_eq _ _ _),
    (builtState_trackerHeader s mode w pc).trans (trackerHeader_eq _ _ _),
    (builtState_trailer s mode w pc).trans (trailerWord_eq _ _ _ _ _),
    builtState_crc s mode w pc, fun runs hruns => ?regions⟩
  case narrow => exact length_eventBody_le_worstCase (hnarrow.imp_left (isRawMode_iff mode).2) s.mem pc
  case stdRaw =>
    have := length_eventBody_stdRaw (c := encoderFields s.enc mode w) ((isRawMode_iff mode).2 hraw) hw s.mem pc
    rw [feHeaderSize_encoderFields, hhdr] at this
    exact congrArg (· + 8) this
  case regions =>
    have hregion := encodedEvent_eq s mode w pc
    rw [encodedUnits_eq_unitBytes hruns hpc] at hregion
    refine ⟨?_, ?_, fun i hi => builtState_region s mode w pc hregion hi⟩
    · rw [hregion]
      simp only [List.length_append, length_dwordBytes]
    · rw [List.length_append, length_frontEndHeaders s (by simp), List.length_flatten]

end Sys2Proof.Machine
end

section
/-! The invariant is kept by every update a step is made of, then by every command, host access and reset (10_state.md R34, R40,
R55; 30_encoding.md R145, R147; 44_encoder.md R352). -/

namespace Sys2Proof.Machine

section
variable {s : State}

/-- The invariant reads none of these fields. -/
theorem Inv.unread (h : Inv s) {irq : IrqRegs} {decLen : Word} {crcComputed : Half} {cur : CursorRegs} {crc : CrcRegs}
    {inbox : List HostEvent} {outbox : List Word} {draws : Nat} :
    Inv { s with
      irq := irq, decLen := decLen, crcComputed := crcComputed, cur := cur, crc := crc, inbox := inbox, outbox := outbox,
      draws := draws } :=
  { h with reserved := { h.reserved with }, flags := { h.flags with }, encoder := { h.encoder with } }

theorem Inv.withMem (h : Inv s) {m : Memory} (hm : MemoryOk m) : Inv { s with mem := m } :=
  { h with memory := hm, reserved := { h.reserved with }, flags := { h.flags with }, encoder := { h.encoder with } }

/-- The sticky flags are free (10_state.md R41). -/
theorem Inv.withSticky (h : Inv s) {overrun access : Bool} :
    Inv { s with flags := { s.flags with cmdOverrun := overrun, busyAccess := access } } :=
  { h with reserved := { h.reserved with }, flags := { h.flags with }, encoder := { h.encoder with } }

/-- CRC_MISMATCH only together with CRC_CHECKED, and no integrity flag without an event (10_state.md R55). -/
theorem Inv.withIntegrity (h : Inv s) {len mismatch checked : Bool}
    (hev : s.ev = none → len = false ∧ mismatch = false ∧ checked = false) (hm : mismatch = true → checked = true) :
    Inv { s with flags := { s.flags with lenMismatch := len, crcMismatch := mismatch, crcChecked := checked } } :=
  { h with
    reserved := { h.reserved with }
    flags := { h.flags with noEvent := hev, mismatchChecked := hm }
    encoder := { h.encoder with } }

theorem Inv.withDecCfg (h : Inv s) {cfg : Word} (hc : cfg &&& ~~~ 0x0000FF7F = 0) : Inv { s with decCfg := cfg } :=
  { h with reserved := { h.reserved with decCfg := hc }, flags := { h.flags with }, encoder := { h.encoder with } }

theorem Inv.withEncoderCfg (h : Inv s) {cfg0 cfg1 cfg2 : Word} (h0 : cfg0 &&& ~~~ 0x000FFFFF = 0)
    (h2 : cfg2 &&& ~~~ 0x3FFFFFFF = 0) : Inv { s with enc := { s.enc with cfg0 := cfg0, cfg1 := cfg1, cfg2 := cfg2 } } :=
  { h with
    reserved := { h.reserved with encCfg0 := h0, encCfg2 := h2 }
    flags := { h.flags with }
    encoder := { h.encoder with } }

/-- ENC_LEN and ENC_VALID together (44_encoder.md R352; 60_exceptions.md R405). -/
theorem Inv.withEncoderResult (h : Inv s) {len : Word} {crc : Half} {valid : Bool} (hd : len.toNat ≤ Config.obufWords)
    (heven : len.toNat % 2 = 0) (hv : valid = true → len ≠ 0) :
    Inv { s with enc := { s.enc with len := len, crc := crc }, flags := { s.flags with encValid := valid } } :=
  { h with
    reserved := { h.reserved with }
    flags := { h.flags with }
    encoder := { depth := hd, even := heven, valid := hv } }

theorem Inv.withChannel (h : Inv s) {chan : ChannelRegs} (hc : chan.info &&& 0x0000C000 = 0) : Inv { s with chan := chan } :=
  { h with reserved := { h.reserved with chInfo := hc }, flags := { h.flags with }, encoder := { h.encoder with } }

theorem Inv.withResults (h : Inv s) {res : ResultRegs} (hr : res.kind &&& 0b00011001100 = 0) : Inv { s with res := res } :=
  { h with reserved := { h.reserved with resKind := hr }, flags := { h.flags with }, encoder := { h.encoder with } }

theorem Inv.withStat (h : Inv s) {stat : StatRegs} (hs : stat.count.toNat ≤ 96) : Inv { s with stat := stat } :=
  { h with
    statuses := hs
    reserved := { h.reserved with }
    flags := { h.flags with }
    encoder := { h.encoder with } }

theorem Inv.withEvent (h : Inv s) {ev : EventRecord} {hdr : HeaderRegs} (hev : RecordOk ev)
    (ht : hdr.tshInfo &&& 0x0000FF00 = 0) : Inv { s with ev := some ev, hdr := hdr } :=
  { h with
    reserved := { h.reserved with tshInfo := ht }
    flags := { h.flags with noEvent := nofun }
    encoder := { h.encoder with }
    event := fun _ he => Option.some.inj he ▸ hev }

theorem Inv.invalidate (h : Inv s) : Inv (invalidate s) :=
  { h with
    reserved := { h.reserved with }
    flags := { h.flags with noEvent := fun _ => ⟨rfl, rfl, rfl⟩, mismatchChecked := nofun }
    encoder := { h.encoder with }
    event := nofun }

/-- ERR and ERR_CODE are set together at a completion (60_exceptions.md R403). -/
theorem Inv.completed (h : Inv s) {err : Bool} {irq : IrqRegs} {errs : ErrorRegs} (he : err = true ↔ errs.code ≠ 0) :
    Inv { s with pend := none, flags := { s.flags with done := true, err := err }, irq := irq, errs := errs } :=
  { h with
    reserved := { h.reserved with }
    flags := { h.flags with busyNotDone := nofun, errCode := he }
    encoder := { h.encoder with } }

theorem Inv.complete (h : Inv s) : Inv (complete s) := h.completed ⟨nofun, fun hc => absurd rfl hc⟩

theorem errorCode_ne_zero (e : ErrorName) : errorCode e ≠ 0 := by cases e <;> decide

theorem Inv.raiseError (h : Inv s) (e : CommandError) : Inv (raiseError e s) :=
  h.completed ⟨fun _ => errorCode_ne_zero e.name, fun _ => rfl⟩

theorem Inv.latchCommand (h : Inv s) (w : Word) : Inv (latchCommand w s) :=
  { h with
    reserved := { h.reserved with }
    flags := { h.flags with busyNotDone := fun _ => rfl }
    encoder := { h.encoder with } }

end

end Sys2Proof.Machine
end

section
/-! What every command, host access and reset leaves fits where it is kept: reserved bits, RES entries, counts and ENC_LEN. So every
step keeps the invariant (10_state.md R34, R40, R46, R48; 44_encoder.md R352). -/

namespace Sys2Proof.Machine

/-! ## Reserved bits -/

theorem append_and_append_eq_zero {v w : Nat} {x a : BitVec w} {y b : BitVec v} (hx : x &&& a = 0) (hy : y &&& b = 0) :
    (x ++ y) &&& (a ++ b) = 0 := by
  rw [BitVec.and_append, hx, hy]
  exact BitVec.zero_append_zero

/-- Bits [15:14] of CH_INFO are reserved (10_state.md R48). -/
theorem channelRegs_reserved (m : Memory) (ev : EventRecord) (idx : Nat) (c : ChannelEntry) :
    (channelRegs m ev idx c).info &&& 0x0000C000 = 0 :=
  append_and_append_eq_zero (a := (0 : BitVec 16) ++ (3 : BitVec 2) ++ (0 : BitVec 6))
    (append_and_append_eq_zero (append_and_append_eq_zero BitVec.and_zero BitVec.zero_and) BitVec.and_zero) BitVec.and_zero

/-- Bits [7:6] and [3:2] of RES_KIND are reserved (10_state.md R48). -/
theorem resultRegs_reserved (mode : DaqMode) (w : Width) (r : Samples) :
    (resultRegs mode w r).kind &&& 0b00011001100 = 0 :=
  append_and_append_eq_zero (a := (0 : BitVec 3) ++ (3 : BitVec 2) ++ (0 : BitVec 2) ++ (3 : BitVec 2))
    (append_and_append_eq_zero
      (append_and_append_eq_zero (append_and_append_eq_zero BitVec.and_zero BitVec.zero_and) BitVec.and_zero)
      BitVec.zero_and)
    BitVec.and_zero

/-- Bits [15:8] of TSH_INFO are reserved (10_state.md R46). -/
theorem headerRegs_reserved (dh ts tr : DWord) (enable : BitVec 8) (t : Nat) (units : Vector UnitRegs 8) :
    (headerRegs dh ts tr enable t units).tshInfo &&& 0x0000FF00 = 0 :=
  append_and_append_eq_zero (a := (0 : BitVec 16) ++ (0xFF : BitVec 8) ++ (0 : BitVec 4))
    (append_and_append_eq_zero (append_and_append_eq_zero BitVec.and_zero BitVec.zero_and) BitVec.and_zero) BitVec.and_zero

/-! ## What fits where -/

/-- A cluster has at most as many RES entries as bytes (43_decoder.md R300). -/
theorem length_le_of_walkClusters {m : Memory} {mode : DaqMode} {w : Width} {idx last fuel q k : Nat} {entries : List Half}
    (h : walkClusters m mode w idx last fuel q = .ok (entries, k)) : entries.length ≤ last - q := by
  induction fuel generalizing q entries k with
  | zero =>
    simp only [walkClusters, Except.ok.injEq, Prod.mk.injEq] at h
    obtain ⟨rfl, -⟩ := h
    exact Nat.zero_le _
  | succ fuel ih =>
    unfold walkClusters at h
    simp only at h
    split at h
    · simp only [Except.ok.injEq, Prod.mk.injEq] at h
      obtain ⟨rfl, -⟩ := h
      exact Nat.zero_le _
    · repeat (split at h; · cases h)
      split at h
      · rename_i rest k' hw
        have hrest := ih hw
        have hsize := codedSize_pos (wd := (logicalByte m (q + 1)).toNat) (by omega) mode w
        simp only [Except.ok.injEq, Prod.mk.injEq] at h
        obtain ⟨rfl, -⟩ := h
        simp only [decodedValues, List.cons_append, List.length_cons, List.length_append, List.length_map, List.length_range]
        omega
      · cases h

theorem length_le_of_clusterBody {m : Memory} {mode : DaqMode} {w : Width} {idx last q : Nat} {cm0 cm1 : Half} {r : Samples}
    (h : clusterBody m mode w idx last q cm0 cm1 = .ok r) : r.entries.length ≤ last - q := by
  unfold clusterBody at h
  split at h
  · rename_i hw
    cases h
    exact length_le_of_walkClusters hw
  · cases h

theorem length_le_of_zeroSuppressedBody {m : Memory} {mode : DaqMode} {w : Width} {idx : Nat} {c : ChannelEntry}
    {withMedians : Bool} {r : Samples} (h : zeroSuppressedBody m mode w idx c withMedians = .ok r) :
    r.entries.length ≤ c.len := by
  unfold zeroSuppressedBody at h
  split at h
  · split at h
    · cases h
    · have := length_le_of_clusterBody h
      omega
  · have := length_le_of_clusterBody h
    omega

theorem length_of_rawBody {m : Memory} {mode : DaqMode} {w : Width} {idx : Nat} {c : ChannelEntry} {r : Samples}
    (h : rawBody m mode w idx c = .ok r) : r.entries.length = 256 := by
  unfold rawBody at h
  split at h
  · cases h
  · cases h
    rw [List.length_append, length_reorderFrame, length_reorderFrame]

theorem length_le_of_scopeBody {m : Memory} {idx : Nat} {c : ChannelEntry} {r : Samples}
    (h : scopeBody m idx c = .ok r) : r.entries.length ≤ c.len := by
  unfold scopeBody at h
  split at h
  · cases h
  · cases h
    rw [List.length_map, List.length_range]
    omega

/-- A decoded body is 256 values, or has at most as many RES entries as its channel has bytes (43_decoder.md R297-R300). -/
theorem length_le_of_decodeSamples {m : Memory} {ev : EventRecord} {idx : Nat} {c : ChannelEntry} {w : Width} {r : Samples}
    (h : decodeSamples m ev idx c = .ok (w, r)) : r.entries.length ≤ max 256 c.len := by
  unfold decodeSamples at h
  split at h
  · cases h
  · split at h
    · rename_i hbody
      cases h
      unfold channelBody at hbody
      split at hbody
      · exact le_max_of_le_left (length_of_rawBody hbody).le
      · exact le_max_of_le_left (length_of_rawBody hbody).le
      · exact le_max_of_le_right (length_le_of_scopeBody hbody)
      · exact le_max_of_le_right (length_le_of_zeroSuppressedBody hbody)
      · exact le_max_of_le_right (length_le_of_zeroSuppressedBody hbody)
    · cases h

/-- A resolved channel is one of an enabled unit of the event that is held (43_decoder.md R290). -/
theorem resolves_of_resolveChannel {s : State} {idx : Nat} {ev : EventRecord} {c : ChannelEntry}
    (h : resolveChannel s.ev idx = .ok (ev, c)) : Spec.resolves s idx ev c := by
  unfold resolveChannel at h
  split at h
  · cases h
  · rename_i hev
    split at h
    · rename_i hidx
      split at h
      · rename_i hen
        cases h
        exact ⟨hev, hen, hidx, rfl⟩
      · cases h
    · cases h

/-- The RES entries of a channel of a well-placed event fit RES (10_state.md R34; 43_decoder.md R295). -/
theorem length_le_of_resolves {s : State} (hinv : Inv s) {idx : Nat} {ev : EventRecord} {c : ChannelEntry} {w : Width}
    {r : Samples} (hc : resolveChannel s.ev idx = .ok (ev, c)) (hr : decodeSamples s.mem ev idx c = .ok (w, r)) :
    r.entries.length ≤ ramEntries .res := by
  obtain ⟨hev, hen, hidx, rfl⟩ := resolves_of_resolveChannel hc
  obtain ⟨-, -, hlen, -⟩ := (hinv.event ev hev).channel idx hidx hen
  have := length_le_of_decodeSamples hr
  simp only [ramEntries, Config.resDepth]
  omega

/-- STAT_BAD_COUNT counts at most the 96 channels (43_decoder.md R320). -/
theorem statRegs_count_le (m : Memory) (ev : EventRecord) : (statRegs m ev).count.toNat ≤ 96 := by
  have : (List.range 96).countP (badChannel m ev) ≤ 96 := List.countP_le_length.trans_eq List.length_range
  exact Nat.le_trans (Nat.mod_le _ _) this

/-- An event that was built is a whole number of 64-bit words and fits OBUF (44_encoder.md R345, R352). -/
theorem buildEvent_bounds {m : Memory} {e : EncoderRegs} {b : BuiltEvent} (h : buildEvent m e = .ok b) :
    b.words.length = b.length / 4 ∧ b.length % 8 = 0 ∧ 8 ≤ b.length ∧ b.length ≤ obufBytes := by
  simp only [buildEvent] at h
  split at h
  · cases h
  · rename_i c pc _
    obtain ⟨h8, hfit⟩ := length_eventBody_bounds m c pc
    rw [if_neg (by omega)] at h
    cases h
    refine ⟨length_finishEvent_words c _, ?_, ?_, ?_⟩ <;> simp only [finishEvent] <;> omega

/-- Words exchanged at the start of a 32-bit RAM keep memory well-formed (44_encoder.md R371). -/
theorem MemoryOk.swapBuffer {m : Memory} (h : MemoryOk m) {r : Ram} {n : Nat} (hr : ramEntryBytes r = 4)
    (hn : n ≤ ramEntries r) : MemoryOk (swapBuffer m r n) := by
  unfold Machine.swapBuffer
  rw [ramBase_eq]
  exact h.storeWords hr (by simpa using hn)

/-- Only bytes that exist are drawn (10_state.md R58). -/
theorem MemoryOk.ramDraw (n : Nat) : MemoryOk (ramDraw n) := by
  refine ⟨Memory.wf_ramDraw n, fun c hc => ?_⟩
  obtain ⟨i, hi, hci, hne⟩ := Memory.exists_of_mem_cells hc
  rw [List.length_map, List.length_range'] at hi
  by_contra hram
  refine hne ?_
  simp [hi, ramDrawByte, ← hci, hram]

/-! ## Every command -/

theorem Inv.permuteFrame {s : State} (h : Inv s) {perm : List Half → List Half} (hp : ∀ xs, (perm xs).length = 128) :
    Inv (permuteFrame perm s) := by
  refine h.withMem ?_
  rw [ramBase_eq .fout]
  exact h.memory.storeHalves (by rw [hp]; decide)

theorem Inv.commitBuild {s : State} (h : Inv s) {b : BuiltEvent} (hb : buildEvent s.mem s.enc = .ok b) :
    Inv (commitBuild b s) := by
  obtain ⟨hwords, h8, hpos, hfit⟩ := buildEvent_bounds hb
  simp only [obufBytes, Config.obufWords] at hfit
  have hlen : (BitVec.ofNat 32 (b.length / 4)).toNat = b.length / 4 := by
    rw [BitVec.toNat_ofNat]
    omega
  have hmem : MemoryOk (Machine.commitBuild b s).mem := by
    rw [commitBuild_mem, ramBase_eq]
    refine h.memory.storeWords rfl ?_
    simp only [List.length_append, List.length_replicate, ramEntries, Config.obufWords]
    omega
  refine (h.withMem hmem).withEncoderResult ?_ ?_ fun _ hzero => ?_
  · rw [hlen, Config.obufWords]
    omega
  · rw [hlen]
    omega
  · rw [hzero] at hlen
    simp at hlen
    omega

theorem Inv.commitParse {s : State} (h : Inv s) {p : Parsed} {cfg : Word} {decLen : Nat}
    (hp : parseEvent s.mem cfg decLen = .ok p) : Inv (commitParse p s) := by
  have htsh : p.hdr.tshInfo &&& 0x0000FF00 = 0 := by
    obtain ⟨_, _, _, -, -, -, -, -, -, rfl⟩ := parseEvent_cases hp
    exact headerRegs_reserved _ _ _ _ _ _
  exact ((((h.withEvent (recordOk_of_parseEvent hp) htsh).withChannel rfl).withResults rfl).withStat (Nat.zero_le _)).unread

/-- What a command commits keeps the invariant. -/
theorem Commits.inv {s u : State} {i : Instr} (hu : Commits s i u) (h : Inv s) : Inv u := by
  cases hu with
  | nop => exact h
  | curByte | curU16 | curU32 | curAdv | curNorm | crc | crcBe => exact h.unread
  | reorder => exact h.permuteFrame length_reorderFrame
  | disorder => exact h.permuteFrame length_disorderFrame
  | decParse hp => exact h.invalidate.commitParse hp
  | decChan => exact h.withChannel (channelRegs_reserved _ _ _ _)
  | decSamples hc hr =>
    have hmem := h.memory.storeHalves (r := .res) (i := 0) (hs := _)
      (by rw [Nat.zero_add]; exact length_le_of_resolves h hc hr)
    exact ((h.withMem hmem).withResults (resultRegs_reserved _ _ _)).withChannel (channelRegs_reserved _ _ _ _)
  | decCheckSkip hev =>
    exact (h.withIntegrity (mismatch := false) (fun hn => absurd (hev.symm.trans hn) nofun) nofun).unread
  | decCheckCrc hev => exact (h.withIntegrity (fun hn => absurd (hev.symm.trans hn) nofun) fun _ => rfl).unread
  | decStatus => exact h.withStat (statRegs_count_le _ _)
  | encBuild hb => exact h.commitBuild hb
  | swapIbuf hn => exact (h.withMem (h.memory.swapBuffer rfl hn)).invalidate
  | swapObuf => exact h.withMem (h.memory.swapBuffer rfl (Nat.min_le_right _ _))
  | copyO2i hn =>
    have hmem := h.memory.storeWords (r := .ibuf) (i := 0) (ws := Memory.words s.mem (ramBase .obuf) s.enc.len.toNat) rfl
      (by rw [Memory.length_words, Nat.zero_add]; exact hn)
    exact (h.withMem hmem).unread.invalidate

theorem Inv.onFail {s : State} (h : Inv s) (i : Instr) : Inv (onFail i s) := by
  cases i with
  | decParse => exact h.invalidate
  | decSamples => exact h.withResults rfl
  | encBuild => exact h.withEncoderResult (Nat.zero_le _) rfl nofun
  | _ => exact h

theorem Inv.exec {s t : State} (h : Inv s) {i : Instr} (ht : exec i s = .next t) : Inv t := by
  rcases exec_cases ht with ⟨u, hu, rfl⟩ | ⟨e, rfl⟩
  · exact (hu.inv h).complete
  · exact (h.onFail i).raiseError e

theorem Inv.engineStep {s t : State} (h : Inv s) (ht : engineStep s = .next t) : Inv t := by
  rcases engineStep_cases ht with ⟨-, rfl⟩ | ⟨p, i, -, -, hexec⟩ | ⟨p, op, -, -, rfl⟩
  · exact h
  · exact h.exec hexec
  · exact h.raiseError _

/-! ## The host and the reset input -/

theorem Inv.hostRead {s : State} (h : Inv s) (a : BusAddr) : Inv (hostRead a s) := by
  unfold Machine.hostRead
  split
  · exact h.withSticky.unread
  · exact h.unread

/-- A masked configuration value has no reserved bit (10_state.md R44, R49, R50). -/
theorem and_and_not_self (v mask : Word) : v &&& mask &&& ~~~ mask = 0 := by
  rw [BitVec.and_assoc, BitVec.and_not_self]
  exact BitVec.and_zero

theorem Inv.writeReg {s : State} (h : Inv s) (v : Word) (r : Reg) : Inv (writeReg v s r) := by
  cases r with
  | cmd => exact h.latchCommand v
  | status => exact h.withSticky
  | irqEn | irqPend | decLen | curBase | curOff | curRem | crcStart | crcLen => exact h.unread
  | decCfg => exact h.withDecCfg (and_and_not_self _ _)
  | encCfg0 => exact h.withEncoderCfg (and_and_not_self _ _) h.reserved.encCfg2
  | encCfg1 => exact h.withEncoderCfg h.reserved.encCfg0 h.reserved.encCfg2
  | encCfg2 => exact h.withEncoderCfg h.reserved.encCfg0 (and_and_not_self _ _)
  | _ => exact h

theorem Inv.writeRam {s : State} (h : Inv s) (v : Word) {r : Ram} {i : Nat} (hi : i < ramEntries r) :
    Inv (writeRam v i s r) := by
  cases r with
  | ibuf => exact (h.withMem (h.memory.storeWords rfl hi)).invalidate
  | obuf =>
    exact (h.withMem (h.memory.storeWords rfl hi)).withEncoderResult h.encoder.depth h.encoder.even nofun
  | strip | cm | fin | fout => exact h.withMem (h.memory.storeHalves hi)
  | res => exact h

theorem ramEntry_of_busTarget {a : BusAddr} {r : Ram} {i : Nat} (h : busTarget a = .ram r i) : i < ramEntries r := by
  unfold busTarget at h
  split at h
  · split at h <;> cases h
  · split at h
    · rename_i hram
      cases h
      exact ramAt_some hram
    · cases h

theorem Inv.hostWrite {s : State} (h : Inv s) (a : BusAddr) (v : Word) : Inv (hostWrite a v s) := by
  unfold Machine.hostWrite
  split
  · unfold busyWrite
    split
    · exact h
    · exact h.withSticky
    · exact h.writeReg v _
    · exact h.writeReg v _
    · exact h.writeReg v _
    · exact h.withSticky
  · cases ht : busTarget a with
    | reg r => exact h.writeReg v r
    | ram r i => exact h.writeRam v (ramEntry_of_busTarget ht)
    | nothing => exact h

/-- Settles O56: no memory cell, no reserved bit, no flag and no event after reset. -/
theorem invAtReset : Obligations.InvAtReset where
  memory := ⟨Memory.wf_nil, nofun⟩
  reserved := ⟨rfl, rfl, rfl, rfl, rfl, rfl⟩
  flags := ⟨nofun, ⟨nofun, fun hc => absurd rfl hc⟩, fun _ => ⟨rfl, rfl, rfl⟩, nofun⟩
  encoder := ⟨Nat.zero_le _, rfl, nofun⟩
  statuses := Nat.zero_le _
  event := nofun

theorem Inv.resetBlock (s : State) : Inv (resetBlock s) := (invAtReset.withMem (MemoryOk.ramDraw s.draws)).unread

/-- Settles O57, by the cases of a step, each of which is made of updates that keep the invariant. -/
theorem stepKeepsInv : Obligations.StepKeepsInv := by
  intro s t h ht
  rcases step_cases ht with ⟨rest, -, hstep⟩ | ⟨a, rest, -, rfl⟩ | ⟨a, v, rest, -, rfl⟩ | ⟨rest, -, rfl⟩
  · exact h.unread.engineStep hstep
  · exact h.unread.hostRead a
  · exact h.unread.hostWrite a v
  · exact Inv.resetBlock _

end Sys2Proof.Machine
end

section
/-! The register map as a list of registers by offset. The address decoder, the reads and the writes each agree with it, so the
tables of the statements are read off it (10_state.md R36, R40-R53; 20_memory.md R100, R101). -/

namespace Sys2Proof.Machine

/-- Identification, command, status, interrupt, error and decoder configuration registers (10_state.md R40-R45). -/
def controlMap : List (Nat × Reg) :=
  [(0x000, .id), (0x004, .cmd), (0x008, .status), (0x00C, .irqEn), (0x010, .irqPend), (0x014, .errCode),
    (0x018, .errOffset), (0x01C, .errChannel), (0x020, .errExpected), (0x024, .errActual), (0x040, .decCfg),
    (0x044, .decLen)]

/-- The decoder header result registers (10_state.md R46, R47). -/
def headerMap : List (Nat × Reg) :=
  [(0x080, .daqhHi), (0x084, .daqhLo), (0x088, .tshHi), (0x08C, .tshLo), (0x090, .trlHi), (0x094, .trlLo),
    (0x098, .evtNum), (0x09C, .bx), (0x0A0, .srcId), (0x0A4, .evtInfo), (0x0A8, .feRegs), (0x0AC, .tshInfo),
    (0x0B0, .decBytes), (0x0B4, .trlLen), (0x0B8, .trlInfo), (0x0BC, .crcComputed)]

/-- The channel, result and status registers of the decoder (10_state.md R48). -/
def resultMap : List (Nat × Reg) :=
  [(0x0C0, .chSel), (0x0C4, .chInfo), (0x0C8, .chOffset), (0x0CC, .resKind), (0x0D0, .resCount), (0x0D4, .resCm),
    (0x0D8, .resNclus), (0x0E0, .statBad0), (0x0E4, .statBad1), (0x0E8, .statBad2), (0x0EC, .statBadCount)]

/-- The encoder, cursor and CRC registers (10_state.md R49-R53). -/
def datapathMap : List (Nat × Reg) :=
  [(0x200, .encCfg0), (0x204, .encCfg1), (0x208, .encCfg2), (0x20C, .encLen), (0x210, .encCrc), (0x300, .curBase),
    (0x304, .curOff), (0x308, .curRem), (0x30C, .curData), (0x320, .crcStart), (0x324, .crcLen), (0x328, .crcResult)]

/-- The four registers of each unit (10_state.md R46). -/
def unitMap : List (Nat × Reg) :=
  (List.finRange 8).flatMap fun u =>
    [(0x100 + 4 * u.val, .unitOff u), (0x120 + 4 * u.val, .unitLen u), (0x140 + 4 * u.val, .fehMaj u),
      (0x160 + 4 * u.val, .fehRsv u)]

/-- The registers at their offsets (10_state.md R40). -/
def registerMap : List (Nat × Reg) := controlMap ++ headerMap ++ resultMap ++ datapathMap ++ unitMap

/-- The registers that a write can change (10_state.md R40). -/
def writableMap : List (Nat × Reg) :=
  [(0x004, .cmd), (0x008, .status), (0x00C, .irqEn), (0x010, .irqPend), (0x040, .decCfg), (0x044, .decLen),
    (0x200, .encCfg0), (0x204, .encCfg1), (0x208, .encCfg2), (0x300, .curBase), (0x304, .curOff), (0x308, .curRem),
    (0x320, .crcStart), (0x324, .crcLen)]

/-- Every register of the map is found at its offset. -/
theorem regAtWord_of_mem : ∀ p ∈ registerMap, regAtWord (p.1 / 4) = some p.2 ∧ p.1 < 0x1000 := by decide

/-- Every register is at its offset of the map. -/
theorem mem_registerMap_of_regAtWord {w : Nat} {r : Reg} (h : regAtWord w = some r) : (4 * w, r) ∈ registerMap := by
  have array : ∀ {lo : Nat} {reg : Fin 8 → Reg}, (∀ u : Fin 8, (4 * (lo + u.val), reg u) ∈ registerMap) → lo % 8 = 0 →
      lo ≤ w → w < lo + 8 → (4 * w, reg (unitIndex w)) ∈ registerMap := fun {lo reg} hall h8 hlo hhi => by
    have hidx : (unitIndex w).val = w % 8 := rfl
    have := hall (unitIndex w)
    rwa [hidx, show lo + w % 8 = w by omega] at this
  revert h
  fun_cases regAtWord w
  case case1 hw => exact fun h => Option.some.inj h ▸ array (lo := 0x40) (by decide) rfl hw.1 hw.2
  case case2 hw => exact fun h => Option.some.inj h ▸ array (lo := 0x48) (by decide) rfl hw.1 hw.2
  case case3 hw => exact fun h => Option.some.inj h ▸ array (lo := 0x50) (by decide) rfl hw.1 hw.2
  case case4 hw => exact fun h => Option.some.inj h ▸ array (lo := 0x58) (by decide) rfl hw.1 hw.2
  case case56 => exact nofun
  all_goals
    rename_i hw
    intro h
    obtain rfl := Option.some.inj h
    rw [hw]
    decide

/-- The next bit of a register word, below the bits that stand above it. -/
theorem bitAt_or_bits (b : Bool) (i : Nat) (bs : List Bool) :
    bitAt b i ||| BitVec.ofNat 32 (2 ^ (i + 1) * Spec.bits bs) = BitVec.ofNat 32 (2 ^ i * Spec.bits (b :: bs)) := by
  have hb : bitAt b i = BitVec.ofNat 32 (2 ^ i * b.toNat) := by cases b <;> simp [bitAt]
  have hlt : 2 ^ i * b.toNat < 2 ^ (i + 1) := by
    have := Nat.two_pow_pos i
    rw [Nat.pow_succ]
    cases b <;> simp
  rw [hb, BitVec.or_comm, ← BitVec.ofNat_or, ← Nat.two_pow_add_eq_or_of_lt hlt, Spec.bits]
  congr 1
  ring

theorem bitAt_eq_bits (b : Bool) (i : Nat) : bitAt b i = BitVec.ofNat 32 (2 ^ i * Spec.bits [b]) := by
  have := bitAt_or_bits b i []
  rwa [Spec.bits, Nat.mul_zero, BitVec.or_zero] at this

/-- STATUS, bit by bit (10_state.md R41). -/
theorem statusWord_eq_bits (s : State) :
    statusWord s = BitVec.ofNat 32 (Spec.bits [s.pend.isSome, s.flags.done, s.flags.err, s.ev.isSome, s.flags.lenMismatch,
      s.flags.crcMismatch, s.flags.crcChecked, s.flags.encValid, s.flags.cmdOverrun, s.flags.busyAccess]) := by
  simp only [statusWord, State.busy, State.decValid, BitVec.or_assoc, bitAt_eq_bits _ 9, bitAt_or_bits, Nat.pow_zero, Nat.one_mul]

theorem irqWord_eq_bits (b c : Bool) : bitAt b 0 ||| bitAt c 1 = BitVec.ofNat 32 (Spec.bits [b, c]) := by
  rw [bitAt_eq_bits c, bitAt_or_bits, Nat.pow_zero, Nat.one_mul]

/-- The register map of the statements is the list of registers with what each reads (10_state.md R40-R53). -/
theorem registerTable_eq (s : State) : Spec.registerTable s = registerMap.map fun p => (p.1, readReg s p.2) := by
  simp only [registerMap, List.map_append, controlMap, unitMap, List.map_flatMap, List.map_cons, List.map_nil, readReg,
    statusWord_eq_bits, irqEnWord, irqPendWord, irqWord_eq_bits]
  rfl

/-- The write table of the statements is the list of registers that can be written, with what a write does to each
(10_state.md R36, R40-R53). -/
theorem writeTable_eq (s : State) (v : Word) : Spec.writeTable s v = writableMap.map fun p => (p.1, writeReg v s p.2) := by
  simp only [Spec.writeTable, Bool.if_false_left, Bool.decide_eq_true, Bool.and_comm (!_)]
  rfl

/-- A register that is not in the write table ignores a write (10_state.md R40). -/
theorem writeReg_of_not_writable {v : Word} {s : State} {r : Reg} (h : ∀ p ∈ writableMap, p.2 ≠ r) : writeReg v s r = s := by
  cases r
  case cmd | status | irqEn | irqPend | decCfg | decLen | encCfg0 | encCfg1 | encCfg2 | curBase | curOff | curRem | crcStart |
      crcLen => exact absurd h (by decide)
  all_goals rfl

/-- An address names the register at its word's offset (20_memory.md R100, R101). -/
theorem busTarget_eq_reg_iff {a : BusAddr} {r : Reg} : busTarget a = .reg r ↔ (a.toNat / 4 * 4, r) ∈ registerMap := by
  unfold busTarget
  constructor
  · intro h
    split at h
    · split at h
      · rename_i hw
        cases h
        exact Nat.mul_comm 4 _ ▸ mem_registerMap_of_regAtWord hw
      · cases h
    · split at h <;> cases h
  · intro h
    obtain ⟨hword, hlt⟩ := regAtWord_of_mem _ h
    rw [Nat.mul_div_cancel _ (by decide)] at hword
    rw [if_pos (by simp only at hlt; omega), hword]

theorem busTarget_eq_nothing {a : BusAddr} (ha : a.toNat < 0x1000) (h : ∀ r, busTarget a ≠ .reg r) :
    busTarget a = .nothing := by
  unfold busTarget at h ⊢
  rw [if_pos ha] at h ⊢
  split
  · rename_i r hr
    exact absurd (by rw [hr]) (h r)
  · rfl

/-- An entry of the register map of the statements, as a register. -/
theorem exists_reg_of_mem_registerTable {s : State} {a : BusAddr} {x : Nat × Word} (hx : x ∈ Spec.registerTable s)
    (ha : x.1 = a.toNat / 4 * 4) : ∃ r, busTarget a = .reg r ∧ x.2 = readReg s r := by
  rw [registerTable_eq] at hx
  obtain ⟨⟨offset, r⟩, hp, rfl⟩ := List.mem_map.1 hx
  exact ⟨r, busTarget_eq_reg_iff.2 (ha ▸ hp), rfl⟩

/-- An entry of the write table of the statements, as a register. -/
theorem exists_reg_of_mem_writeTable {s : State} {v : Word} {a : BusAddr} {x : Nat × State} (hx : x ∈ Spec.writeTable s v)
    (ha : x.1 = a.toNat / 4 * 4) : ∃ r, busTarget a = .reg r ∧ x.2 = writeReg v s r := by
  have sub : ∀ p ∈ writableMap, p ∈ registerMap := by decide
  rw [writeTable_eq] at hx
  obtain ⟨⟨offset, r⟩, hp, rfl⟩ := List.mem_map.1 hx
  exact ⟨r, busTarget_eq_reg_iff.2 (ha ▸ sub _ hp), rfl⟩

end Sys2Proof.Machine
end

section
/-! Host accesses: what an access is to an idle block, to the registers and to the RAMs, and to a busy one (10_state.md R34, R36,
R40-R57; 20_memory.md R100, R101, R109, R110). -/

namespace Sys2Proof.Machine

theorem step_of_read {s : State} {a : BusAddr} {rest : List HostEvent} (h : s.inbox = .read a :: rest) :
    step s = .next (hostRead a { s with inbox := rest }) := by
  simp only [step, h]

theorem step_of_write {s : State} {a : BusAddr} {v : Word} {rest : List HostEvent} (h : s.inbox = .write a v :: rest) :
    step s = .next (hostWrite a v { s with inbox := rest }) := by
  simp only [step, h]

section
variable {s : State}

theorem hostRead_of_idle (h : s.pend = none) (a : BusAddr) : hostRead a s = respond (readTarget s (busTarget a)) s := by
  simp [hostRead, State.busy, h]

theorem hostWrite_of_idle (h : s.pend = none) (a : BusAddr) (v : Word) : hostWrite a v s = writeTarget v s (busTarget a) := by
  simp [hostWrite, State.busy, h]

theorem busy_of_pend (h : s.pend ≠ none) : s.busy = true := Option.isSome_iff_ne_none.2 h

theorem hostRead_of_readable {a : BusAddr} (h : readableWhileBusy (busTarget a) = true) :
    hostRead a s = respond (readTarget s (busTarget a)) s := by
  simp [hostRead, h]

theorem hostRead_of_refused (hb : s.pend ≠ none) {a : BusAddr} (h : readableWhileBusy (busTarget a) ≠ true) :
    hostRead a s = refuseRead s := by
  simp [hostRead, busy_of_pend hb, h]

theorem hostWrite_of_busy (hb : s.pend ≠ none) (a : BusAddr) (v : Word) : hostWrite a v s = busyWrite v s (busTarget a) := by
  simp [hostWrite, busy_of_pend hb]

end

/-! ## The registers of an idle block -/

/-- Settles O50: the address names the register of the map's entry, or nothing. -/
theorem hostReadsTheRegisterMap : Obligations.HostReadsTheRegisterMap := by
  intro s a rest hidle hin ha answers
  have hstep : step s = .next (respond (readTarget { s with inbox := rest } (busTarget a)) { s with inbox := rest }) := by
    rw [step_of_read hin, hostRead_of_idle (s := { s with inbox := rest }) hidle]
  refine ⟨fun x hx hxa => ?_, fun hnone => ?_⟩
  · obtain ⟨r, htarget, hread⟩ := exists_reg_of_mem_registerTable (s := { s with inbox := rest }) hx hxa
    simp only [answers, hstep, htarget, hread]
    rfl
  · have hnothing : busTarget a = .nothing := busTarget_eq_nothing ha fun r hr =>
      hnone _ (registerTable_eq s ▸ List.mem_map_of_mem (busTarget_eq_reg_iff.1 hr)) rfl
    simp only [answers, hstep, hnothing]
    rfl

/-- Settles O51: the address names the register of the table's entry, or one that no write changes, or nothing. -/
theorem hostWritesTheRegisterMap : Obligations.HostWritesTheRegisterMap := by
  intro s a v rest hidle hin ha table
  have hstep : step s = .next (writeTarget v { s with inbox := rest } (busTarget a)) := by
    rw [step_of_write hin, hostWrite_of_idle (s := { s with inbox := rest }) hidle]
  refine ⟨fun x hx hxa => ?_, fun hnone => ?_⟩
  · obtain ⟨r, htarget, hwrite⟩ := exists_reg_of_mem_writeTable hx hxa
    rw [hstep, htarget, hwrite, writeTarget]
  · rw [hstep]
    cases htarget : busTarget a with
    | reg r =>
      have writableOrNot : ∀ p ∈ registerMap, p ∈ writableMap ∨ ∀ q ∈ writableMap, q.2 ≠ p.2 := by decide
      rcases writableOrNot _ (busTarget_eq_reg_iff.1 htarget) with hw | hw
      · exact absurd rfl (hnone _ (writeTable_eq _ v ▸ List.mem_map_of_mem hw))
      · rw [writeTarget, writeReg_of_not_writable hw]
    | ram r i =>
      exact absurd (busTarget_eq_nothing ha fun q hq => by rw [htarget] at hq; cases hq) (by rw [htarget]; nofun)
    | nothing => rfl

/-! ## The RAMs of an idle block -/

/-- An address past the registers names the RAM entry of its word (20_memory.md R101). -/
theorem busTarget_of_ramAddr {a : BusAddr} {r : Ram} {i : Nat} (ha : 0x1000 ≤ a.toNat) (hi : i < ramEntries r)
    (haddr : a.toNat / 4 * 4 = ramAddr r i) : busTarget a = .ram r i := by
  have hram : ramAt a.toNat = some (r, i) := by
    rw [show a.toNat = ramAddr r i + a.toNat % 4 by omega]
    exact ramAt_ramAddr hi (by omega)
  unfold busTarget
  rw [if_neg (by omega), hram]

/-- An entry of a RAM's window lies at its address (20_memory.md R101). -/
theorem ramAddr_of_ramAt {a : Nat} {r : Ram} {i : Nat} (h : ramAt a = some (r, i)) : a / 4 * 4 = ramAddr r i := by
  obtain ⟨q, -, hq⟩ := List.exists_of_findSome?_eq_some h
  simp only [ramIndex?, Option.map_eq_some_iff] at hq
  obtain ⟨j, hj, he⟩ := hq
  cases he
  split at hj
  · cases hj
    have : ramBase r % 4 = 0 := by cases r <;> rfl
    unfold ramAddr
    omega
  · cases hj

theorem busTarget_of_unmapped {a : BusAddr} (ha : 0x1000 ≤ a.toNat)
    (h : ∀ r i, i < ramEntries r → a.toNat / 4 * 4 ≠ ramAddr r i) : busTarget a = .nothing := by
  have hram : ramAt a.toNat = none := by
    by_contra hne
    obtain ⟨⟨r, i⟩, hri⟩ := Option.ne_none_iff_exists'.1 hne
    exact h r i (ramAt_some hri) (ramAddr_of_ramAt hri)
  unfold busTarget
  rw [if_neg (by omega), hram]

/-- The RAMs of 32-bit words (10_state.md R34). -/
def isWide (r : Ram) : Prop := r = .ibuf ∨ r = .obuf

theorem readRam_of_wide (s : State) {r : Ram} (h : isWide r) (i : Nat) : readRam s r i = ramWord s.mem r i := by
  rcases h with rfl | rfl <;> rfl

theorem readRam_of_not_wide (s : State) {r : Ram} (h : ¬ isWide r) (i : Nat) :
    readRam s r i = (ramHalf s.mem r i).zeroExtend 32 := by
  cases r
  case ibuf => exact absurd (.inl rfl) h
  case obuf => exact absurd (.inr rfl) h
  all_goals rfl

/-- The memory after a write to a RAM that can be written (10_state.md R34). -/
theorem writeRam_mem (v : Word) (i : Nat) (s : State) {r : Ram} (hres : r ≠ .res) :
    (isWide r → (writeRam v i s r).mem = Memory.storeWords s.mem (ramAddr r i) [v]) ∧
      (¬ isWide r → (writeRam v i s r).mem = Memory.storeHalves s.mem (ramAddr r i) [v.extractLsb' 0 16]) := by
  cases r
  case res => exact absurd rfl hres
  case ibuf => exact ⟨fun _ => rfl, fun h => absurd (.inl rfl) h⟩
  case obuf => exact ⟨fun _ => rfl, fun h => absurd (.inr rfl) h⟩
  all_goals exact ⟨fun h => absurd h (by simp [isWide]), fun _ => rfl⟩

/-- What else a write to a RAM does: it discards EV in IBUF and clears ENC_VALID in OBUF (10_state.md R57). -/
theorem writeRam_rest (v : Word) (i : Nat) (s : State) (r : Ram) :
    { writeRam v i s r with mem := s.mem } =
      if r = .ibuf then Spec.eventDiscarded s
      else if r = .obuf then { s with flags := { s.flags with encValid := false } }
      else s := by
  cases r <;> rfl

/-- Settles O52: the address names the entry, or nothing. -/
theorem hostAccessesTheRams : Obligations.HostAccessesTheRams := by
  intro s a v rest hidle ha s0 reads
  have hread : s.inbox = .read a :: rest → step s = .next (respond (readTarget s0 (busTarget a)) s0) := fun hin => by
    rw [step_of_read hin, hostRead_of_idle (s := s0) hidle]
  have hwrite : s.inbox = .write a v :: rest → step s = .next (writeTarget v s0 (busTarget a)) := fun hin => by
    rw [step_of_write hin, hostWrite_of_idle (s := s0) hidle]
  refine ⟨fun r i hi haddr => ?mapped, fun hnone => ?unmapped⟩
  case unmapped =>
    rw [busTarget_of_unmapped ha hnone] at hread hwrite
    exact ⟨hread, hwrite⟩
  case mapped =>
    rw [busTarget_of_ramAddr ha hi haddr] at hread hwrite
    refine ⟨fun hw hin => ?_, fun hw hin => ?_, ?_,
      fun hres hin => ⟨_, hwrite hin, fun hw => ?_, fun hw => ?_, fun b hb => ?_, ?_⟩⟩
    · rw [hread hin, readTarget, readRam_of_wide s0 hw]
      rfl
    · rw [hread hin, readTarget, readRam_of_not_wide s0 hw]
      rfl
    · rintro rfl hin
      exact hwrite hin
    · rw [writeTarget, (writeRam_mem v i s0 hres).1 hw]
      exact Memory.word_storeWords s0.mem (ramAddr r i) [v] Nat.zero_lt_one
    · rw [writeTarget, (writeRam_mem v i s0 hres).2 hw]
      exact Memory.half_storeHalves s0.mem (ramAddr r i) [_] Nat.zero_lt_one
    · by_cases hw : isWide r
      · rw [writeTarget, (writeRam_mem v i s0 hres).1 hw]
        exact Memory.read_storeWords_outside hb
      · rw [writeTarget, (writeRam_mem v i s0 hres).2 hw]
        exact Memory.read_storeHalves_outside hb
    · exact writeRam_rest v i s0 r

/-! ## A busy block -/

/-- The registers that can be read during BUSY are those of four offsets (20_memory.md R110). -/
theorem readableWhileBusy_iff (a : BusAddr) :
    readableWhileBusy (busTarget a) = true ↔ a.toNat / 4 * 4 ∈ [0x000, 0x008, 0x00C, 0x010] := by
  constructor
  · have offsets : ∀ p ∈ registerMap, readableWhileBusy (.reg p.2) = true → p.1 ∈ [0x000, 0x008, 0x00C, 0x010] := by decide
    intro h
    cases htarget : busTarget a with
    | reg r => exact offsets _ (busTarget_eq_reg_iff.1 htarget) (htarget ▸ h)
    | _ => rw [htarget] at h; cases h
  · have registers : ∀ offset ∈ [0x000, 0x008, 0x00C, 0x010],
        ∃ p ∈ registerMap, p.1 = offset ∧ readableWhileBusy (.reg p.2) = true := by decide
    intro h
    obtain ⟨⟨offset, r⟩, hp, hoffset, hread⟩ := registers _ h
    rwa [busTarget_eq_reg_iff.2 (show (a.toNat / 4 * 4, r) ∈ registerMap from hoffset ▸ hp)]

/-- What a write during BUSY does, by its offset (20_memory.md R110; 92_eei_decisions.md D30). -/
theorem busyWrite_reg (v : Word) (s : State) :
    busyWrite v s (.reg .id) = s ∧ busyWrite v s (.reg .cmd) = { s with flags := { s.flags with cmdOverrun := true } } ∧
      ∀ r ∈ [Reg.status, .irqEn, .irqPend], busyWrite v s (.reg r) = writeReg v s r := by
  refine ⟨rfl, rfl, fun r hr => ?_⟩
  fin_cases hr <;> rfl

/-- Every other write during BUSY is refused (20_memory.md R110). -/
theorem busyWrite_of_refused (v : Word) (s : State) {target : BusTarget}
    (h : ∀ r ∈ [Reg.id, .cmd, .status, .irqEn, .irqPend], target ≠ .reg r) :
    busyWrite v s target = { s with flags := { s.flags with busyAccess := true } } := by
  unfold busyWrite
  split <;> first | rfl | exact absurd rfl (h _ (by decide))

/-- Settles O53, by the offset of the access. -/
theorem hostAccessesWhileBusy : Obligations.HostAccessesWhileBusy := by
  intro s a v rest hbusy s0 offset
  refine ⟨fun hin => ⟨fun hoff x hx hxa => ?read, fun hoff => ?refusedRead⟩, fun hin => ?write⟩
  case read =>
    obtain ⟨r, htarget, hread⟩ := exists_reg_of_mem_registerTable (s := s0) hx hxa
    rw [step_of_read hin, hostRead_of_readable ((readableWhileBusy_iff a).2 hoff), htarget, hread]
    rfl
  case refusedRead =>
    exact ⟨_, _, by rw [step_of_read hin, hostRead_of_refused (s := s0) hbusy (mt (readableWhileBusy_iff a).1 hoff)]; rfl⟩
  case write =>
    have hstep : step s = .next (busyWrite v s0 (busTarget a)) := by
      rw [step_of_write hin, hostWrite_of_busy (s := s0) hbusy]
    obtain ⟨onId, onCmd, onEffect⟩ := busyWrite_reg v s0
    rw [hstep]
    refine ⟨fun hoff => ?_, fun hoff => ?_, fun hoff x hx hxa => ?_, fun hoff => ?_⟩
    · rw [busTarget_eq_reg_iff.2 (show (offset, Reg.id) ∈ registerMap from hoff ▸ by decide), onId]
    · rw [busTarget_eq_reg_iff.2 (show (offset, Reg.cmd) ∈ registerMap from hoff ▸ by decide), onCmd]
    · obtain ⟨r, htarget, hwrite⟩ := exists_reg_of_mem_writeTable hx hxa
      have effect : ∀ p ∈ registerMap, p.1 ∈ [0x008, 0x00C, 0x010] → p.2 ∈ [Reg.status, .irqEn, .irqPend] := by decide
      rw [htarget, hwrite, onEffect r (effect _ (busTarget_eq_reg_iff.1 htarget) hoff)]
    · have offsets : ∀ p ∈ registerMap, p.2 ∈ [Reg.id, .cmd, .status, .irqEn, .irqPend] →
          p.1 ∈ [0x000, 0x004, 0x008, 0x00C, 0x010] := by decide
      rw [busyWrite_of_refused v s0 fun r hr htarget => hoff (offsets _ (busTarget_eq_reg_iff.1 htarget) hr)]

end Sys2Proof.Machine
end

section
/-! What a command writes: the RAM it stores to, and the registers and flags it can change (10_state.md R34, R46-R57). -/

namespace Sys2Proof.Machine

/-- The windows of the RAMs are disjoint (20_memory.md R101). -/
theorem inRam_unique {r q : Ram} {a : Nat} (hr : inRam r a) (hq : inRam q a) : r = q := by
  by_contra hne
  obtain ⟨hlo, hhi⟩ := hq
  have hother := ramIndex?_other (r := q) (q := r) (i := (a - ramBase q) / 4) (j := (a - ramBase q) % 4) (by omega)
    (by omega) hne
  rw [ramAddr, show ramBase q + 4 * ((a - ramBase q) / 4) + (a - ramBase q) % 4 = a by omega, ramIndex?,
    if_pos (show ramBase r ≤ a ∧ a < ramBase r + 4 * ramEntries r from hr)] at hother
  cases hother

/-- A byte that words stored at the start of a RAM change lies in that RAM. -/
theorem inRam_of_storeWords_ne {m : Memory} {r : Ram} {ws : List Word} {a : Nat} (hl : ws.length ≤ ramEntries r)
    (hne : Memory.read (Memory.storeWords m (ramBase r) ws) a ≠ Memory.read m a) : inRam r a := by
  by_contra h
  unfold inRam at h
  exact hne (Memory.read_storeWords_outside (by omega))

/-- A byte that 16-bit entries stored at the start of a RAM change lies in that RAM, or past it. -/
theorem ge_ramBase_of_storeHalves_ne {m : Memory} {r : Ram} {hs : List Half} {a : Nat}
    (hne : Memory.read (Memory.storeHalves m (ramBase r) hs) a ≠ Memory.read m a) :
    ramBase r ≤ a ∧ a < ramBase r + 4 * hs.length := by
  by_contra h
  exact hne (Memory.read_storeHalves_outside (by omega))

/-- RES is the last RAM (20_memory.md R101). -/
theorem eq_res_of_inRam {r : Ram} {a : Nat} (h : inRam r a) (ha : ramBase .res ≤ a) : r = .res := by
  obtain ⟨-, hhi⟩ := h
  cases r
  case res => rfl
  all_goals
    simp only [ramBase, ramEntries, Config.ibufWords, Config.obufWords] at hhi ha
    omega

/-- REORDER and DISORDER write FOUT (42_reorder.md R265). -/
theorem eq_fout_of_permuteFrame_ne {s : State} {perm : List Half → List Half} (hp : ∀ xs, (perm xs).length = 128) {r : Ram}
    {a : Nat} (ha : inRam r a) (hne : Memory.read (permuteFrame perm s).mem a ≠ Memory.read s.mem a) : r = .fout := by
  obtain ⟨hlo, hhi⟩ := ge_ramBase_of_storeHalves_ne hne
  rw [hp] at hhi
  exact inRam_unique ha ⟨hlo, hhi⟩

theorem eq_of_storeWords_ne {m : Memory} {r q : Ram} {ws : List Word} {a : Nat} (ha : inRam r a)
    (hl : ws.length ≤ ramEntries q) (hne : Memory.read (Memory.storeWords m (ramBase q) ws) a ≠ Memory.read m a) : r = q :=
  inRam_unique ha (inRam_of_storeWords_ne hl hne)

/-- The RAM byte that a command changes belongs to a RAM the command writes (10_state.md R34). -/
theorem Commits.ram_changed {i : Instr} {s u : State} (hu : Commits s i u) {r : Ram} {a : Nat} (ha : inRam r a)
    (hne : Memory.read u.mem a ≠ Memory.read s.mem a) :
    (r = .ibuf ∧ (i = .swap64 .ibuf ∨ i = .copyO2i)) ∨ (r = .obuf ∧ (i = .encBuild ∨ i = .swap64 .obuf)) ∨
      (r = .fout ∧ (i = .reorder ∨ i = .disorder)) ∨ (r = .res ∧ ∃ idx, i = .decSamples idx) := by
  cases hu with
  | reorder => exact .inr (.inr (.inl ⟨eq_fout_of_permuteFrame_ne length_reorderFrame ha hne, .inl rfl⟩))
  | disorder => exact .inr (.inr (.inl ⟨eq_fout_of_permuteFrame_ne length_disorderFrame ha hne, .inr rfl⟩))
  | decSamples => exact .inr (.inr (.inr ⟨eq_res_of_inRam ha (ge_ramBase_of_storeHalves_ne hne).1, _, rfl⟩))
  | encBuild hb =>
    obtain ⟨hwords, -, -, hfit⟩ := buildEvent_bounds hb
    refine .inr (.inl ⟨eq_of_storeWords_ne ha ?_ hne, .inl rfl⟩)
    simp only [obufBytes, Config.obufWords] at hfit
    simp only [List.length_append, List.length_replicate, ramEntries, Config.obufWords]
    omega
  | swapIbuf hn =>
    refine .inl ⟨eq_of_storeWords_ne ha ?_ hne, .inl rfl⟩
    rwa [length_swapPairs, Memory.length_words]
  | swapObuf =>
    refine .inr (.inl ⟨eq_of_storeWords_ne ha ?_ hne, .inr rfl⟩)
    rw [length_swapPairs, Memory.length_words]
    exact Nat.min_le_right _ _
  | copyO2i hn =>
    refine .inl ⟨eq_of_storeWords_ne ha ?_ hne, .inr rfl⟩
    rwa [Memory.length_words]
  | _ => exact absurd rfl hne

theorem onFail_mem (i : Instr) (s : State) : (onFail i s).mem = s.mem := by cases i <;> rfl

/-- Settles O59: what a command commits is the record update of its row of `Commits`, what a failing one writes that of
`onFail`, and the completion after either writes only DONE, ERR, the error registers and IRQ_PEND. -/
theorem commandsWriteOnlyTheirState : Obligations.CommandsWriteOnlyTheirState := by
  intro i s t h
  rcases exec_cases h with ⟨u, hu, rfl⟩ | ⟨e, rfl⟩
  · refine ⟨fun r a ha hne => hu.ram_changed ha hne, ?_⟩
    cases hu <;> simp
  · refine ⟨fun r a _ hne => absurd (congrArg (Memory.read · a) (onFail_mem i s)) hne, ?_⟩
    cases i <;> simp [onFail]

end Sys2Proof.Machine
end

section
/-! The engine's turn, and what the host can do before it: the engine sees only what `engineView` keeps of a state, accesses during
BUSY leave that view as it is, and a command maps equal views to equal views (10_state.md R31; 20_memory.md R110, R111). -/

namespace Sys2Proof.Machine

theorem step_of_idle {s : State} {rest : List HostEvent} (h : s.inbox = .idle :: rest) :
    step s = engineStep { s with inbox := rest } := by
  simp only [step, h]

theorem step_of_nil {s : State} (h : s.inbox = []) : step s = engineStep s := by
  simp only [step, h]

theorem engineStep_of_none {s : State} (h : s.pend = none) : engineStep s = .next s := by
  simp only [engineStep, h]

theorem engineStep_of_decode {s : State} {p : Pending} {i : Instr} (hp : s.pend = some p)
    (hi : decode (commandWord p.op p.arg) = .ok i) : engineStep s = exec i s := by
  simp only [engineStep, hp, hi]

theorem engineStep_of_reserved {s : State} {p : Pending} {op : Byte} (hp : s.pend = some p)
    (ho : decode (commandWord p.op p.arg) = .error (.reservedOp op)) : engineStep s = .next (illegalOpcode op s) := by
  simp only [engineStep, hp, ho]

/-- Settles O4: the two turns of the engine, and the step of a block at rest. -/
theorem stepRunsTheDecodedCommand : Obligations.StepRunsTheDecodedCommand := by
  refine ⟨fun s p i hp hi => ⟨fun hin => ?_, fun rest hin => ?_⟩, fun s hp hin => ?_⟩
  · rw [step_of_nil hin, engineStep_of_decode hp hi]
  · rw [step_of_idle hin, engineStep_of_decode (s := { s with inbox := rest }) hp hi]
  · rw [step_of_nil hin, engineStep_of_none hp]

/-- A word whose OP is reserved decodes to that OP (30_encoding.md R143). -/
theorem decode_of_reservedOp {op : Byte} (arg : BitVec 24) (h : Spec.reservedOp op.toNat) :
    decode (commandWord op arg) = .error (.reservedOp op) := by
  unfold decode
  rw [Laws.commandOp_commandWord]
  split
  case h_19 => rfl
  all_goals
    rename_i hop
    rw [hop] at h
    simp [Spec.reservedOp] at h

/-! ## What the engine sees of a state -/

/-- `s` with an empty latch and with the sticky flags, the interrupt registers and the host's side of `host`: what is left of `s` is
what a command reads or writes (20_memory.md R110, R111). -/
def withHostSide (host s : State) : State :=
  { s with
    pend := none, irq := host.irq, inbox := host.inbox, outbox := host.outbox, draws := host.draws
    flags := { s.flags with cmdOverrun := host.flags.cmdOverrun, busyAccess := host.flags.busyAccess } }

/-- What the engine sees of a state. -/
def engineView (s : State) : State := withHostSide State.reset s

/-- Two states are the same for the engine when they have the same view. -/
theorem sameForEngine_iff {s t : State} : Spec.sameForEngine s t ↔ engineView s = engineView t :=
  ⟨congrArg engineView, congrArg (withHostSide t)⟩

section
variable (s : State)

@[simp] theorem engineView_mem : (engineView s).mem = s.mem := rfl
@[simp] theorem engineView_decCfg : (engineView s).decCfg = s.decCfg := rfl
@[simp] theorem engineView_decLen : (engineView s).decLen = s.decLen := rfl
@[simp] theorem engineView_enc : (engineView s).enc = s.enc := rfl
@[simp] theorem engineView_cur : (engineView s).cur = s.cur := rfl
@[simp] theorem engineView_ev : (engineView s).ev = s.ev := rfl

end

theorem engineView_complete {s t : State} (h : engineView s = engineView t) :
    engineView (complete s) = engineView (complete t) := by
  show engineView (complete (engineView s)) = engineView (complete (engineView t))
  rw [h]

theorem engineView_raiseError {s t : State} (h : engineView s = engineView t) (e : CommandError) :
    engineView (raiseError e s) = engineView (raiseError e t) := by
  show engineView (raiseError e (engineView s)) = engineView (raiseError e (engineView t))
  rw [h]

/-- Results that agree in their error, or in the view of their state, end a command in the same view. -/
theorem engineView_finish {s s' t t' : State} {f f' : State → State} {r r' : Except CommandError State}
    (ht : finish s f r = .next t) (ht' : finish s' f' r' = .next t') (hf : engineView (f s) = engineView (f' s'))
    (hr : r.map engineView = r'.map engineView) : engineView t = engineView t' := by
  rcases finish_cases ht with ⟨u, rfl, rfl⟩ | ⟨e, rfl, rfl⟩ <;>
    rcases finish_cases ht' with ⟨u', rfl, rfl⟩ | ⟨e', rfl, rfl⟩
  · exact engineView_complete (Except.ok.inj hr)
  · cases hr
  · cases hr
  · obtain rfl := Except.error.inj hr
    exact engineView_raiseError hf e

theorem cursorRead_engineView (k n : Nat) (value : Nat → Word) (s : State) :
    (cursorRead k n value s).map engineView = (cursorRead k n value (engineView s)).map engineView := by
  unfold cursorRead
  rw [engineView_cur]
  split <;> rfl

/-- A check that reads nothing the view leaves out keeps the agreement of what follows it. -/
theorem check_engineView {c : Prop} [Decidable c] {e : CommandError} {r r' : Except CommandError State}
    (h : r.map engineView = r'.map engineView) :
    (if c then .error e else r).map engineView = (if c then .error e else r').map engineView := by
  split
  · rfl
  · exact h

/-- A command gives a state and its view results that agree: no check and no value of a command reads what the view leaves out. -/
theorem exec_engineView {i : Instr} {s t t' : State} (ht : exec i s = .next t) (ht' : exec i (engineView s) = .next t') :
    engineView t = engineView t' := by
  cases i <;> simp only [exec] at ht ht' <;> refine engineView_finish ht ht' rfl ?_
  case nop | curNorm | reorder | disorder => rfl
  case curByte | curU16 | curU32 => exact cursorRead_engineView _ _ _ s
  case curAdv | crc | copyO2i => exact check_engineView rfl
  case crcBe => exact check_engineView (check_engineView rfl)
  case swap64 tgt =>
    cases tgt with
    | ibuf => exact check_engineView rfl
    | obuf => rfl
  case decParse =>
    rw [engineView_mem, engineView_decCfg, engineView_decLen]
    split <;> rfl
  case encBuild =>
    rw [engineView_mem, engineView_enc]
    split <;> rfl
  case decChan | decStatus =>
    rw [engineView_ev]
    split <;> rfl
  case decCheck =>
    rw [engineView_ev]
    split
    · rfl
    · rw [engineView_decCfg]
      split <;> rfl
  case decSamples =>
    rw [engineView_ev]
    split
    · rfl
    · rw [engineView_mem]
      split <;> rfl

/-- Commands take states with one view to states with one view. -/
theorem engineView_exec {i : Instr} {s s' t t' : State} (h : engineView s = engineView s') (ht : exec i s = .next t)
    (ht' : exec i s' = .next t') : engineView t = engineView t' := by
  obtain ⟨v, hv⟩ := exec_next i (engineView s)
  exact (exec_engineView ht hv).trans (exec_engineView ht' (h ▸ hv)).symm

/-! ## What the host does during BUSY -/

/-- What an access of the host keeps while a command is pending (20_memory.md R110, R111). -/
structure KeepsCommand (s t : State) : Prop where
  pend : t.pend = s.pend
  inbox : t.inbox = s.inbox
  view : engineView t = engineView s

theorem hostRead_keepsCommand {s : State} (hb : s.pend ≠ none) (a : BusAddr) : KeepsCommand s (hostRead a s) := by
  by_cases h : readableWhileBusy (busTarget a) = true
  · rw [hostRead_of_readable h]
    exact ⟨rfl, rfl, rfl⟩
  · rw [hostRead_of_refused hb h]
    exact ⟨rfl, rfl, rfl⟩

theorem hostWrite_keepsCommand {s : State} (hb : s.pend ≠ none) (a : BusAddr) (v : Word) :
    KeepsCommand s (hostWrite a v s) := by
  rw [hostWrite_of_busy hb]
  unfold busyWrite
  split <;> exact ⟨rfl, rfl, rfl⟩

/-- An access of the host during BUSY is one step, after which the command is still pending. -/
theorem step_of_access {s : State} {e : HostEvent} {rest : List HostEvent} (hb : s.pend ≠ none) (hin : s.inbox = e :: rest)
    (he : e ≠ .idle ∧ e ≠ .rst) : ∃ u, step s = .next u ∧ KeepsCommand { s with inbox := rest } u := by
  cases e with
  | idle => exact absurd rfl he.1
  | rst => exact absurd rfl he.2
  | read a => exact ⟨_, step_of_read hin, hostRead_keepsCommand (s := { s with inbox := rest }) hb a⟩
  | write a v => exact ⟨_, step_of_write hin, hostWrite_keepsCommand (s := { s with inbox := rest }) hb a v⟩

theorem run_succ {s u : State} (h : step s = .next u) (n : Nat) : Spec.run (n + 1) s = Spec.run n u := by
  simp only [Spec.run, h]

/-- The host's accesses pass and leave the command pending, whatever follows them in the inbox. -/
theorem run_accesses {accesses rest : List HostEvent} (he : ∀ e ∈ accesses, e ≠ .idle ∧ e ≠ .rst) (n : Nat) :
    ∀ {s : State}, s.pend ≠ none → s.inbox = accesses ++ rest →
      ∃ u, Spec.run (accesses.length + n) s = Spec.run n u ∧ KeepsCommand { s with inbox := rest } u := by
  induction accesses with
  | nil =>
    rintro s - hin
    exact ⟨s, by rw [List.length_nil, Nat.zero_add], rfl, hin, rfl⟩
  | cons e accesses ih =>
    intro s hb hin
    obtain ⟨u, hstep, hu⟩ := step_of_access hb hin (he e List.mem_cons_self)
    obtain ⟨v, hrun, hv⟩ := ih (fun e h => he e (List.mem_cons_of_mem _ h)) (hu.pend ▸ hb) hu.inbox
    refine ⟨v, ?_, hv.pend.trans hu.pend, hv.inbox, hv.view.trans hu.view⟩
    rw [List.length_cons, Nat.add_right_comm, run_succ hstep, hrun]

theorem exec_completes {i : Instr} {s t : State} (h : exec i s = .next t) :
    t.pend = none ∧ t.flags.done = true ∧ t.inbox = s.inbox := by
  rcases exec_cases h with ⟨u, hu, rfl⟩ | ⟨e, rfl⟩
  · exact ⟨rfl, rfl, by cases hu <;> rfl⟩
  · exact ⟨rfl, rfl, by cases i <;> rfl⟩

/-- A word is a command or has a reserved OP (30_encoding.md R141, R143). -/
theorem decode_cases (w : Word) : (∃ i, decode w = .ok i) ∨ ∃ op, decode w = .error (.reservedOp op) := by
  cases h : decode w with
  | ok i => exact .inl ⟨i, rfl⟩
  | error e => exact .inr ⟨e.1, rfl⟩

/-- ILLEGAL_OPCODE, as the statements write it (30_encoding.md R143; 60_exceptions.md R401). -/
theorem illegalOpcode_eq_failure (op : Byte) (s : State) :
    illegalOpcode op s = Spec.failure s 0x30 0 0xFF 0 op.toNat := rfl

/-- Settles O60: the accesses keep the command and the engine's view, and the command takes equal views to equal views. -/
theorem latchedCommandCompletes : Obligations.LatchedCommandCompletes := by
  intro s p accesses rest hp he hin
  obtain ⟨u, hrun, hpend, hinbox, hview⟩ := run_accesses he 1 (by rw [hp]; nofun) hin
  replace hpend : u.pend = some p := hpend.trans hp
  replace hview : engineView { u with inbox := rest } = engineView s := hview
  have hturn := step_of_idle hinbox
  rcases decode_cases (commandWord p.op p.arg) with ⟨i, hi⟩ | ⟨op, hop⟩
  · obtain ⟨t, ht⟩ := exec_next i { u with inbox := rest }
    obtain ⟨hnone, hdone, hrest⟩ := exec_completes ht
    rw [engineStep_of_decode (s := { u with inbox := rest }) hpend hi, ht] at hturn
    refine ⟨t, by rw [hrun, run_succ hturn]; rfl, hnone, hdone, hrest, fun j hj => ?_, fun hr => ?_⟩
    · obtain rfl := Except.ok.inj (hi.symm.trans hj)
      obtain ⟨v, hv⟩ := exec_next i s
      exact ⟨v, hv, sameForEngine_iff.2 (engineView_exec hview ht hv)⟩
    · rw [decode_of_reservedOp p.arg hr] at hi
      cases hi
  · rw [engineStep_of_reserved (s := { u with inbox := rest }) hpend hop] at hturn
    refine ⟨_, by rw [hrun, run_succ hturn]; rfl, rfl, rfl, rfl, fun j hj => ?_, fun hr => ?_⟩
    · rw [hop] at hj
      cases hj
    · obtain rfl := DecodeError.reservedOp.inj (Except.error.inj (hop.symm.trans (decode_of_reservedOp p.arg hr)))
      rw [← illegalOpcode_eq_failure]
      exact sameForEngine_iff.2 (engineView_raiseError hview _)

end Sys2Proof.Machine
end

section
/-! The byte lanes of a word, and the logical bytes of IBUF as lanes of its words (20_memory.md R103, R104). That a command computes
the same whatever the host does while it is pending is one more use of the engine's view (R110, R111). -/

namespace Sys2Proof.Machine

/-- Settles O8: the engine's view leaves out exactly what `Spec.sameForEngine` does, and a command takes equal views to equal
views. -/
theorem commandIgnoresHostSide : Obligations.CommandIgnoresHostSide :=
  fun _ _ _ _ _ hs ht ht' => sameForEngine_iff.2 (engineView_exec (sameForEngine_iff.1 hs) ht ht')

/-- Byte lane j of the word at an address is the byte j past it (20_memory.md R103). -/
theorem Memory.extract_word (m : Memory) (a : Nat) {j : Nat} (hj : j < 4) :
    (Memory.word m a).extractLsb' (8 * j) 8 = Memory.read m (a + j) := by
  have h := extract_wordOfBytes (Memory.read m (a + 3)) (Memory.read m (a + 2)) (Memory.read m (a + 1)) (Memory.read m a)
    (j := 3 - j) (by omega)
  rw [Nat.sub_sub_self (by omega)] at h
  refine h.trans ?_
  interval_cases j <;> rfl

/-- `q ^ 3` stays in the word of q and takes its lanes in the opposite order (20_memory.md R104). -/
theorem xor_three_eq (q : Nat) : q ^^^ 3 = 4 * (q / 4) + (3 - q % 4) := by
  have hword : (q ^^^ 3) / 4 = q / 4 := by
    simpa [Nat.shiftRight_eq_div_pow] using Nat.shiftRight_xor_distrib (a := q) (b := 3) (i := 2)
  have hlane : (q ^^^ 3) % 4 = 3 - q % 4 := by
    have hmod : (q ^^^ 3) % 4 = q % 4 ^^^ 3 := Nat.xor_mod_two_pow (n := 2)
    have hq : q % 4 < 4 := Nat.mod_lt q (by decide)
    rw [hmod]
    interval_cases q % 4 <;> rfl
  omega

theorem logicalByte_of_lt (m : Memory) {q : Nat} (hq : q < 4 * 16384) :
    logicalByte m q = Memory.read m (0x10000 + (q ^^^ 3)) :=
  if_pos hq

/-- A logical byte is a lane of its word, the most significant lane first (20_memory.md R104). -/
theorem logicalByte_eq_extract_ramWord (m : Memory) {q : Nat} (hq : q < 4 * 16384) :
    logicalByte m q = (ramWord m .ibuf (q / 4)).extractLsb' (8 * (3 - q % 4)) 8 := by
  rw [logicalByte_of_lt m hq, xor_three_eq, ← Nat.add_assoc]
  exact (Memory.extract_word m (ramAddr .ibuf (q / 4)) (by omega)).symm

/-- Settles O16: the definition gives the physical byte, and the lane of the word is the shift and the mask. -/
theorem logicalByteOfItsWord : Obligations.LogicalByteOfItsWord := by
  intro m q hq
  refine ⟨logicalByte_of_lt m hq, ?_⟩
  have hlane : q &&& 3 = q % 4 := Nat.and_two_pow_sub_one_eq_mod q 2
  have hmask (x : Nat) : x &&& 0xFF = x % 2 ^ 8 := Nat.and_two_pow_sub_one_eq_mod x 8
  rw [logicalByte_eq_extract_ramWord m hq, BitVec.extractLsb'_toNat, hlane, hmask, Nat.shiftRight_eq_div_pow q]

end Sys2Proof.Machine
end

section
/-! Command words: the two fields of a word, the operand fields of ARG, and that `decode` and `encode` are inverse up to the unused
ARG bits (30_encoding.md R140-R144, R201). -/

namespace Sys2Proof

open Laws (commandOp_commandWord opcode_not_reserved)
open Machine (decode_cases decode_of_reservedOp)

/-! ## The two fields of a word -/

theorem commandArg_commandWord (op : Byte) (arg : BitVec 24) : commandArg (commandWord op arg) = arg :=
  BitVec.extractLsb'_append_eq_left

theorem commandWord_fields (w : Word) : commandWord (commandOp w) (commandArg w) = w :=
  (BitVec.extractLsb'_append_extractLsb'_eq_extractLsb' rfl).trans BitVec.extractLsb'_eq_self

theorem toNat_commandOp (w : Word) : (commandOp w).toNat = w.toNat % 256 := by
  simp [commandOp]

/-- Masking a word masks its two fields (30_encoding.md R140). -/
theorem commandWord_and_fields (w mask : Word) :
    commandWord (commandOp w &&& commandOp mask) (commandArg w &&& commandArg mask) = w &&& mask := by
  calc
    _ = commandWord (commandOp (w &&& mask)) (commandArg (w &&& mask)) := by
      simp only [commandOp, commandArg, BitVec.extractLsb'_and]
    _ = w &&& mask := commandWord_fields _

/-! ## The operand fields of ARG, and the ARG of operands -/

theorem argOffset_lt (arg : BitVec 24) : argOffset arg < 2 ^ 23 := BitVec.isLt _

theorem argIndex_lt (arg : BitVec 24) : argIndex arg < 2 ^ 8 := BitVec.isLt _

theorem argOffset_offsetArg {k : Nat} (hk : k < 2 ^ 23) (swap : Bool) : argOffset (offsetArg k swap) = k := by
  rw [argOffset, offsetArg, BitVec.extractLsb'_append_eq_right, BitVec.toNat_ofNat, Nat.mod_eq_of_lt hk]

theorem argSwap_offsetArg (k : Nat) (swap : Bool) : argSwap (offsetArg k swap) = swap := by
  rw [argSwap, offsetArg, BitVec.getLsbD_append, if_neg (by decide)]
  exact BitVec.getLsbD_ofBool swap 0

theorem argIndex_ofNat {idx : Nat} (h : idx < 2 ^ 8) : argIndex (BitVec.ofNat 24 (idx % 256)) = idx := by
  simp only [argIndex, BitVec.extractLsb'_toNat, BitVec.toNat_ofNat, Nat.shiftRight_zero]
  omega

theorem argTarget_argument (tgt : SwapTarget) : argTarget (argument (.swap64 tgt)) = tgt := by
  cases tgt <;> rfl

theorem ofBool_argSwap (arg : BitVec 24) : BitVec.ofBool (argSwap arg) = arg.extractLsb' 23 1 := by
  ext i hi
  obtain rfl : i = 0 := by omega
  simp [argSwap]

/-- SWAP and the offset together are the whole ARG (30_encoding.md R142). -/
theorem offsetArg_fields (arg : BitVec 24) : offsetArg (argOffset arg) (argSwap arg) = arg := by
  rw [offsetArg, argOffset, BitVec.ofNat_toNat, BitVec.setWidth_eq, ofBool_argSwap]
  exact (BitVec.extractLsb'_append_extractLsb'_eq_extractLsb' rfl).trans BitVec.extractLsb'_eq_self

/-- A mask of the low n bits of an ARG. -/
theorem and_lowBits (arg : BitVec 24) {mask : BitVec 24} {n : Nat} (h : mask.toNat = 2 ^ n - 1) :
    arg &&& mask = BitVec.ofNat 24 (arg.toNat % 2 ^ n) := by
  apply BitVec.eq_of_toNat_eq
  have hlt : arg.toNat % 2 ^ n < 2 ^ 24 := (Nat.mod_le _ _).trans_lt arg.isLt
  rw [BitVec.toNat_and, h, Nat.and_two_pow_sub_one_eq_mod, BitVec.toNat_ofNat, Nat.mod_eq_of_lt hlt]

theorem and_allBits (arg : BitVec 24) : arg &&& commandArg 0xFFFFFFFF = arg := by
  rw [and_lowBits arg (n := 24) (by decide), Nat.mod_eq_of_lt arg.isLt, BitVec.ofNat_toNat, BitVec.setWidth_eq]

theorem offsetArg_argOffset (arg : BitVec 24) :
    offsetArg (argOffset arg) false = arg &&& commandArg 0x7FFFFFFF := by
  rw [and_lowBits arg (n := 23) (by decide)]
  apply BitVec.eq_of_toNat_eq
  have hlt : arg.toNat % 8388608 < 16777216 := by omega
  exact (BitVec.toNat_append _ _).trans (by simp [argOffset, Nat.mod_eq_of_lt hlt])

theorem ofNat_argIndex (arg : BitVec 24) :
    BitVec.ofNat 24 (argIndex arg % 256) = arg &&& commandArg 0x0000FFFF := by
  rw [and_lowBits arg (n := 8) (by decide)]
  simp [argIndex]

theorem argument_argTarget (arg : BitVec 24) :
    argument (.swap64 (argTarget arg)) = arg &&& commandArg 0x000001FF := by
  rw [and_lowBits arg (n := 1) (by decide), argTarget, BitVec.getLsbD, Nat.testBit_zero]
  rcases Nat.mod_two_eq_zero_or_one arg.toNat with h | h <;> simp [h, argument]

theorem and_noBits (arg : BitVec 24) : arg &&& commandArg 0x000000FF = 0#24 := by
  rw [and_lowBits arg (n := 0) (by decide), Nat.pow_zero, Nat.mod_one]

/-! ## The command of an OP, with the operands of an ARG -/

/-- The command with the OP of `i` whose operands are the fields of `arg` (30_encoding.md R142). -/
def Instr.withArg (arg : BitVec 24) : Instr → Instr
  | .curByte _ => .curByte (argOffset arg)
  | .curU16 _ _ => .curU16 (argOffset arg) (argSwap arg)
  | .curU32 _ _ => .curU32 (argOffset arg) (argSwap arg)
  | .curAdv _ => .curAdv arg.toNat
  | .decChan _ => .decChan (argIndex arg)
  | .decSamples _ => .decSamples (argIndex arg)
  | .swap64 _ => .swap64 (argTarget arg)
  | i => i

/-- The OP of a word selects the command, its ARG the operands (30_encoding.md R141, R142). -/
theorem decode_commandWord_opcode (i : Instr) (arg : BitVec 24) :
    decode (commandWord (opcode i) arg) = .ok (i.withArg arg) := by
  rw [decode, commandOp_commandWord, commandArg_commandWord]
  cases i <;> rfl

theorem opcode_of_decode {w : Word} {i : Instr} (h : decode w = .ok i) : opcode i = commandOp w := by
  unfold decode at h
  split at h <;> cases h <;> exact BitVec.eq_of_toNat_eq (Eq.symm ‹_›)

/-- A command that a word decodes to has that word's fields for its operands. -/
theorem withArg_of_decode {w : Word} {i : Instr} (h : decode w = .ok i) : i.withArg (commandArg w) = i := by
  have hw := decode_commandWord_opcode i (commandArg w)
  rw [opcode_of_decode h, commandWord_fields, h] at hw
  exact (Except.ok.inj hw).symm

theorem wellFormed_withArg (arg : BitVec 24) (i : Instr) : (i.withArg arg).wellFormed = true := by
  cases i <;> simp only [Instr.withArg, Instr.wellFormed, decide_eq_true_eq]
  case curByte | curU16 | curU32 => exact argOffset_lt arg
  case curAdv => exact arg.isLt
  case decChan | decSamples => exact argIndex_lt arg

/-- The fields of the ARG that an operand gives are that operand, when it fits (30_encoding.md R142, R201). -/
theorem withArg_argument {i : Instr} (h : i.wellFormed = true) : i.withArg (argument i) = i := by
  cases i <;> simp only [Instr.wellFormed, decide_eq_true_eq] at h <;> simp only [Instr.withArg]
  case curByte => rw [argument, argOffset_offsetArg h]
  case curU16 | curU32 => rw [argument, argOffset_offsetArg h, argSwap_offsetArg]
  case curAdv => rw [argument, BitVec.toNat_ofNat, Nat.mod_eq_of_lt h]
  case decChan | decSamples => rw [argument, argIndex_ofNat h]
  case swap64 => rw [argTarget_argument]

/-- The ARG of the operands read from an ARG is that one with the unused bits cleared (30_encoding.md R144). -/
theorem argument_withArg (arg : BitVec 24) (i : Instr) :
    argument (i.withArg arg) = arg &&& commandArg (Spec.usedBits i) := by
  cases i
  case curByte => exact offsetArg_argOffset arg
  case curU16 | curU32 => exact (offsetArg_fields arg).trans (and_allBits arg).symm
  case curAdv => exact (BitVec.ofNat_toNat 24 arg).trans (and_allBits arg).symm
  case decChan | decSamples => exact ofNat_argIndex arg
  case swap64 => exact argument_argTarget arg
  all_goals exact (and_noBits arg).symm

theorem commandOp_usedBits (i : Instr) : commandOp (Spec.usedBits i) = BitVec.allOnes 8 := by
  cases i <;> simp only [Spec.usedBits] <;> decide

/-- Encoding what a word decodes to clears its unused ARG bits (30_encoding.md R144). -/
theorem encode_of_decode {w : Word} {i : Instr} (h : decode w = .ok i) : encode i = w &&& Spec.usedBits i := by
  have harg := argument_withArg (commandArg w) i
  rw [withArg_of_decode h] at harg
  rw [encode, opcode_of_decode h, harg, ← commandWord_and_fields, commandOp_usedBits, BitVec.and_allOnes]

/-- Settles O1: the OP selects the command, and the fields of the encoded ARG are its operands. -/
theorem decodeOfEncodeIsTheCommand : Obligations.DecodeOfEncodeIsTheCommand := fun i hi => by
  rw [encode, decode_commandWord_opcode, withArg_argument hi]

/-- Settles O2: a decoded command's operands are fields of the word, so they fit and its word has only their bits; that this word
decodes to the same command is O1. -/
theorem unusedArgumentBitsAreIgnored : Obligations.UnusedArgumentBitsAreIgnored := by
  intro w i h
  have hwf : i.wellFormed = true := by
    rw [← withArg_of_decode h]
    exact wellFormed_withArg _ i
  have henc := encode_of_decode h
  exact ⟨hwf, henc, henc ▸ decodeOfEncodeIsTheCommand i hwf⟩

/-- Settles O3: the OP of each word selects its command, and its ARG gives the operands. -/
theorem writtenOutWordsDecode : Obligations.WrittenOutWordsDecode := by
  unfold Obligations.WrittenOutWordsDecode
  decide

/-! ## Reserved OPs -/

/-- A word that decodes to no command has a reserved OP (30_encoding.md R141, R143). -/
theorem reservedOp_of_decode_error {w : Word} {e : DecodeError} (h : decode w = .error e) :
    Spec.reservedOp (commandOp w).toNat := by
  have hlt := (commandOp w).isLt
  unfold decode at h
  split at h
  case h_19 =>
    simp only [imp_false] at *
    unfold Spec.reservedOp
    omega
  all_goals cases h

/-- A word decodes to no command exactly when its OP is reserved (30_encoding.md R143). -/
theorem decode_ne_ok_iff (w : Word) : (∀ i, decode w ≠ .ok i) ↔ Spec.reservedOp (commandOp w).toNat := by
  refine ⟨fun h => ?_, fun hr i hi => opcode_not_reserved i (opcode_of_decode hi ▸ hr)⟩
  obtain ⟨i, hi⟩ | ⟨op, hop⟩ := decode_cases w
  · exact absurd hi (h i)
  · exact reservedOp_of_decode_error hop

end Sys2Proof

namespace Sys2Proof.Machine

theorem engineStep_of_reservedOp {s : State} {p : Pending} (hp : s.pend = some p) (hr : Spec.reservedOp p.op.toNat) :
    engineStep s = .next (Spec.failure s 0x30 0 0xFF 0 p.op.toNat) := by
  rw [engineStep_of_reserved hp (decode_of_reservedOp p.arg hr), illegalOpcode_eq_failure]

/-- Settles O5: the words without a command are those of a reserved OP, and both turns of the engine are one `engineStep`. -/
theorem reservedOpRaisesIllegalOpcode : Obligations.ReservedOpRaisesIllegalOpcode := by
  refine ⟨fun w => toNat_commandOp w ▸ decode_ne_ok_iff w, fun s p hp hr => ⟨fun hin => ?_, fun rest hin => ?_⟩⟩
  · rw [step_of_nil hin, engineStep_of_reservedOp hp hr]
  · rw [step_of_idle hin, engineStep_of_reservedOp (s := { s with inbox := rest }) hp hr]

end Sys2Proof.Machine
end

section
/-! The value coding: the bits of a byte and of a packed list, what each width stores and reads, and the round trip of a strip value
(30_encoding.md R149, R182, R183). -/

namespace Sys2Proof.Machine

/-! ## Bit lists, most significant bit first -/

/-- The model's fold over bits is the library's big-endian reading of a list of bits. -/
theorem foldl_bits (bits : List Bool) (x : Nat) :
    bits.foldl (fun x b => 2 * x + b.toNat) x = 2 ^ bits.length * x + (BitVec.ofBoolListBE bits).toNat := by
  induction bits generalizing x with
  | nil => simp [BitVec.ofBoolListBE]
  | cons b bits ih =>
    rw [List.foldl_cons, ih, BitVec.ofBoolListBE, BitVec.toNat_cons', Nat.shiftLeft_eq, List.length_cons]
    ring

theorem getLsbD_ofBoolListBE_sub {bits : List Bool} {n j : Nat} (hn : bits.length = n + 1) (hj : j ≤ n) :
    (BitVec.ofBoolListBE bits).getLsbD (n - j) = bits.getD j false := by
  rw [BitVec.getLsbD_ofBoolListBE, decide_eq_true (by omega), Bool.true_and, hn, Nat.add_sub_cancel,
    Nat.sub_sub_self hj]

theorem byteOfBits_eq (bits : List Bool) : byteOfBits bits = (BitVec.ofBoolListBE bits).setWidth 8 := by
  rw [byteOfBits, foldl_bits, Nat.mul_zero, Nat.zero_add, BitVec.ofNat_toNat]

theorem getLsbD_byteOfBits {bits : List Bool} (h : bits.length = 8) {j : Nat} (hj : j < 8) :
    (byteOfBits bits).getLsbD (7 - j) = bits.getD j false := by
  rw [byteOfBits_eq, BitVec.getLsbD_setWidth, decide_eq_true (by omega), Bool.true_and,
    getLsbD_ofBoolListBE_sub h (by omega)]

theorem length_valueBits (v : Nat) : (valueBits v).length = 10 := by simp [valueBits]

theorem getD_valueBits (v : Nat) {j : Nat} (hj : j < 10) : (valueBits v).getD j false = v.testBit (9 - j) := by
  simp [valueBits, List.getD_eq_getElem?_getD, hj]

/-- The first eight bits are the first byte, filled with 0 bits at the end of the stream (30_encoding.md R183). -/
theorem packBits_of_ne_nil {bits : List Bool} (h : bits ≠ []) :
    packBits bits =
      byteOfBits (bits.take 8 ++ List.replicate (8 - bits.length) false) :: packBits (bits.drop 8) := by
  have hlen := length_packBits bits
  fun_cases packBits bits with
  | case1 => simp
  | case2 => exact absurd rfl h
  | case3 _ hcons hnil =>
    rw [packBits.eq_3 bits hcons hnil, List.length_singleton] at hlen
    rw [List.take_of_length_le (by omega), List.drop_of_length_le (by omega), packBits]

/-- Filling up with 0 bits changes no bit that is read with the default 0. -/
theorem getD_take_fill (bits : List Bool) {n k : Nat} (hk : k < n) :
    (bits.take n ++ List.replicate (n - bits.length) false).getD k false = bits.getD k false := by
  by_cases hlen : k < bits.length
  · rw [List.getD_append _ _ _ _ (by rw [List.length_take]; omega)]
    simp [List.getD_eq_getElem?_getD, hk]
  · rw [List.take_of_length_le (by omega), List.getD_append_right _ _ _ _ (by omega), List.getD_replicate _ (by omega),
      List.getD_eq_default _ _ (by omega)]

/-- Stream bit k is bit 7 - k % 8 of byte k / 8; the bits past the end of the stream are 0 (30_encoding.md R183). -/
theorem getLsbD_packBits (bits : List Bool) (k : Nat) :
    ((packBits bits).getD (k / 8) 0).getLsbD (7 - k % 8) = bits.getD k false := by
  induction k using Nat.strong_induction_on generalizing bits with
  | _ k ih =>
    by_cases hnil : bits = []
    · subst hnil
      simp [packBits]
    rw [packBits_of_ne_nil hnil]
    by_cases hk : k < 8
    · rw [Nat.div_eq_of_lt hk, Nat.mod_eq_of_lt hk, List.getD_cons_zero, getLsbD_byteOfBits (by simp; omega) hk]
      exact getD_take_fill bits hk
    · obtain ⟨j, rfl⟩ : ∃ j, k = j + 8 := ⟨k - 8, by omega⟩
      rw [Nat.add_div_right j (by decide), Nat.add_mod_right, List.getD_cons_succ, ih j (by omega)]
      simp [List.getD_eq_getElem?_getD, Nat.add_comm]

/-- Pieces of one length n lie at the multiples of n. -/
theorem getD_flatMap_const {α β : Type} {f : α → List β} {n : Nat} (hf : ∀ x, (f x).length = n) (xs : List α) {i j : Nat}
    (hi : i < xs.length) (hj : j < n) (d : β) : (xs.flatMap f).getD (n * i + j) d = (f xs[i]).getD j d := by
  induction xs generalizing i with
  | nil => simp at hi
  | cons x xs ih =>
    rw [List.flatMap_cons]
    cases i with
    | zero => rw [Nat.mul_zero, Nat.zero_add, List.getD_append _ _ _ _ (by rw [hf]; exact hj), List.getElem_cons_zero]
    | succ i =>
      rw [Nat.mul_succ, Nat.add_right_comm, List.getD_append_right _ _ _ _ (by rw [hf]; omega), hf, Nat.add_sub_cancel,
        List.getElem_cons_succ, ih]

/-! ## Packed values -/

theorem clampStrip_lt (v : Nat) : clampStrip v < 1024 := by
  unfold clampStrip
  omega

/-- Bit j, from the top, of the value i of a packed list (30_encoding.md R183). -/
theorem getD_packedBits (vs : List Half) {i j : Nat} (hi : i < vs.length) (hj : j < 10) :
    (vs.flatMap fun v => valueBits (clampStrip v.toNat)).getD (10 * i + j) false =
      (clampStrip vs[i].toNat).testBit (9 - j) := by
  rw [getD_flatMap_const (fun _ => length_valueBits _) vs hi hj, getD_valueBits _ hj]

/-- Settles O17: the size of the packing, its bits in the stream and past its end, and the example. -/
theorem tenBitPacking : Obligations.TenBitPacking := by
  refine ⟨fun mode vs => ⟨length_codeValues mode .w10 vs, fun k _ => ?_⟩, by decide⟩
  have hlen : (vs.flatMap fun v => valueBits (clampStrip v.toNat)).length = 10 * vs.length :=
    length_flatMap_const fun _ _ => length_valueBits _
  refine (getLsbD_packBits _ k).trans ?_
  by_cases hk : k < 10 * vs.length
  · have hi : k / 10 < vs.length := by omega
    have hbit := getD_packedBits vs hi (Nat.mod_lt k (by decide))
    rw [Nat.div_add_mod] at hbit
    rw [hbit, decide_eq_true hk, Bool.true_and, List.getD_eq_getElem _ _ hi]
    rfl
  · rw [List.getD_eq_default _ _ (by omega), decide_eq_false hk, Bool.false_and]

/-- The model's reading of a packed value is the library's reading of its ten stream bits. -/
theorem unpack10_eq (m : Memory) (p i : Nat) :
    unpack10 m p i =
      (BitVec.ofBoolListBE ((List.range 10).map fun j => streamBit m p (10 * i + j))).setWidth 16 := by
  rw [← BitVec.ofNat_toNat, unpack10, ← List.foldl_map (f := fun j => streamBit m p (10 * i + j))
    (g := fun x b => 2 * x + b.toNat), foldl_bits, Nat.mul_zero, Nat.zero_add]

theorem unpack10_lt (m : Memory) (p i : Nat) : (unpack10 m p i).toNat < 1024 := by
  rw [unpack10_eq, BitVec.toNat_setWidth]
  exact (Nat.mod_le _ _).trans_lt ((BitVec.isLt _).trans_eq (by simp))

theorem getLsbD_unpack10 (m : Memory) (p i : Nat) {j : Nat} (hj : j < 10) :
    (unpack10 m p i).getLsbD (9 - j) = streamBit m p (10 * i + j) := by
  rw [unpack10_eq, BitVec.getLsbD_setWidth, decide_eq_true (by omega), Bool.true_and,
    getLsbD_ofBoolListBE_sub (n := 9) (by simp) (by omega)]
  simp [List.getD_eq_getElem?_getD, hj]

/-- A packed value reads back when the stream holds its ten bits (30_encoding.md R182, R183). -/
theorem unpack10_of_bits {m : Memory} {p i v : Nat} (hv : v < 1024)
    (h : ∀ j < 10, streamBit m p (10 * i + j) = v.testBit (9 - j)) : unpack10 m p i = BitVec.ofNat 16 v := by
  apply BitVec.eq_of_getLsbD_eq
  intro k hk
  rw [BitVec.getLsbD_ofNat, decide_eq_true hk, Bool.true_and]
  by_cases hk10 : k < 10
  · have hbit := getLsbD_unpack10 m p i (j := 9 - k) (by omega)
    rwa [h _ (by omega), Nat.sub_sub_self (by omega)] at hbit
  · have hpow : 1024 ≤ 2 ^ k := Nat.pow_le_pow_right (n := 2) (by decide) (not_lt.1 hk10)
    rw [Nat.testBit_lt_two_pow (hv.trans_le hpow)]
    exact Nat.testBit_lt_two_pow ((unpack10_lt m p i).trans_le hpow)

/-! ## What the coding stores -/

/-- The raw modes are those that are not zero-suppressed (30_encoding.md R181). -/
theorem isRawMode_iff_not_zeroSuppressed {mode : DaqMode} :
    isRawMode mode = true ↔ ¬ (mode = .zeroSuppressed ∨ mode = .zeroSuppressedLite) := by
  simpa using isRawMode_iff mode

theorem codeValues_std_of_raw {mode : DaqMode} (h : ¬ (mode = .zeroSuppressed ∨ mode = .zeroSuppressedLite)) (vs : List Half) :
    codeValues mode .std vs = vs.flatMap fun v => Spec.littleEndian (clampStrip v.toNat) := by
  rw [codeValues, if_pos (isRawMode_iff_not_zeroSuppressed.2 h)]
  exact congrArg (List.flatMap · vs) (funext fun v => le16_eq_littleEndian _)

theorem codeValues_std_of_zeroSuppressed {mode : DaqMode} (h : mode = .zeroSuppressed ∨ mode = .zeroSuppressedLite)
    (vs : List Half) :
    codeValues mode .std vs = vs.map fun v => BitVec.ofNat 8 (min (clampStrip v.toNat) 255) := by
  rw [codeValues, if_neg fun hraw => isRawMode_iff_not_zeroSuppressed.1 hraw h]

theorem codeValues_botbot (mode : DaqMode) (vs : List Half) :
    codeValues mode .botbot vs = vs.map fun v => BitVec.ofNat 8 (clampStrip v.toNat / 4) := by
  simp only [codeValues, Nat.shiftRight_eq_div_pow, Nat.reducePow]

theorem codeValues_topbot (mode : DaqMode) (vs : List Half) :
    codeValues mode .topbot vs = vs.map fun v => BitVec.ofNat 8 (min (clampStrip v.toNat) 511 / 2) := by
  simp only [codeValues, Nat.shiftRight_eq_div_pow, Nat.reducePow]

/-! ## What the decoder reads -/

theorem toNat_decodedValue_std_of_raw {mode : DaqMode} (h : ¬ (mode = .zeroSuppressed ∨ mode = .zeroSuppressedLite))
    (m : Memory) (p i : Nat) :
    (decodedValue m mode p i .std).toNat =
      (logicalByte m (p + 2 * i)).toNat + 256 * (logicalByte m (p + 2 * i + 1)).toNat := by
  rw [decodedValue, if_pos (isRawMode_iff_not_zeroSuppressed.2 h), toNat_u16le, Spec.channelLength]

theorem toNat_decodedValue_std_of_zeroSuppressed {mode : DaqMode}
    (h : mode = .zeroSuppressed ∨ mode = .zeroSuppressedLite) (m : Memory) (p i : Nat) :
    (decodedValue m mode p i .std).toNat = (logicalByte m (p + i)).toNat := by
  rw [decodedValue, if_neg fun hraw => isRawMode_iff_not_zeroSuppressed.1 hraw h, BitVec.toNat_setWidth_of_le (by decide)]

/-- A byte moved up inside 16 bits loses nothing. -/
theorem toNat_zeroExtend_shiftLeft (b : Byte) {k : Nat} (hk : k ≤ 8) :
    (b.zeroExtend 16 <<< k).toNat = 2 ^ k * b.toNat := by
  have hb : b.toNat < 2 ^ 8 := b.isLt
  have hpow : 2 ^ k ≤ 2 ^ 8 := Nat.pow_le_pow_right (by decide) hk
  have hlt : b.toNat * 2 ^ k < 2 ^ 16 :=
    Nat.mul_lt_mul_of_lt_of_le (c := 2 ^ 8) (d := 2 ^ 8) hb hpow (by decide)
  rw [BitVec.toNat_shiftLeft, BitVec.toNat_setWidth_of_le (by decide), Nat.shiftLeft_eq, Nat.mod_eq_of_lt hlt, Nat.mul_comm]

theorem toNat_decodedValue_botbot (m : Memory) (mode : DaqMode) (p i : Nat) :
    (decodedValue m mode p i .botbot).toNat = 4 * (logicalByte m (p + i)).toNat :=
  toNat_zeroExtend_shiftLeft _ (k := 2) (by decide)

theorem toNat_decodedValue_topbot (m : Memory) (mode : DaqMode) (p i : Nat) :
    (decodedValue m mode p i .topbot).toNat = 2 * (logicalByte m (p + i)).toNat :=
  toNat_zeroExtend_shiftLeft _ (k := 1) (by decide)

/-! ## The round trip -/

section
variable {m : Memory} {p i : Nat} {vs : List Half}

/-- What a list of one byte a value leaves at byte i. -/
theorem logicalByte_of_map {f : Half → Byte} (h : ∀ j < (vs.map f).length, logicalByte m (p + j) = (vs.map f).getD j 0)
    (hi : i < vs.length) : logicalByte m (p + i) = f vs[i] := by
  have hi' : i < (vs.map f).length := by rwa [List.length_map]
  rw [h i hi', List.getD_eq_getElem _ _ hi', List.getElem_map]

/-- What a list of two bytes a value leaves at bytes 2 i and 2 i + 1. -/
theorem logicalByte_of_littleEndian {f : Half → Nat}
    (h : ∀ j < (vs.flatMap fun v => Spec.littleEndian (f v)).length,
      logicalByte m (p + j) = (vs.flatMap fun v => Spec.littleEndian (f v)).getD j 0) (hi : i < vs.length) :
    logicalByte m (p + 2 * i) = BitVec.ofNat 8 (f vs[i]) ∧
      logicalByte m (p + 2 * i + 1) = BitVec.ofNat 8 (f vs[i] / 256) := by
  have hlen : (vs.flatMap fun v => Spec.littleEndian (f v)).length = 2 * vs.length := length_flatMap_const fun _ _ => rfl
  have hbyte {j : Nat} (hj : j < 2) : logicalByte m (p + (2 * i + j)) = (Spec.littleEndian (f vs[i])).getD j 0 := by
    rw [h _ (by omega), getD_flatMap_const (n := 2) (fun _ => rfl) vs hi hj]
  exact ⟨hbyte (j := 0) (by decide), hbyte (j := 1) (by decide)⟩

/-- What a packed list leaves in the stream (30_encoding.md R183). -/
theorem streamBit_of_packed {mode : DaqMode}
    (h : ∀ j < (codeValues mode .w10 vs).length, logicalByte m (p + j) = (codeValues mode .w10 vs).getD j 0)
    (hi : i < vs.length) {j : Nat} (hj : j < 10) :
    streamBit m p (10 * i + j) = (clampStrip vs[i].toNat).testBit (9 - j) := by
  have hlen : (codeValues mode .w10 vs).length = (10 * vs.length + 7) / 8 := length_codeValues mode .w10 vs
  rw [streamBit, h _ (by omega)]
  exact (getLsbD_packBits _ _).trans (getD_packedBits vs hi hj)

/-- A coded value reads back as the coding leaves it (30_encoding.md R182). -/
theorem decodedValue_of_coded {mode : DaqMode} {w : Width}
    (h : ∀ j < (codeValues mode w vs).length, logicalByte m (p + j) = (codeValues mode w vs).getD j 0)
    (hi : i < vs.length) :
    decodedValue m mode p i w = BitVec.ofNat 16 (Spec.roundTripValue mode w vs[i].toNat) := by
  cases w with
  | std =>
    apply BitVec.eq_of_toNat_eq
    by_cases hzs : mode = .zeroSuppressed ∨ mode = .zeroSuppressedLite
    · rw [codeValues_std_of_zeroSuppressed hzs] at h
      rw [toNat_decodedValue_std_of_zeroSuppressed hzs, logicalByte_of_map h hi, Spec.roundTripValue, if_pos hzs]
      simp only [BitVec.toNat_ofNat, clampStrip]
      omega
    · rw [codeValues_std_of_raw hzs] at h
      obtain ⟨hlow, hhigh⟩ := logicalByte_of_littleEndian h hi
      rw [toNat_decodedValue_std_of_raw hzs, hlow, hhigh, Spec.roundTripValue, if_neg hzs]
      simp only [BitVec.toNat_ofNat, clampStrip]
      omega
  | w10 => exact unpack10_of_bits (clampStrip_lt _) fun j hj => streamBit_of_packed h hi hj
  | botbot =>
    rw [codeValues_botbot] at h
    apply BitVec.eq_of_toNat_eq
    rw [toNat_decodedValue_botbot, logicalByte_of_map h hi, Spec.roundTripValue]
    simp only [BitVec.toNat_ofNat, clampStrip]
    omega
  | topbot =>
    rw [codeValues_topbot] at h
    apply BitVec.eq_of_toNat_eq
    rw [toNat_decodedValue_topbot, logicalByte_of_map h hi, Spec.roundTripValue]
    simp only [BitVec.toNat_ofNat, clampStrip]
    omega

end

/-- Settles O18: what each width stores, what it reads, and value by value the round trip. -/
theorem decodeOfCodedValues : Obligations.DecodeOfCodedValues := by
  refine ⟨fun mode vs => ?stored, fun m mode p i => ?read, fun m mode w vs p h => ?roundTrip⟩
  case stored =>
    refine ⟨fun hraw => ?_, fun hzs => codeValues_std_of_zeroSuppressed hzs vs, codeValues_botbot mode vs,
      codeValues_topbot mode vs⟩
    have hlow (n : Nat) : BitVec.ofNat 8 (n % 256) = BitVec.ofNat 8 n := BitVec.eq_of_toNat_eq (by simp)
    simp only [hlow]
    exact codeValues_std_of_raw hraw vs
  case read =>
    exact ⟨fun hraw => toNat_decodedValue_std_of_raw hraw m p i,
      fun hzs => toNat_decodedValue_std_of_zeroSuppressed hzs m p i,
      toNat_decodedValue_botbot m mode p i, toNat_decodedValue_topbot m mode p i, unpack10_lt m p i,
      fun j hj => getLsbD_unpack10 m p i hj⟩
  case roundTrip =>
    refine List.ext_getElem (by simp [decodedValues]) fun i hi hi' => ?_
    rw [List.length_map] at hi'
    simp only [decodedValues, List.getElem_map, List.getElem_range]
    exact decodedValue_of_coded h hi'

end Sys2Proof.Machine
end

section
/-! The cursor commands (40_cursor.md). The outcomes of the bounds check are said once, at the cursor position of the statements
(R220, R221); a read inside both bounds then commits its row of `Commits`, and one past a bound raises what the check answers. -/

namespace Sys2Proof.Machine

/-- The model's 32-bit sum of CUR_BASE and CUR_OFF is the position of R220. -/
theorem cursorPos_eq_cursor (s : State) : cursorPos s.cur = Spec.cursor s := BitVec.toNat_add _ _

theorem cursor_lt (s : State) : Spec.cursor s < 2 ^ 32 := Nat.mod_lt _ (by decide)

/-- A command that commits succeeds, as the statements write it (60_exceptions.md R403). -/
theorem exec_eq_success {i : Instr} {s u : State} (h : Commits s i u) : exec i s = .next (Spec.success u) :=
  exec_of_commits h

/-! ## The bounds check -/

/-- OUT_OF_RANGE of a cursor command: no channel is concerned (40_cursor.md R221, R225). -/
def cursorError (offset expected actual : Nat) : CommandError :=
  { name := .outOfRange, offset := offset, channel := noChannel, expected := expected, actual := actual }

/-- The failure as the statements write it (60_exceptions.md R403, R404). -/
theorem finish_cursorError (offset expected actual : Nat) (s : State) :
    finish s id (.error (cursorError offset expected actual)) =
      .next (Spec.failure s 0x02 offset 0xFF expected actual) := rfl

section
variable {s : State} {k n : Nat}

theorem cursorNeed_inside (hrem : k + n ≤ s.cur.rem.toNat) (hbuf : Spec.cursor s + k + n ≤ 4 * 16384) :
    cursorNeed s.cur k n = .ok (Spec.cursor s + k) := by
  rw [cursorNeed, cursorPos_eq_cursor, if_neg (Nat.not_lt.2 hrem)]
  exact if_neg (Nat.not_lt.2 hbuf)

theorem cursorNeed_past_rem (hrem : s.cur.rem.toNat < k + n) :
    cursorNeed s.cur k n = .error (cursorError (Spec.cursor s + k) s.cur.rem.toNat (k + n)) := by
  rw [cursorNeed, cursorPos_eq_cursor, if_pos hrem]
  rfl

theorem cursorNeed_past_ibuf (hrem : k + n ≤ s.cur.rem.toNat) (hbuf : 4 * 16384 < Spec.cursor s + k + n) :
    cursorNeed s.cur k n = .error (cursorError (Spec.cursor s + k) (4 * 16384) (Spec.cursor s + k + n)) := by
  rw [cursorNeed, cursorPos_eq_cursor, if_neg (Nat.not_lt.2 hrem)]
  exact if_pos hbuf

end

/-- The three reads are one operation: they differ in how many bytes they need and in the value they make of them
(40_cursor.md R222-R224). -/
theorem exec_eq_cursorRead {i : Instr} {k n : Nat} (s : State)
    (h : (i = .curByte k ∧ n = 1) ∨ (∃ swap, i = .curU16 k swap ∧ n = 2) ∨ (∃ swap, i = .curU32 k swap ∧ n = 4)) :
    ∃ value, exec i s = finish s id (cursorRead k n value s) := by
  rcases h with ⟨rfl, rfl⟩ | ⟨swap, rfl, rfl⟩ | ⟨swap, rfl, rfl⟩
  · exact ⟨_, rfl⟩
  · exact ⟨_, rfl⟩
  · exact ⟨_, rfl⟩

/-- A read whose check fails raises the error of the check and writes nothing else. -/
theorem finish_cursorRead_of_error {s : State} {k n offset expected actual : Nat}
    (h : cursorNeed s.cur k n = .error (cursorError offset expected actual)) (value : Nat → Word) :
    finish s id (cursorRead k n value s) = .next (Spec.failure s 0x02 offset 0xFF expected actual) := by
  rw [cursorRead, h]
  exact finish_cursorError offset expected actual s

/-! ## The four bytes of a 32-bit field, both orders (40_cursor.md R224) -/

theorem append_pairs (a b c d : Byte) : ((a ++ b) ++ (c ++ d) : Word) = a ++ b ++ c ++ d := BitVec.append_assoc.symm

theorem be32_eq (m : Memory) (q : Nat) :
    be32 m q = logicalByte m q ++ logicalByte m (q + 1) ++ logicalByte m (q + 2) ++ logicalByte m (q + 3) :=
  append_pairs _ _ _ _

theorem u32le_eq (m : Memory) (q : Nat) :
    u32le m q = logicalByte m (q + 3) ++ logicalByte m (q + 2) ++ logicalByte m (q + 1) ++ logicalByte m q :=
  append_pairs _ _ _ _

/-! ## The position in its two registers -/

/-- Clearing the two low bits rounds down to a multiple of 4 (40_cursor.md R226). -/
theorem and_alignMask (w : Word) : w &&& 0xFFFFFFFC = BitVec.ofNat 32 (w.toNat / 4 * 4) := by
  have hshift : w >>> 2 <<< 2 = w &&& 0xFFFFFFFC := BitVec.shiftLeft_ushiftRight
  rw [← hshift]
  apply BitVec.eq_of_toNat_eq
  simp only [BitVec.toNat_shiftLeft, BitVec.toNat_ushiftRight, BitVec.toNat_ofNat, Nat.shiftRight_eq_div_pow,
    Nat.shiftLeft_eq, Nat.reducePow]

theorem and_three (w : Word) : w &&& 3 = BitVec.ofNat 32 (w.toNat % 4) := by
  apply BitVec.eq_of_toNat_eq
  have hlow : (w &&& 3).toNat = w.toNat % 4 := Nat.and_two_pow_sub_one_eq_mod w.toNat 2
  rw [hlow, BitVec.toNat_ofNat]
  omega

/-- The state with the cursor rebased to the multiple of 4 before its position (40_cursor.md R226). -/
def normalized (s : State) : State :=
  { s with
    cur := { s.cur with
      base := BitVec.ofNat 32 (Spec.cursor s / 4 * 4)
      off := BitVec.ofNat 32 (Spec.cursor s % 4) } }

theorem cursor_normalized (s : State) : Spec.cursor (normalized s) = Spec.cursor s := by
  have hlt := cursor_lt s
  show (Spec.cursor s / 4 * 4 % 2 ^ 32 + Spec.cursor s % 4 % 2 ^ 32) % 2 ^ 32 = Spec.cursor s
  omega

/-- Completion keeps the cursor registers, and what is rebased is a function of the position. -/
theorem success_normalized_twice (s : State) :
    Spec.success (normalized (Spec.success (normalized s))) = Spec.success (normalized s) := by
  have hpos : Spec.cursor (Spec.success (normalized s)) = Spec.cursor s := cursor_normalized s
  rw [normalized, hpos]
  rfl

/-- The masks of CUR_NORMALIZE split the position into the preceding multiple of 4 and the rest. -/
theorem commits_curNorm (s : State) : Commits s .curNorm (normalized s) := by
  have hpos : (BitVec.ofNat 32 (Spec.cursor s)).toNat = Spec.cursor s := by
    rw [BitVec.toNat_ofNat, Nat.mod_eq_of_lt (cursor_lt s)]
  have h := Commits.curNorm (s := s)
  rwa [cursorPos_eq_cursor, and_alignMask, and_three, hpos] at h

theorem exec_curNorm (s : State) : exec .curNorm s = .next (Spec.success (normalized s)) :=
  exec_eq_success (commits_curNorm s)

/-! ## The statements -/

/-- Settles O15: the two registers still add up to the position, and rebasing depends on the position alone. -/
theorem curNormalizeKeepsThePosition : Obligations.CurNormalizeKeepsThePosition := fun s =>
  ⟨Spec.success (normalized s), exec_curNorm s, rfl, cursor_normalized s,
    (exec_curNorm _).trans (congrArg _ (success_normalized_twice s))⟩

/-- Settles O10: inside both bounds the check answers the position plus k, and CUR_BYTE commits the byte there. -/
theorem curByteReadsALogicalByte : Obligations.CurByteReadsALogicalByte := fun _ _ hrem hbuf =>
  exec_eq_success (.curByte (cursorNeed_inside hrem hbuf))

/-- Settles O11: as O10, for the two bytes from there on. -/
theorem curU16ReadsTwoLogicalBytes : Obligations.CurU16ReadsTwoLogicalBytes := fun _ _ _ hrem hbuf =>
  exec_eq_success (.curU16 (cursorNeed_inside hrem hbuf))

/-- Settles O12: as O10, for the four bytes from there on. -/
theorem curU32ReadsFourLogicalBytes : Obligations.CurU32ReadsFourLogicalBytes := by
  intro s k swap hrem hbuf
  have h := exec_eq_success (.curU32 (swap := swap) (cursorNeed_inside hrem hbuf))
  rwa [be32_eq, u32le_eq] at h

/-- Settles O13: every read is the same checked operation, and the check answers the bound that fails first. -/
theorem cursorReadOutOfRange : Obligations.CursorReadOutOfRange := by
  intro s k n i hi
  obtain ⟨value, hexec⟩ := exec_eq_cursorRead s hi
  rw [hexec]
  exact ⟨fun hrem => finish_cursorRead_of_error (cursorNeed_past_rem hrem) value,
    fun hrem hbuf => finish_cursorRead_of_error (cursorNeed_past_ibuf hrem hbuf) value⟩

/-- Settles O14: CUR_OFF wraps as the sum of naturals does, and CUR_REM does not wrap since n is within it. -/
theorem curAdvanceMovesTheCursor : Obligations.CurAdvanceMovesTheCursor := by
  intro s n
  refine ⟨fun hn => ?moved, fun hn => ?refused⟩
  case moved =>
    have hoff : s.cur.off + BitVec.ofNat 32 n = BitVec.ofNat 32 ((s.cur.off.toNat + n) % 2 ^ 32) := by
      apply BitVec.eq_of_toNat_eq
      simp
    have hrem : s.cur.rem - BitVec.ofNat 32 n = BitVec.ofNat 32 (s.cur.rem.toNat - n) := by
      have hlt : n < 2 ^ 32 := hn.trans_lt s.cur.rem.isLt
      have hsub := BitVec.ofNat_sub_ofNat_of_le s.cur.rem.toNat n hlt hn
      rwa [BitVec.ofNat_toNat, BitVec.setWidth_eq] at hsub
    rw [← hoff, ← hrem]
    exact exec_eq_success (.curAdv hn)
  case refused =>
    rw [exec, execCurAdv, if_pos hn, cursorPos_eq_cursor]
    exact finish_cursorError (Spec.cursor s) s.cur.rem.toNat n s

end Sys2Proof.Machine
end

section
/-! The CRC and its two commands (41_crc.md): the bit step is linear over exclusive or, which gives the table form; the commands
commit the loop of R240 over their bytes; and no command reads what they left in CRC_RESULT. -/

namespace Sys2Proof.Machine

/-! ## The loop on plain numbers -/

/-- Settles O19: each bit step of the model is the step on plain numbers, and the loops fold the same bytes. -/
theorem crcIsTheBitwiseLoop : Obligations.CrcIsTheBitwiseLoop := toNat_crc16

theorem crc16_eq_crcLoop (bytes : List Byte) : crc16 bytes = BitVec.ofNat 16 (Spec.crcLoop bytes) := by
  rw [← toNat_crc16, BitVec.ofNat_toNat, BitVec.setWidth_eq]

/-! ## The table form -/

/-- The polynomial where the bit shifted out is 1. -/
def crcFeedback (top : Bool) : Half := if top then Config.crcPoly else 0

theorem crcFeedback_xor (a b : Bool) : crcFeedback (a ^^ b) = crcFeedback a ^^^ crcFeedback b := by
  cases a <;> cases b <;> rfl

theorem crcBit_eq (c : Half) : crcBit c = (c <<< 1) ^^^ crcFeedback (c.getLsbD 15) := by
  unfold crcBit crcFeedback
  split
  · rfl
  · exact BitVec.xor_zero.symm

/-- The bit step is linear: the shift and the feedback both are. -/
theorem crcBit_xor (c d : Half) : crcBit (c ^^^ d) = crcBit c ^^^ crcBit d := by
  simp only [crcBit_eq, BitVec.shiftLeft_xor_distrib, BitVec.getLsbD_xor, crcFeedback_xor]
  ac_rfl

theorem crcEight_xor (c d : Half) : crcEight (c ^^^ d) = crcEight c ^^^ crcEight d := by
  simp only [crcEight, crcBit_xor]

theorem crcBit_of_top_clear {c : Half} (h : c.getLsbD 15 = false) : crcBit c = c <<< 1 := by
  rw [crcBit, h, if_neg Bool.false_ne_true]

/-- As long as only zeros are shifted out, bit steps are a shift. -/
theorem iterate_crcBit_of_top_clear {c : Half} {n : Nat} (h : ∀ k < n, c.getLsbD (15 - k) = false) :
    crcBit^[n] c = c <<< n := by
  induction n with
  | zero => exact (BitVec.shiftLeft_zero c).symm
  | succ n ih =>
    have htop : (c <<< n).getLsbD 15 = false := by
      rw [BitVec.getLsbD_shiftLeft, h n n.lt_succ_self, Bool.and_false]
    rw [Function.iterate_succ_apply', ih fun k hk => h k (hk.trans n.lt_succ_self), crcBit_of_top_clear htop,
      BitVec.shiftLeft_add]

/-- The low byte of c, as 16 bits. -/
def lowByte (c : Half) : Half := (c.setWidth 8).setWidth 16

theorem getLsbD_lowByte (c : Half) (i : Nat) : (lowByte c).getLsbD i = (decide (i < 8) && c.getLsbD i) := by
  simp only [lowByte, BitVec.getLsbD_setWidth]
  by_cases hi : i < 8
  · simp [hi, hi.trans (by decide : 8 < 16)]
  · simp [hi]

theorem crcEight_lowByte (c : Half) : crcEight (lowByte c) = c <<< 8 := by
  have hshift : crcEight (lowByte c) = lowByte c <<< 8 := iterate_crcBit_of_top_clear (n := 8) fun k hk => by
    rw [getLsbD_lowByte, decide_eq_false (by omega), Bool.false_and]
  rw [hshift]
  refine BitVec.eq_of_getLsbD_eq fun i hi => ?_
  rw [BitVec.getLsbD_shiftLeft, BitVec.getLsbD_shiftLeft, getLsbD_lowByte, decide_eq_true (by omega : i - 8 < 8),
    Bool.true_and]

theorem lowByte_xor_highByte (c : Half) : lowByte c ^^^ (c >>> 8 <<< 8) = c := by
  refine BitVec.eq_of_getLsbD_eq fun i hi => ?_
  rw [BitVec.getLsbD_xor, getLsbD_lowByte, BitVec.getLsbD_shiftLeft, BitVec.getLsbD_ushiftRight]
  by_cases hlow : i < 8
  · simp [hlow]
  · simp [hlow, hi, Nat.add_sub_cancel' (Nat.not_lt.1 hlow)]

/-- The index of the table step (41_crc.md R241): the high byte of c and the byte of the sequence; it has 8 bits. -/
theorem tableIndex_eq (c : Half) (b : Byte) :
    BitVec.ofNat 16 ((((c.toNat >>> 8) ^^^ b.toNat) &&& 0xFF) <<< 8) = (c >>> 8 ^^^ b.zeroExtend 16) <<< 8 := by
  have hc : c.toNat >>> 8 < 2 ^ 8 := by
    have := c.isLt
    rw [Nat.shiftRight_eq_div_pow]
    omega
  have hindex : (c >>> 8 ^^^ b.zeroExtend 16).toNat = (c.toNat >>> 8) ^^^ b.toNat := by
    rw [BitVec.toNat_xor, BitVec.toNat_ushiftRight, BitVec.toNat_setWidth_of_le (by decide)]
  have hmask : ((c.toNat >>> 8) ^^^ b.toNat) &&& 0xFF = (c.toNat >>> 8) ^^^ b.toNat :=
    Nat.and_two_pow_sub_one_of_lt_two_pow (n := 8) (Nat.xor_lt_two_pow hc b.isLt)
  rw [hmask, ← hindex]
  apply BitVec.eq_of_toNat_eq
  rw [BitVec.toNat_ofNat, BitVec.toNat_shiftLeft]

/-- Settles O20: the low byte of c only moves up, and the rest of the step is the eight bit steps on the table's index. -/
theorem crcTableForm : Obligations.CrcTableForm := by
  refine ⟨fun c b => ?_, by decide⟩
  have hsplit : c ^^^ (b.zeroExtend 16 <<< 8) = lowByte c ^^^ ((c >>> 8 ^^^ b.zeroExtend 16) <<< 8) := by
    rw [BitVec.shiftLeft_xor_distrib, ← BitVec.xor_assoc, lowByte_xor_highByte]
  rw [crcByte, hsplit, crcEight_xor, crcEight_lowByte, tableIndex_eq]

/-! ## The two commands -/

/-- Settles O21: a range inside IBUF commits the CRC of its logical bytes, one that ends past it raises. -/
theorem crcOfARange : Obligations.CrcOfARange := by
  intro s
  refine ⟨fun hin => ?_, fun hout => ?_⟩
  · rw [← crc16_eq_crcLoop]
    exact exec_eq_success (.crc hin)
  · have hpast : ibufBytes < s.crc.start.toNat + s.crc.len.toNat := hout
    rw [exec, execCrc, if_pos hpast]
    rfl

/-- The CRC field by the configured event format (30_encoding.md R176). -/
theorem crcFieldOffset_cfgEvfmt (t : Nat) (cfg : Word) :
    crcFieldOffset t (cfgEvfmt cfg) = t + if cfg.getLsbD 0 then 0 else 4 := by
  unfold cfgEvfmt
  split <;> rfl

/-- A buffer of n words holds an event whose trailer is its last 8 bytes. -/
theorem maskedEventBytes_of_buffer (m : Memory) (cfg : Word) {n : Nat} (hn : 2 ≤ n) :
    maskedEventBytes m (4 * n - 8) (cfgEvfmt cfg) =
      (List.range (4 * n)).map fun i =>
        if i = 4 * n - 8 + (if cfg.getLsbD 0 then 0 else 4) ∨ i = 4 * n - 8 + (if cfg.getLsbD 0 then 0 else 4) + 1 then 0
        else logicalByte m i := by
  rw [maskedEventBytes, crcFieldOffset_cfgEvfmt, Nat.sub_add_cancel (by omega)]

/-- Settles O22: a buffer of 2 to 16384 words commits the CRC of its masked bytes; the two checks raise in their order. -/
theorem bestEffortCrc : Obligations.BestEffortCrc := by
  intro s
  refine ⟨fun hmin hmax => ?_, fun hlong => ?_, fun hshort => ?_⟩
  · rw [← maskedEventBytes_of_buffer s.mem s.decCfg hmin, ← crc16_eq_crcLoop]
    exact exec_eq_success (.crcBe hmax (by omega))
  · have hpast : Config.ibufWords < s.decLen.toNat := hlong
    rw [exec, execCrcBe, if_pos hpast]
    rfl
  · have hfits : ¬ Config.ibufWords < s.decLen.toNat := by
      rw [Config.ibufWords]
      omega
    rw [exec, execCrcBe, if_neg hfits, if_pos (by omega)]
    rfl

/-! ## No command reads CRC_RESULT -/

/-- The state with another value in CRC_RESULT (41_crc.md R246). -/
def withCrcResult (x : Half) (s : State) : State := { s with crc := { s.crc with result := x } }

section
variable (x : Half) (s : State)

@[simp] theorem withCrcResult_mem : (withCrcResult x s).mem = s.mem := rfl
@[simp] theorem withCrcResult_decCfg : (withCrcResult x s).decCfg = s.decCfg := rfl
@[simp] theorem withCrcResult_decLen : (withCrcResult x s).decLen = s.decLen := rfl
@[simp] theorem withCrcResult_enc : (withCrcResult x s).enc = s.enc := rfl
@[simp] theorem withCrcResult_cur : (withCrcResult x s).cur = s.cur := rfl
@[simp] theorem withCrcResult_ev : (withCrcResult x s).ev = s.ev := rfl

end

/-- The second result is the first but for CRC_RESULT: the same error, or a state that its CRC_RESULT alone sets apart. -/
inductive SameButCrcResult : Except CommandError State → Except CommandError State → Prop
  | error (e : CommandError) : SameButCrcResult (.error e) (.error e)
  | ok {u u' : State} (h : withCrcResult u.crc.result u' = u) : SameButCrcResult (.ok u) (.ok u')

/-- The completion adds nothing that depends on CRC_RESULT (60_exceptions.md R403). -/
theorem finish_of_sameButCrcResult {s s' t : State} {f : State → State} {r r' : Except CommandError State}
    (ht : finish s f r = .next t) (hf : withCrcResult (f s).crc.result (f s') = f s) (hr : SameButCrcResult r r') :
    ∃ t', finish s' f r' = .next t' ∧ withCrcResult t.crc.result t' = t := by
  cases hr with
  | error e =>
    cases ht
    exact ⟨_, rfl, congrArg (raiseError e) hf⟩
  | ok h =>
    cases ht
    exact ⟨_, rfl, congrArg complete h⟩

/-- A check that does not depend on CRC_RESULT keeps the agreement of what follows it. -/
theorem SameButCrcResult.check {c : Prop} [Decidable c] {e : CommandError} {r r' : Except CommandError State}
    (h : SameButCrcResult r r') : SameButCrcResult (if c then .error e else r) (if c then .error e else r') := by
  split
  · exact .error e
  · exact h

theorem cursorRead_sameButCrcResult (k n : Nat) (value : Nat → Word) (x : Half) (s : State) :
    SameButCrcResult (cursorRead k n value s) (cursorRead k n value (withCrcResult x s)) := by
  unfold cursorRead
  rw [withCrcResult_cur]
  split
  · exact .ok rfl
  · exact .error _

/-- Command by command: no check and no committed value reads CRC_RESULT. -/
theorem exec_withCrcResult {i : Instr} {s t : State} (ht : exec i s = .next t) (x : Half) :
    ∃ t', exec i (withCrcResult x s) = .next t' ∧ withCrcResult t.crc.result t' = t := by
  cases i <;> simp only [exec] at ht ⊢ <;> refine finish_of_sameButCrcResult ht rfl ?_
  case nop | curNorm | reorder | disorder => exact .ok rfl
  case curByte | curU16 | curU32 => exact cursorRead_sameButCrcResult _ _ _ x s
  case curAdv | crc | copyO2i => exact .check (.ok rfl)
  case crcBe => exact .check (.check (.ok rfl))
  case swap64 tgt =>
    cases tgt with
    | ibuf => exact .check (.ok rfl)
    | obuf => exact .ok rfl
  case decParse | encBuild | decChan =>
    simp only [withCrcResult_mem, withCrcResult_decCfg, withCrcResult_decLen, withCrcResult_enc, withCrcResult_ev]
    split
    · exact .ok rfl
    · exact .error _
  case decStatus =>
    rw [withCrcResult_ev]
    split
    · exact .error _
    · exact .ok rfl
  case decCheck =>
    rw [withCrcResult_ev, withCrcResult_decCfg]
    split
    · exact .error _
    · split
      · exact .ok rfl
      · exact .ok rfl
  case decSamples =>
    rw [withCrcResult_ev, withCrcResult_mem]
    split
    · exact .error _
    · split
      · exact .error _
      · exact .ok rfl

/-- Settles O23: the two runs of a command find the same errors and commit the same values. -/
theorem crcResultHasNoAuthority : Obligations.CrcResultHasNoAuthority :=
  fun _ _ _ x ht => exec_withCrcResult ht x

end Sys2Proof.Machine
end

section
/-! The strip permutation and its two commands (42_reorder.md). P exchanges the outer digits of a position written with the digits
a < 8, b < 4, c < 4: it takes 16a + 4b + c to 32c + 8b + a (R260). Each command gathers: entry k of FOUT comes from one entry of FIN,
given by P or by its inverse. -/

namespace Sys2Proof.Machine

/-! ## The permutation on digits -/

/-- The digits of a MUX position (42_reorder.md R260). -/
theorem exists_muxDigits {i : Nat} (h : i < 128) : ∃ a b c, a < 8 ∧ b < 4 ∧ c < 4 ∧ i = 16 * a + 4 * b + c :=
  ⟨i / 16, i / 4 % 4, i % 4, by omega, by omega, by omega, by omega⟩

/-- The digits of a physical strip (42_reorder.md R260). -/
theorem exists_stripDigits {s : Nat} (h : s < 128) : ∃ a b c, a < 8 ∧ b < 4 ∧ c < 4 ∧ s = 32 * c + 8 * b + a :=
  ⟨s % 8, s / 8 % 4, s / 32, by omega, by omega, by omega, by omega⟩

theorem stripOfMux_digits {a b c : Nat} (hb : b < 4) (hc : c < 4) : stripOfMux (16 * a + 4 * b + c) = 32 * c + 8 * b + a := by
  unfold stripOfMux
  omega

theorem muxOfStrip_digits {a b c : Nat} (ha : a < 8) (hb : b < 4) : muxOfStrip (32 * c + 8 * b + a) = 16 * a + 4 * b + c := by
  unfold muxOfStrip
  omega

/-- P maps positions to strips, and the inverse takes them back (42_reorder.md R260). -/
theorem muxOfStrip_stripOfMux {i : Nat} (h : i < 128) : stripOfMux i < 128 ∧ muxOfStrip (stripOfMux i) = i := by
  obtain ⟨a, b, c, ha, hb, hc, rfl⟩ := exists_muxDigits h
  rw [stripOfMux_digits hb hc]
  exact ⟨by omega, muxOfStrip_digits ha hb⟩

/-- The inverse maps strips to positions, and P takes them back (42_reorder.md R260). -/
theorem stripOfMux_muxOfStrip {s : Nat} (h : s < 128) : muxOfStrip s < 128 ∧ stripOfMux (muxOfStrip s) = s := by
  obtain ⟨a, b, c, ha, hb, hc, rfl⟩ := exists_stripDigits h
  rw [muxOfStrip_digits ha hb]
  exact ⟨by omega, stripOfMux_digits hb hc⟩

/-- The next row of the table of P: one more in the first digit (42_reorder.md R261). -/
theorem stripOfMux_add_sixteen {i : Nat} (h : i < 112) : stripOfMux (i + 16) = stripOfMux i + 1 := by
  obtain ⟨a, b, c, -, hb, hc, rfl⟩ := exists_muxDigits (show i < 128 by omega)
  rw [show 16 * a + 4 * b + c + 16 = 16 * (a + 1) + 4 * b + c by omega, stripOfMux_digits hb hc, stripOfMux_digits hb hc]
  omega

/-- On digits a fixed point is a solution of 15a = 31c + 4b, and only (0, 0, 0) and (7, 3, 3) are (42_reorder.md R261). -/
theorem stripOfMux_eq_self_iff {i : Nat} (h : i < 128) : stripOfMux i = i ↔ i = 0 ∨ i = 127 := by
  obtain ⟨a, b, c, ha, hb, hc, rfl⟩ := exists_muxDigits h
  rw [stripOfMux_digits hb hc]
  omega

/-- Settles O24: the first rows are evaluated; the rest is read off the digits. -/
theorem stripPermutationTables : Obligations.StripPermutationTables :=
  ⟨⟨by decide, by decide⟩, fun _ => muxOfStrip_stripOfMux, fun _ => stripOfMux_add_sixteen, fun _ => stripOfMux_muxOfStrip,
    fun _ => stripOfMux_eq_self_iff, rfl, rfl⟩

/-! ## Where the entries of FOUT come from -/

/-- Entry k of FOUT after a permutation that takes its entry k from entry `source k` of FIN. -/
theorem ramHalf_permuteFrame {perm : List Half → List Half} {source : Nat → Nat}
    (hperm : ∀ xs, perm xs = (List.range 128).map fun k => xs.getD (source k) 0) (hsource : ∀ k < 128, source k < 128)
    (s : State) {k : Nat} (hk : k < 128) :
    ramHalf (permuteFrame perm s).mem .fout k = ramHalf s.mem .fin (source k) := by
  have hlen : k < (perm (Memory.halves s.mem (ramBase .fin) 128)).length := by simpa [hperm] using hk
  calc ramHalf (permuteFrame perm s).mem .fout k
      = (perm (Memory.halves s.mem (ramBase .fin) 128))[k] := Memory.half_storeHalves s.mem (ramBase .fout) _ hlen
    _ = (Memory.halves s.mem (ramBase .fin) 128).getD (source k) 0 := by simp only [hperm, List.getElem_map, List.getElem_range]
    _ = ramHalf s.mem .fin (source k) := by
      rw [List.getD_eq_getElem _ _ (by simpa using hsource k hk), Memory.getElem_halves]
      rfl

/-- A permutation of the frame leaves every byte outside FOUT as it was (42_reorder.md R265). -/
theorem read_permuteFrame_outside {perm : List Half → List Half} (hlen : ∀ xs, (perm xs).length = 128) (s : State) {a : Nat}
    (ha : ¬ inRam .fout a) : Memory.read (permuteFrame perm s).mem a = Memory.read s.mem a := by
  by_contra hne
  have hin := ge_ramBase_of_storeHalves_ne hne
  rw [hlen] at hin
  exact ha hin

/-- The command fills FOUT from FIN: entry k with entry `source k`. -/
def Gathers (i : Instr) (source : Nat → Nat) : Prop :=
  ∀ s t : State, exec i s = .next t → ∀ k < 128, ramHalf t.mem .fout k = ramHalf s.mem .fin (source k)

/-- A command that commits a permutation of the frame gathers from the permutation's sources. -/
theorem gathers_of_commits {i : Instr} {perm : List Half → List Half} {source : Nat → Nat}
    (hcommits : ∀ s, Commits s i (permuteFrame perm s))
    (hperm : ∀ xs, perm xs = (List.range 128).map fun k => xs.getD (source k) 0) (hsource : ∀ k < 128, source k < 128) :
    Gathers i source := by
  intro s t ht k hk
  obtain rfl : Spec.success (permuteFrame perm s) = t := Host.Outcome.next.inj ((exec_eq_success (hcommits s)).symm.trans ht)
  exact ramHalf_permuteFrame hperm hsource s hk

/-- FOUT[s] is FIN of the position of strip s (42_reorder.md R262). -/
theorem gathers_reorder : Gathers .reorder muxOfStrip :=
  gathers_of_commits (fun _ => .reorder) (fun _ => rfl) fun _ hk => (stripOfMux_muxOfStrip hk).1

/-- FOUT[i] is FIN of the strip of position i (42_reorder.md R263). -/
theorem gathers_disorder : Gathers .disorder stripOfMux :=
  gathers_of_commits (fun _ => .disorder) (fun _ => rfl) fun _ hk => (muxOfStrip_stripOfMux hk).1

/-- Two gathers in a row, the first one's FOUT copied into FIN between them, give the frame back when the second's sources undo
the first's (42_reorder.md R264). -/
theorem Gathers.cancel {i j : Instr} {f g : Nat → Nat} (hi : Gathers i f) (hj : Gathers j g)
    (hfg : ∀ k < 128, g k < 128 ∧ f (g k) = k) {s t u v : State} (ht : exec i s = .next t)
    (hcopy : ∀ k < 128, ramHalf u.mem .fin k = ramHalf t.mem .fout k) (hv : exec j u = .next v) {k : Nat} (hk : k < 128) :
    ramHalf v.mem .fout k = ramHalf s.mem .fin k := by
  obtain ⟨hlt, hback⟩ := hfg k hk
  calc ramHalf v.mem .fout k = ramHalf u.mem .fin (g k) := hj u v hv k hk
    _ = ramHalf t.mem .fout (g k) := hcopy _ hlt
    _ = ramHalf s.mem .fin (f (g k)) := hi s t ht _ hlt
    _ = ramHalf s.mem .fin k := by rw [hback]

/-! ## The two commands -/

/-- Settles O25: strip P(i) of FOUT comes from the position of strip P(i), which is i. -/
theorem reorderPermutesTheFrame : Obligations.ReorderPermutesTheFrame := by
  intro s
  have hexec := exec_eq_success (Commits.reorder (s := s))
  refine ⟨_, hexec, fun i hi => ?_, fun _ => read_permuteFrame_outside length_reorderFrame s, rfl⟩
  obtain ⟨hlt, hback⟩ := muxOfStrip_stripOfMux hi
  exact (gathers_reorder s _ hexec _ hlt).trans (by rw [hback])

/-- Settles O26: the sources of DISORDER are P itself. -/
theorem disorderPermutesTheFrame : Obligations.DisorderPermutesTheFrame := by
  intro s
  have hexec := exec_eq_success (Commits.disorder (s := s))
  exact ⟨_, hexec, gathers_disorder s _ hexec, fun _ => read_permuteFrame_outside length_disorderFrame s, rfl⟩

/-- Settles O27: the sources of the two commands are inverse to each other. -/
theorem reorderAndDisorderCancel : Obligations.ReorderAndDisorderCancel := by
  rintro i j (⟨rfl, rfl⟩ | ⟨rfl, rfl⟩) s t u v ht hcopy hv k hk
  · exact gathers_reorder.cancel gathers_disorder (fun _ => muxOfStrip_stripOfMux) ht hcopy hv hk
  · exact gathers_disorder.cancel gathers_reorder (fun _ => stripOfMux_muxOfStrip) ht hcopy hv hk

end Sys2Proof.Machine
end

section
/-! The held event stays a parse of IBUF (43_decoder.md R280; 10_state.md R46, R57): every update of a step either keeps IBUF, EV and
the header registers, or discards EV, or is the commit of a parse. -/

namespace Sys2Proof.Machine

/-- The promise of DEC_VALID speaks of IBUF, EV and the header registers only. -/
theorem EventIsCurrent.congr {s t : State} (h : EventIsCurrent s)
    (hibuf : ∀ a, inRam .ibuf a → Memory.read t.mem a = Memory.read s.mem a) (hev : t.ev = s.ev) (hhdr : t.hdr = s.hdr) :
    EventIsCurrent t := by
  intro ev he
  obtain ⟨cfg, decLen, hparse⟩ := h ev (hev ▸ he)
  exact ⟨cfg, decLen, by rw [parseEvent_congr (logicalByte_congr hibuf), hhdr, hparse]⟩

/-- An update that leaves all of memory alone. -/
theorem EventIsCurrent.of_mem_eq {s t : State} (h : EventIsCurrent s) (hmem : t.mem = s.mem) (hev : t.ev = s.ev)
    (hhdr : t.hdr = s.hdr) : EventIsCurrent t :=
  h.congr (fun _ _ => by rw [hmem]) hev hhdr

/-- Without an event nothing is promised. -/
theorem eventIsCurrent_of_none {s : State} (h : s.ev = none) : EventIsCurrent s :=
  fun _ he => absurd (h.symm.trans he) nofun

/-! ## Commands -/

/-- SWAP64 of IBUF and COPY_O2I are the only commands that write IBUF (10_state.md R34). -/
theorem Commits.read_ibuf {i : Instr} {s u : State} (hu : Commits s i u) (hswap : i ≠ .swap64 .ibuf) (hcopy : i ≠ .copyO2i)
    {a : Nat} (ha : inRam .ibuf a) : Memory.read u.mem a = Memory.read s.mem a := by
  by_contra hne
  rcases hu.ram_changed ha hne with ⟨-, h | h⟩ | ⟨h, -⟩ | ⟨h, -⟩ | ⟨h, -⟩
  · exact hswap h
  · exact hcopy h
  all_goals cases h

theorem Commits.eventIsCurrent {i : Instr} {s u : State} (hu : Commits s i u) (h : EventIsCurrent s) : EventIsCurrent u := by
  have hibuf := fun hswap hcopy a => hu.read_ibuf (a := a) hswap hcopy
  cases hu with
  | decParse hparse =>
    intro ev he
    obtain rfl := Option.some.inj he
    exact ⟨_, _, hparse⟩
  | swapIbuf | copyO2i => exact eventIsCurrent_of_none rfl
  | _ => exact h.congr (hibuf nofun nofun) rfl rfl

theorem EventIsCurrent.onFail {s : State} (h : EventIsCurrent s) (i : Instr) : EventIsCurrent (onFail i s) := by
  cases i with
  | decParse => exact eventIsCurrent_of_none rfl
  | _ => exact h.of_mem_eq rfl rfl rfl

theorem EventIsCurrent.exec {s t : State} (h : EventIsCurrent s) {i : Instr} (ht : exec i s = .next t) :
    EventIsCurrent t := by
  rcases exec_cases ht with ⟨u, hu, rfl⟩ | ⟨e, rfl⟩
  · exact (hu.eventIsCurrent h).of_mem_eq rfl rfl rfl
  · exact (h.onFail i).of_mem_eq rfl rfl rfl

theorem EventIsCurrent.engineStep {s t : State} (h : EventIsCurrent s) (ht : engineStep s = .next t) : EventIsCurrent t := by
  rcases engineStep_cases ht with ⟨-, rfl⟩ | ⟨p, i, -, -, hexec⟩ | ⟨p, op, -, -, rfl⟩
  · exact h
  · exact h.exec hexec
  · exact h.of_mem_eq rfl rfl rfl

/-! ## The host -/

theorem EventIsCurrent.hostRead {s : State} (h : EventIsCurrent s) (a : BusAddr) : EventIsCurrent (hostRead a s) := by
  unfold Machine.hostRead
  split
  · exact h.of_mem_eq rfl rfl rfl
  · exact h.of_mem_eq rfl rfl rfl

/-- A register write touches neither memory nor the held event (10_state.md R46). -/
theorem EventIsCurrent.writeReg {s : State} (h : EventIsCurrent s) (v : Word) (r : Reg) : EventIsCurrent (writeReg v s r) := by
  cases r <;> exact h.of_mem_eq rfl rfl rfl

/-- A write to an entry of another RAM leaves IBUF as it was (20_memory.md R101). -/
theorem read_ibuf_writeRam (v : Word) {s : State} {r : Ram} {i a : Nat} (hr : r ≠ .ibuf) (hi : i < ramEntries r)
    (ha : inRam .ibuf a) : Memory.read (writeRam v i s r).mem a = Memory.read s.mem a := by
  by_cases hres : r = .res
  · rw [hres]
    rfl
  have outside : a < ramAddr r i ∨ ramAddr r i + 4 * 1 ≤ a := by
    by_contra hin
    refine hr (inRam_unique (a := a) ⟨?_, ?_⟩ ha)
    all_goals
      unfold ramAddr at hin
      omega
  obtain ⟨hwide, hnarrow⟩ := writeRam_mem v i s hres
  by_cases hw : isWide r
  · rw [hwide hw, Memory.read_storeWords_outside outside]
  · rw [hnarrow hw, Memory.read_storeHalves_outside outside]

theorem EventIsCurrent.writeRam {s : State} (h : EventIsCurrent s) (v : Word) {r : Ram} {i : Nat} (hi : i < ramEntries r) :
    EventIsCurrent (writeRam v i s r) := by
  cases r with
  | ibuf => exact eventIsCurrent_of_none rfl
  | _ => exact h.congr (fun a ha => read_ibuf_writeRam v nofun hi ha) rfl rfl

theorem EventIsCurrent.busyWrite {s : State} (h : EventIsCurrent s) (v : Word) (target : BusTarget) :
    EventIsCurrent (busyWrite v s target) := by
  unfold Machine.busyWrite
  split
  · exact h
  · exact h.of_mem_eq rfl rfl rfl
  · exact h.writeReg v _
  · exact h.writeReg v _
  · exact h.writeReg v _
  · exact h.of_mem_eq rfl rfl rfl

theorem EventIsCurrent.hostWrite {s : State} (h : EventIsCurrent s) (a : BusAddr) (v : Word) :
    EventIsCurrent (hostWrite a v s) := by
  unfold Machine.hostWrite
  split
  · exact h.busyWrite v _
  · cases htarget : busTarget a with
    | reg r => exact h.writeReg v r
    | ram r i => exact h.writeRam v (ramEntry_of_busTarget htarget)
    | nothing => exact h

/-- Settles O58, by the cases of a step: taking a turn off the inbox changes nothing that the promise speaks of. -/
theorem stepKeepsEventIsCurrent : Obligations.StepKeepsEventIsCurrent := by
  intro s t h ht
  have hrest : ∀ rest, EventIsCurrent { s with inbox := rest } := fun _ => h.of_mem_eq rfl rfl rfl
  rcases step_cases ht with ⟨rest, -, hstep⟩ | ⟨a, rest, -, rfl⟩ | ⟨a, v, rest, -, rfl⟩ | ⟨rest, -, rfl⟩
  · exact (hrest rest).engineStep hstep
  · exact (hrest rest).hostRead a
  · exact (hrest rest).hostWrite a v
  · exact eventIsCurrent_of_none rfl

end Sys2Proof.Machine
end

section
/-! DEC_PARSE (43_decoder.md R282-R289). The parse is the first four checks, the unit walk, and the trailer check; each way it ends is
one lemma, in the words of the statements, and DEC_PARSE fails or commits as the parse does. -/

namespace Sys2Proof.Machine

/-- A raise is a failure as the statements write it (60_exceptions.md R403, R404). -/
theorem raiseError_eq_failure (e : CommandError) (s : State) :
    raiseError e s = Spec.failure s (errorCode e.name) e.offset e.channel e.expected e.actual := rfl

/-- A parse that fails leaves EV discarded (43_decoder.md R284). -/
theorem exec_decParse_of_error {s : State} {e : CommandError} (h : parseEvent s.mem s.decCfg s.decLen.toNat = .error e) :
    exec .decParse s =
      .next (Spec.failure (Spec.eventDiscarded s) (errorCode e.name) e.offset e.channel e.expected e.actual) := by
  rw [exec, execDecParse, h]
  rfl

/-! ## The configuration -/

theorem modeOfCode_modeCode (mode : DaqMode) : modeOfCode (modeCode mode) = some mode := by cases mode <;> rfl

/-- Codes 5 to 7 are reserved (10_state.md R44). -/
theorem modeOfCode_of_ge {n : Nat} (h : 5 ≤ n) : modeOfCode n = none := by
  obtain ⟨k, rfl⟩ := Nat.exists_eq_add_of_le' h
  rfl

theorem exists_mode_of_lt {n : Nat} (h : n < 5) : ∃ mode, modeOfCode n = some mode := by
  interval_cases n <;> exact ⟨_, rfl⟩

/-- Where the unit payloads start: the two header sizes as the registers say them (30_encoding.md R145). -/
theorem payloadStart_eq (cfg : Word) :
    headerStart (cfgLegacy cfg) + feHeaderSize (cfgHdrfmt cfg) =
      (if cfg.getLsbD 2 then 8 else 16) + (if cfg.getLsbD 1 then 24 else 128) := by
  refine congrArg₂ (· + ·) rfl ?_
  unfold cfgHdrfmt
  split <;> rfl

theorem headerStart_eq_decStart (s : State) : headerStart (cfgLegacy s.decCfg) = Spec.decStart s := rfl

theorem feHeaderSize_eq (hdrfmt : HeaderFormat) : feHeaderSize hdrfmt = if hdrfmt = .fullDebug then 128 else 24 := by
  cases hdrfmt <;> rfl

theorem feHeaderSize_eq_decHeaderSize (s : State) : feHeaderSize (cfgHdrfmt s.decCfg) = Spec.decHeaderSize s :=
  feHeaderSize_eq _

/-! ## The first four checks -/

section
variable {m : Memory} {cfg : Word} {n : Nat}

/-- An error of the whole buffer: no offset and no channel (43_decoder.md R282). -/
def bufferError (name : ErrorName) (expected actual : Nat) : CommandError :=
  { name := name, offset := 0, channel := noChannel, expected := expected, actual := actual }

theorem parseEvent_of_reservedMode (hmode : 5 ≤ cfgModeCode cfg) :
    parseEvent m cfg n = .error (bufferError .configInvalid 4 (cfgModeCode cfg)) := by
  simp only [parseEvent, modeOfCode_of_ge hmode]
  rfl

theorem parseEvent_of_tooLong (hmode : cfgModeCode cfg < 5) (hlong : Config.ibufWords < n) :
    parseEvent m cfg n = .error (bufferError .configInvalid Config.ibufWords n) := by
  obtain ⟨mode, hmode⟩ := exists_mode_of_lt hmode
  simp only [parseEvent, hmode, if_pos hlong]
  rfl

theorem parseEvent_of_tooShort (hmode : cfgModeCode cfg < 5) (hlen : n ≤ Config.ibufWords)
    (hshort : 4 * n < headerStart (cfgLegacy cfg) + feHeaderSize (cfgHdrfmt cfg) + 8) :
    parseEvent m cfg n =
      .error (bufferError .bufferTooShort (headerStart (cfgLegacy cfg) + feHeaderSize (cfgHdrfmt cfg) + 8) (4 * n)) := by
  obtain ⟨mode, hmode⟩ := exists_mode_of_lt hmode
  simp only [parseEvent, hmode, if_neg (Nat.not_lt.2 hlen), if_pos hshort]
  rfl

theorem parseEvent_of_oddLength (hmode : cfgModeCode cfg < 5) (hlen : n ≤ Config.ibufWords)
    (hmin : headerStart (cfgLegacy cfg) + feHeaderSize (cfgHdrfmt cfg) + 8 ≤ 4 * n) (hodd : n % 2 = 1) :
    parseEvent m cfg n =
      .error { name := .badBufferLength, offset := 4 * n, channel := noChannel, expected := n + 1, actual := n } := by
  obtain ⟨mode, hmode⟩ := exists_mode_of_lt hmode
  simp only [parseEvent, hmode, if_neg (Nat.not_lt.2 hlen), if_neg (Nat.not_lt.2 hmin), if_pos hodd]

end

/-- Settles O28: each check is reached when those before it pass, and then answers its error. -/
theorem parseRefusesBadConfiguration : Obligations.ParseRefusesBadConfiguration := by
  intro s
  refine ⟨fun hmode => ?_, fun hmode hlong => ?_, fun hmode hlen hshort => ?_, fun hmode hlen hmin hodd => ?_⟩
  · exact exec_decParse_of_error (parseEvent_of_reservedMode hmode)
  · exact exec_decParse_of_error (parseEvent_of_tooLong hmode hlong)
  · rw [← payloadStart_eq] at hshort ⊢
    exact exec_decParse_of_error (parseEvent_of_tooShort hmode hlen hshort)
  · rw [← payloadStart_eq] at hmin
    exact exec_decParse_of_error (parseEvent_of_oddLength hmode hlen hmin hodd)

/-! ## The unit walk -/

/-- The unit walk of DEC_PARSE in `s`, in the words of the statements (43_decoder.md R284). -/
def decWalk (s : State) : Except CommandError (List UnitWalk × Nat) :=
  walkUnits s.mem (Spec.decHeaderFormat s) (Spec.decEnable s) (4 * s.decLen.toNat) (Spec.decStart s) [0, 1, 2, 3, 4, 5, 6, 7]
    (Spec.decStart s + Spec.decHeaderSize s)

/-- The trailer check and the commit, once the walk found the units and the trailer's offset (43_decoder.md R284, R289). -/
def withTrailer (s : State) (mode : DaqMode) (walk : List UnitWalk × Nat) : Except CommandError Parsed :=
  if 4 * s.decLen.toNat < walk.2 + 8 then
    .error { name := .outOfRange, offset := walk.2, channel := noChannel, expected := walk.2 + 8, actual := 4 * s.decLen.toNat }
  else .ok (parsedEvent s.mem s.decCfg mode (4 * s.decLen.toNat) walk.1 walk.2)

/-- Past its first four checks, the parse is the walk and then the trailer check. -/
theorem parseEvent_of_parseable {s : State} {mode : DaqMode} (h : Spec.parseable s mode) :
    parseEvent s.mem s.decCfg s.decLen.toNat = (decWalk s).bind (withTrailer s mode) := by
  obtain ⟨hmode, hlen, heven, hmin⟩ := h
  have hmode : modeOfCode (cfgModeCode s.decCfg) = some mode := by rw [cfgModeCode, field, hmode, modeOfCode_modeCode]
  have hlen : ¬ Config.ibufWords < s.decLen.toNat := Nat.not_lt.2 hlen
  simp only [parseEvent, hmode, headerStart_eq_decStart, feHeaderSize_eq_decHeaderSize, if_neg hlen,
    if_neg (Nat.not_lt.2 hmin), heven, if_neg (show ¬ 0 = 1 by decide)]
  change _ = (walkUnits _ _ _ _ _ _ _).bind _
  split <;> rename_i hw <;> exact hw ▸ rfl

/-! ## Where the walk stops -/

section
variable {s : State} {mode : DaqMode} {p q : Nat → Nat} {u c : Nat}

theorem decWalk_start (w : Spec.walked s p q u) : p 0 = Spec.decStart s + Spec.decHeaderSize s := w.start

/-- A unit whose walk fails ends the whole walk, once the units before it are walked. -/
theorem decWalk_of_unitError (w : Spec.walked s p q u) (hu : u < 8) (he : (Spec.decEnable s).getLsbD u = true)
    {e : CommandError}
    (h : walkUnit s.mem (Spec.decHeaderFormat s) (4 * s.decLen.toNat) (Spec.decStart s) u (p u) = .error e) :
    decWalk s = .error e := by
  have hunits : [0, 1, 2, 3, 4, 5, 6, 7] = List.range' 0 u ++ u :: List.range' (u + 1) (7 - u) := by
    interval_cases u <;> rfl
  rw [decWalk, ← decWalk_start w, hunits, walkUnits_append w (Nat.zero_add u).le, Nat.zero_add, walkUnits, if_pos he, h]

/-- A unit's walk fails with the first channel that fails, once the channels before it are walked (43_decoder.md R287). -/
theorem walkUnit_of_channelError {m : Memory} {nb h0 : Nat} {hdrfmt : HeaderFormat} (wc : Spec.ChannelWalk m nb p q u c)
    (hc : c < 12) {e : CommandError} (h : ∀ n, walkChannels m nb (n + 1) (12 * u + c) (q (12 * u + c)) = .error e) :
    walkUnit m hdrfmt nb h0 u (p u) = .error e := by
  have hwalk := walkChannels_error (r := fun k => q (12 * u + k)) wc.next wc.fits (h (11 - c))
  rw [show c + (11 - c + 1) = 12 by omega] at hwalk
  rw [walkUnit, ← wc.first, show walkChannels m nb 12 (12 * u) (q (12 * u)) = .error e from hwalk]

/-- A unit of twelve channels that fit is refused when it is longer than FullDebug records (43_decoder.md R287). -/
theorem walkUnit_of_overrun {m : Memory} {nb h0 : Nat} (wc : Spec.ChannelWalk m nb p q u 12)
    (h : Spec.channelLength m (h0 + 16 * u + 14) < q (12 * u + 12) - p u) :
    walkUnit m .fullDebug nb h0 u (p u) =
      .error { name := .unitOverrun, offset := p u, channel := 12 * u + 11,
               expected := Spec.channelLength m (h0 + 16 * u + 14), actual := q (12 * u + 12) - p u } := by
  have hwalk := walkChannels_ok (ch := 12 * u) (r := fun k => q (12 * u + k)) wc.next wc.fits
  rw [Nat.add_zero, wc.first] at hwalk
  simp only [walkUnit, hwalk, recordedLength, toNat_u16le, if_pos h]

theorem exec_decParse_of_unitError (hs : Spec.parseable s mode) (w : Spec.walked s p q u) (hu : u < 8)
    (he : (Spec.decEnable s).getLsbD u = true) {e : CommandError}
    (h : walkUnit s.mem (Spec.decHeaderFormat s) (4 * s.decLen.toNat) (Spec.decStart s) u (p u) = .error e) :
    exec .decParse s =
      .next (Spec.failure (Spec.eventDiscarded s) (errorCode e.name) e.offset e.channel e.expected e.actual) :=
  exec_decParse_of_error (by rw [parseEvent_of_parseable hs, decWalk_of_unitError w hu he h]; rfl)

end

section
variable {m : Memory} {nb ch r : Nat}

/-- The length field does not fit the buffer (43_decoder.md R287). -/
theorem walkChannels_of_lengthPastEnd (h : nb < r + 2) (n : Nat) :
    walkChannels m nb (n + 1) ch r =
      .error { name := .outOfRange, offset := r, channel := ch, expected := r + 2, actual := nb } :=
  if_pos h

/-- The length is shorter than the length field and the packet code (43_decoder.md R287). -/
theorem walkChannels_of_shortLength (hfit : r + 2 ≤ nb) (h : Spec.channelLength m r < 3) (n : Nat) :
    walkChannels m nb (n + 1) ch r =
      .error { name := .badChannelLength, offset := r, channel := ch, expected := 3, actual := Spec.channelLength m r } := by
  simp only [walkChannels, toNat_u16le, if_neg (Nat.not_lt.2 hfit), if_pos h]

/-- The channel does not fit the buffer (43_decoder.md R287). -/
theorem walkChannels_of_channelPastEnd (hfit : r + 2 ≤ nb) (hlen : 3 ≤ Spec.channelLength m r)
    (h : nb < r + Spec.channelLength m r) (n : Nat) :
    walkChannels m nb (n + 1) ch r =
      .error { name := .outOfRange, offset := r, channel := ch, expected := r + Spec.channelLength m r, actual := nb } := by
  simp only [walkChannels, toNat_u16le, if_neg (Nat.not_lt.2 hfit), if_neg (Nat.not_lt.2 hlen), if_pos h]

end

/-! ## An event that parses -/

/-- What the walk finds of unit u (43_decoder.md R284). -/
def walkedUnit (s : State) (p q : Nat → Nat) (u : Nat) : UnitWalk :=
  if (Spec.decEnable s).getLsbD u then
    { off := p u
      len := p (u + 1) - p u
      chan := (List.range 12).map fun c =>
        { off := q (12 * u + c)
          len := Spec.channelLength s.mem (q (12 * u + c))
          pcode := logicalByte s.mem (q (12 * u + c) + 2) } }
  else UnitWalk.disabled

section
variable {s : State} {mode : DaqMode} {p q : Nat → Nat}

theorem decWalk_of_walked (w : Spec.walked s p q 8) :
    decWalk s = .ok ((List.range 8).map (walkedUnit s p q), p 8) := by
  have h := walkUnits_append w (Nat.le_refl (0 + 8)) []
  rw [decWalk, ← decWalk_start w]
  exact h

theorem length_chan_walkedUnit (s : State) (p q : Nat → Nat) (u : Nat) : (walkedUnit s p q u).chan.length = 12 := by
  unfold walkedUnit
  split <;> rfl

/-- The entry of a channel of an enabled unit (43_decoder.md R287). -/
theorem getD_chan_walkedUnits {ch : Nat} (hch : ch < 96) (he : (Spec.decEnable s).getLsbD (ch / 12) = true) :
    (((List.range 8).map (walkedUnit s p q)).flatMap UnitWalk.chan).getD ch ChannelEntry.absent =
      { off := q ch, len := Spec.channelLength s.mem (q ch), pcode := logicalByte s.mem (q ch + 2) } := by
  obtain ⟨u, c, hu, hc, rfl⟩ : ∃ u c, u < 8 ∧ c < 12 ∧ ch = 12 * u + c :=
    ⟨ch / 12, ch % 12, by omega, by omega, by omega⟩
  rw [show (12 * u + c) / 12 = u by omega] at he
  rw [List.flatMap_map, getD_flatMap_const (length_chan_walkedUnit s p q) _ (by simpa using hu) hc, List.getElem_range,
    walkedUnit, if_pos he]
  simp [hc]

/-- The registers of a unit (43_decoder.md R284, R289). -/
theorem unitRegs_walkedUnit {hdrfmt : HeaderFormat} {h0 u : Nat} :
    unitRegs s.mem hdrfmt (Spec.decEnable s) h0 u (walkedUnit s p q u) =
      if (Spec.decEnable s).getLsbD u then
        { off := BitVec.ofNat 32 (p u)
          len := BitVec.ofNat 32 (p (u + 1) - p u)
          maj := if hdrfmt = .fullDebug then logicalByte s.mem (h0 + 16 * u + 9) else 0
          rsv := if hdrfmt = .fullDebug then u32le s.mem (h0 + 16 * u + 10) else 0 }
      else { off := 0, len := 0, maj := 0, rsv := 0 } := by
  by_cases he : (Spec.decEnable s).getLsbD u = true
  · simp only [unitRegs, walkedUnit, he, if_true, true_and]
  · simp only [unitRegs, walkedUnit, he]
    rfl

end

theorem dfield_append_dfield (v : DWord) : dfield v 32 32 ++ dfield v 0 32 = v :=
  (BitVec.extractLsb'_append_extractLsb'_eq_extractLsb' rfl).trans BitVec.extractLsb'_eq_self

/-- Settles O29: the walk finds the units that `Spec.ParseWalk` describes, so EV and the header registers are read off them. -/
theorem parseBuildsTheEvent : Obligations.ParseBuildsTheEvent := by
  intro s mode p q hs w ht
  have hparse : parseEvent s.mem s.decCfg s.decLen.toNat =
      .ok (parsedEvent s.mem s.decCfg mode (4 * s.decLen.toNat) ((List.range 8).map (walkedUnit s p q)) (p 8)) := by
    rw [parseEvent_of_parseable hs, decWalk_of_walked w]
    exact if_neg (Nat.not_lt.2 ht)
  refine ⟨_, _, _, exec_eq_success (.decParse hparse), rfl, fun ch hch he => ?channel, dfield_append_dfield _,
    dfield_append_dfield _, dfield_append_dfield _, rfl, rfl, rfl, rfl, rfl, rfl, rfl, rfl, rfl, fun u hu => ?unit⟩
  case channel =>
    rw [← getD_chan_walkedUnits hch he]
    exact Vector.getElem_ofFn hch
  case unit =>
    have hunit : ((List.range 8).map (walkedUnit s p q)).getD u UnitWalk.disabled = walkedUnit s p q u := by simp [hu]
    exact (Vector.getElem_ofFn hu).trans ((congrArg _ hunit).trans unitRegs_walkedUnit)

/-- Settles O30: each failure of a channel or a unit ends the walk there; a walk that goes through leaves the trailer check. -/
theorem parseWalkErrors : Obligations.ParseWalkErrors := by
  intro s mode p q u c hs
  refine ⟨fun w hu he wc => ⟨fun hc h => ?_, fun hc hfit h => ?_, fun hc hfit hlen h => ?_, fun hc hdrfmt h => ?_⟩,
    fun w h => ?trailer⟩
  · exact exec_decParse_of_unitError hs w hu he (walkUnit_of_channelError wc hc (walkChannels_of_lengthPastEnd h))
  · exact exec_decParse_of_unitError hs w hu he (walkUnit_of_channelError wc hc (walkChannels_of_shortLength hfit h))
  · exact exec_decParse_of_unitError hs w hu he (walkUnit_of_channelError wc hc (walkChannels_of_channelPastEnd hfit hlen h))
  · subst hc
    exact exec_decParse_of_unitError hs w hu he (hdrfmt ▸ walkUnit_of_overrun wc h)
  case trailer =>
    have hparse : parseEvent s.mem s.decCfg s.decLen.toNat =
        .error { name := .outOfRange, offset := p 8, channel := noChannel, expected := p 8 + 8,
                 actual := 4 * s.decLen.toNat } := by
      rw [parseEvent_of_parseable hs, decWalk_of_walked w]
      exact if_pos h
    exact exec_decParse_of_error hparse

end Sys2Proof.Machine
end

section
/-! The accessors of the held event other than DEC_SAMPLES' bodies (43_decoder.md R280, R290, R291, R315, R320): the channel they
resolve, the status of a channel bit by bit, and what DEC_CHANNEL, DEC_CHECK and DEC_STATUSES report. -/

namespace Sys2Proof.Machine

/-! ## Resolving a channel -/

theorem resolveChannel_of_ge (ev : EventRecord) {idx : Nat} (h : 96 ≤ idx) :
    resolveChannel (some ev) idx =
      .error { name := .channelOutOfBounds, offset := 0, channel := idx, expected := 95, actual := idx } :=
  dif_neg (Nat.not_lt.2 h)

theorem resolveChannel_of_disabled {ev : EventRecord} {idx : Nat} (h : idx < 96) (he : ev.enable.getLsbD (idx / 12) = false) :
    resolveChannel (some ev) idx =
      .error { name := .feUnitDisabled, offset := 0, channel := idx, expected := 1, actual := 0 } := by
  rw [resolveChannel, dif_pos h, if_neg (by rw [he]; exact Bool.false_ne_true)]

/-- DEC_CHANNEL and DEC_SAMPLES of a channel that does not resolve (43_decoder.md R290, R295). -/
theorem exec_of_unresolved {s : State} {i : Instr} {idx : Nat} (hi : i = .decChan idx ∨ i = .decSamples idx)
    {ev? : Option EventRecord} (hev : s.ev = ev?) {e : CommandError} (h : resolveChannel ev? idx = .error e) :
    exec i s =
      .next (Spec.failure (Spec.failureWrites i s) (errorCode e.name) e.offset e.channel e.expected e.actual) := by
  subst hev
  rcases hi with rfl | rfl
  · rw [exec, execDecChan, h]
    rfl
  · rw [exec, execDecSamples, h]
    rfl

/-- Settles O31: DEC_CHANNEL and DEC_SAMPLES fail as their channel fails to resolve; the others look for the event alone. -/
theorem accessorErrors : Obligations.AccessorErrors := by
  refine ⟨?noEvent, fun s ev i idx hi hev => ⟨fun h => ?past, fun h he => ?disabled⟩⟩
  case noEvent =>
    rintro s i (⟨idx, hi⟩ | rfl | rfl) hev
    · exact exec_of_unresolved hi hev rfl
    · rw [exec, execDecCheck, hev]
      rfl
    · rw [exec, execDecStatus, hev]
      rfl
  case past => exact exec_of_unresolved hi hev (resolveChannel_of_ge ev h)
  case disabled => exact exec_of_unresolved hi hev (resolveChannel_of_disabled h he)

/-- Settles O32: the channel of an enabled unit resolves, and DEC_CHANNEL commits its report. -/
theorem decChannelReportsTheChannel : Obligations.DecChannelReportsTheChannel := fun _ _ _ h hev he =>
  exec_eq_success (.decChan (resolveChannel_of_resolves ⟨hev, he, h, rfl⟩))

/-! ## Status bits -/

/-- The number whose bit j is `b j`, for j below n, built bit by bit. -/
def numberOfBits (b : Nat → Bool) (n : Nat) : Nat := (List.range n).foldl (fun x j => x + ((b j).toNat <<< j)) 0

theorem numberOfBits_succ (b : Nat → Bool) (n : Nat) :
    numberOfBits b (n + 1) = 2 ^ n * (b n).toNat + numberOfBits b n := by
  rw [numberOfBits, List.range_succ, List.foldl_append, List.foldl_cons, List.foldl_nil, Nat.shiftLeft_eq, Nat.mul_comm,
    Nat.add_comm]
  rfl

theorem numberOfBits_lt (b : Nat → Bool) (n : Nat) : numberOfBits b n < 2 ^ n := by
  induction n with
  | zero => exact Nat.one_pos
  | succ n ih =>
    rw [numberOfBits_succ]
    cases b n <;> simp <;> omega

theorem testBit_numberOfBits (b : Nat → Bool) {n j : Nat} (hj : j < n) : (numberOfBits b n).testBit j = b j := by
  induction n with
  | zero => exact absurd hj (Nat.not_lt_zero j)
  | succ n ih =>
    rw [numberOfBits_succ, Nat.testBit_two_pow_mul_add _ (numberOfBits_lt b n)]
    rcases Nat.lt_succ_iff_lt_or_eq.1 hj with h | rfl
    · rw [if_pos h, ih h]
    · rw [if_neg (Nat.lt_irrefl j), Nat.sub_self]
      cases b j <;> rfl

theorem getLsbD_ofNat_numberOfBits (b : Nat → Bool) (n j : Nat) :
    (BitVec.ofNat n (numberOfBits b n)).getLsbD j = (decide (j < n) && b j) := by
  rw [BitVec.getLsbD_ofNat]
  by_cases hj : j < n
  · rw [testBit_numberOfBits b hj]
  · rw [decide_eq_false hj, Bool.false_and, Bool.false_and]

/-- Bit j of a field of the status bit string (30_encoding.md R166). -/
theorem getLsbD_statusBits (m : Memory) (start k n j : Nat) :
    (statusBits m start k n).getLsbD j =
      (decide (j < n) && (logicalByte m (start + (k + j) / 8)).getLsbD ((k + j) % 8)) :=
  getLsbD_ofNat_numberOfBits (fun j => (logicalByte m (start + (k + j) / 8)).getLsbD ((k + j) % 8)) n j

/-- The two bits of an ApvError status, zeros above them (43_decoder.md R291). -/
theorem getLsbD_channelStatus_of_apvError {ev : EventRecord} (h : ev.hdrfmt = .apvError) {m : Memory} {ch j : Nat} :
    (channelStatus m ev ch).getLsbD j =
      (decide (j < 6) && (decide (j < 2) && (logicalByte m (ev.h0 + (2 * ch + j) / 8)).getLsbD ((2 * ch + j) % 8))) := by
  simp only [channelStatus, h, BitVec.truncate_eq_setWidth, BitVec.getLsbD_setWidth, getLsbD_statusBits]

/-- Settles O33: a status is a field of the status bit string, zero-extended for ApvError. -/
theorem channelStatusBits : Obligations.ChannelStatusBits := by
  intro m ev ch j
  refine ⟨fun hfmt hj => ?_, fun hfmt hj => ?_, fun hfmt hj => ?_⟩
  · simp only [channelStatus, hfmt, getLsbD_statusBits, hj, decide_true, Bool.true_and]
  · simp only [getLsbD_channelStatus_of_apvError hfmt, hj, hj.trans (by decide : 2 < 6), decide_true, Bool.true_and]
  · simp only [getLsbD_channelStatus_of_apvError hfmt, decide_eq_false (Nat.not_lt.2 hj), Bool.false_and, Bool.and_false]

/-! ## DEC_STATUSES -/

theorem getLsbD_badWord (m : Memory) (ev : EventRecord) (lo k : Nat) :
    (badWord m ev lo).getLsbD k = (decide (k < 32) && badChannel m ev (lo + k)) :=
  getLsbD_ofNat_numberOfBits (fun k => badChannel m ev (lo + k)) 32 k

/-- The three words of the map, as one (43_decoder.md R320). -/
theorem getLsbD_badMap (m : Memory) (ev : EventRecord) {ch : Nat} (hch : ch < 96) :
    ((statRegs m ev).bad2 ++ (statRegs m ev).bad1 ++ (statRegs m ev).bad0).getLsbD ch = badChannel m ev ch := by
  simp only [BitVec.getLsbD_append, statRegs, getLsbD_badWord]
  rcases (by omega : ch < 32 ∨ 32 ≤ ch ∧ ch < 64 ∨ 64 ≤ ch) with h | h | h
  · simp only [h, if_true, decide_true, Bool.true_and, Nat.zero_add]
  · simp only [show ¬ ch < 32 by omega, show ch - 32 < 32 by omega, if_true, if_false, decide_true, Bool.true_and,
      Nat.add_sub_cancel' h.1]
  · simp only [show ¬ ch < 32 by omega, show ¬ ch - 32 < 32 by omega, show ch - 32 - 32 < 32 by omega, if_false, decide_true,
      Bool.true_and, show 64 + (ch - 32 - 32) = ch by omega]

theorem badChannel_eq (m : Memory) (ev : EventRecord) (ch : Nat) :
    badChannel m ev ch = (ev.enable.getLsbD (ch / 12) &&
      channelStatus m ev ch != (if ev.hdrfmt = .fullDebug then 0x3F else 0x3)) := by
  unfold badChannel
  cases ev.hdrfmt <;> rfl

theorem toNat_statRegs_count (m : Memory) (ev : EventRecord) :
    (statRegs m ev).count.toNat = ((List.range 96).filter (badChannel m ev)).length := by
  have hle : (List.range 96).countP (badChannel m ev) ≤ 96 := List.countP_le_length.trans_eq List.length_range
  rw [← List.countP_eq_length_filter]
  exact Nat.mod_eq_of_lt (by omega)

/-- Settles O40: the bits of the map are the bad channels, and the count is of the same channels. -/
theorem decStatusesReportsBadChannels : Obligations.DecStatusesReportsBadChannels := by
  intro s ev hev
  simp only [← badChannel_eq]
  exact ⟨_, exec_eq_success (.decStatus hev), fun _ => getLsbD_badMap s.mem ev, toNat_statRegs_count s.mem ev, rfl⟩

/-! ## DEC_CHECK -/

/-- The event CRC, as the loop on plain numbers (41_crc.md R242). -/
theorem eventCrc_eq (m : Memory) (t : Nat) (fmt : EventFormat) :
    eventCrc m t fmt = BitVec.ofNat 16 (Spec.crcLoop ((List.range (t + 8)).map fun i =>
      if i = t + (if fmt = .standard then 4 else 0) ∨ i = t + (if fmt = .standard then 4 else 0) + 1 then 0
      else logicalByte m i)) := by
  rw [eventCrc, crc16_eq_crcLoop, maskedEventBytes]
  cases fmt <;> rfl

/-- Settles O39: with and without SKIP_CRC, DEC_CHECK commits the flags and the CRC it compared. -/
theorem decCheckWritesTheFlags : Obligations.DecCheckWritesTheFlags := by
  intro s ev hev
  refine ⟨fun hskip => exec_eq_success (.decCheckSkip hev hskip), fun hskip => ?_⟩
  simp only [← eventCrc_eq]
  exact exec_eq_success (.decCheckCrc hev hskip)

end Sys2Proof.Machine
end

section
/-! DEC_SAMPLES (43_decoder.md R295-R301). A channel that resolves and whose packet code has a width is decoded by the body of its
mode; DEC_SAMPLES succeeds or fails as that body does, and each body's outcome is one lemma. -/

namespace Sys2Proof.Machine

section
variable {s : State} {ev : EventRecord} {c : ChannelEntry} {idx : Nat} {w : Width}

theorem decodeSamples_of_body {m : Memory} (hpc : packetCode ev.mode w = some c.pcode) {r : Samples}
    (h : channelBody m ev.mode w idx c = .ok r) : decodeSamples m ev idx c = .ok (w, r) := by
  simp only [decodeSamples, widthOfPacketCode_of hpc, h]

theorem decodeSamples_of_bodyError {m : Memory} (hpc : packetCode ev.mode w = some c.pcode) {e : CommandError}
    (h : channelBody m ev.mode w idx c = .error e) : decodeSamples m ev idx c = .error e := by
  simp only [decodeSamples, widthOfPacketCode_of hpc, h]

/-- A failing DEC_SAMPLES of a resolved channel clears the result registers and no more (60_exceptions.md R405). -/
theorem exec_decSamples_of_error (hres : Spec.resolves s idx ev c) {e : CommandError}
    (h : decodeSamples s.mem ev idx c = .error e) :
    exec (.decSamples idx) s = .next (Spec.failure (Spec.failureWrites (.decSamples idx) s) (errorCode e.name) e.offset
      e.channel e.expected e.actual) := by
  simp only [exec, execDecSamples, resolveChannel_of_resolves hres, h]
  rfl

theorem exec_decSamples_of_bodyError (hres : Spec.resolves s idx ev c) (hpc : packetCode ev.mode w = some c.pcode)
    {e : CommandError} (h : channelBody s.mem ev.mode w idx c = .error e) :
    exec (.decSamples idx) s = .next (Spec.failure (Spec.failureWrites (.decSamples idx) s) (errorCode e.name) e.offset
      e.channel e.expected e.actual) :=
  exec_decSamples_of_error hres (decodeSamples_of_bodyError hpc h)

/-- A body that decodes is stored in RES and reported (43_decoder.md R295). -/
theorem exec_decSamples_of_body (hres : Spec.resolves s idx ev c) (hpc : packetCode ev.mode w = some c.pcode) {r : Samples}
    (h : channelBody s.mem ev.mode w idx c = .ok r) :
    ∃ t, exec (.decSamples idx) s = .next t ∧
      Spec.samplesResult s t ev idx c w r.kind.toNat r.nclus r.cm0 r.cm1 r.entries := by
  have hcommits := Commits.decSamples (resolveChannel_of_resolves hres) (decodeSamples_of_body hpc h)
  refine ⟨_, exec_eq_success hcommits, fun k hk => Memory.half_storeHalves s.mem (ramBase .res) _ hk,
    fun a ha => Memory.read_storeHalves_outside ha, ?_⟩
  have hkind := resKind_eq ev.mode w (k := r.kind.toNat) r.kind.isLt
  rw [BitVec.ofNat_toNat, BitVec.setWidth_eq] at hkind
  rw [← hkind]
  rfl

/-! ## The packet code -/

theorem stdPacketCode_eq {mode : DaqMode} {std : Byte} (h : packetCode mode .std = some std) : stdPacketCode mode = std := by
  cases mode <;> exact Option.some.inj h

/-- A code that no width of the mode has (30_encoding.md R180). -/
theorem widthOfPacketCode_of_ne {mode : DaqMode} {pc : Byte} (h : ∀ w, packetCode mode w ≠ some pc) :
    widthOfPacketCode mode pc = none :=
  List.find?_eq_none.2 fun w _ hw => h w (eq_of_beq hw)

/-- Settles O37: a code without a width is refused before the body is looked at. -/
theorem packetCodeIsChecked : Obligations.PacketCodeIsChecked := by
  intro s ev c idx std hres hpc hstd
  have hdecode : decodeSamples s.mem ev idx c =
      .error { name := .packetCodeCorrupt, offset := c.off + 2, channel := idx, expected := std.toNat,
               actual := c.pcode.toNat } := by
    simp only [decodeSamples, widthOfPacketCode_of_ne hpc, stdPacketCode_eq hstd]
  exact exec_decSamples_of_error hres hdecode

/-! ## Raw and Scope bodies -/

theorem channelBody_of_raw {m : Memory} {mode : DaqMode} (h : mode = .virginRaw ∨ mode = .processedRaw) :
    channelBody m mode w idx c = rawBody m mode w idx c := by
  rcases h with rfl | rfl <;> rfl

/-- A frame put into strip order has the value of MUX position i at strip P(i) (42_reorder.md R265). -/
theorem getElem?_reorderFrame_muxToStrip (xs : List Half) {i : Nat} (hi : i < 128) :
    (reorderFrame xs)[Spec.muxToStrip i]? = some (xs.getD i 0) := by
  obtain ⟨hlt, hback⟩ := muxOfStrip_stripOfMux hi
  change (reorderFrame xs)[stripOfMux i]? = _
  rw [List.getElem?_eq_getElem (by rwa [length_reorderFrame]), getElem_reorderFrame, hback]

@[simp] theorem length_decodedValues (m : Memory) (mode : DaqMode) (w : Width) (p n : Nat) :
    (decodedValues m mode w p n).length = n := by simp [decodedValues]

theorem getD_decodedValues {m : Memory} {mode : DaqMode} {p n i : Nat} (hi : i < n) :
    (decodedValues m mode w p n).getD i 0 = decodedValue m mode p i w := by
  simp [decodedValues, hi]

/-- Settles O34: the two halves of the body are reordered one by one, each with P. -/
theorem decSamplesOfARawChannel : Obligations.DecSamplesOfARawChannel := by
  intro s ev c idx w hres hmode hpc hlen
  have hbody := channelBody_of_raw (m := s.mem) (w := w) (idx := idx) (c := c) hmode
  rw [rawBody, if_neg (by omega)] at hbody
  obtain ⟨t, hexec, hresult⟩ := exec_decSamples_of_body hres hpc hbody
  refine ⟨t, _, hexec, hresult, by simp, fun a ha i hi => ?_⟩
  have hstrip : Spec.muxToStrip i < 128 := (muxOfStrip_stripOfMux hi).1
  obtain rfl | rfl : a = 0 ∨ a = 1 := by omega
  · rw [Nat.mul_zero, Nat.zero_add, Nat.zero_add, List.getElem?_append_left (by simpa using hstrip),
      getElem?_reorderFrame_muxToStrip _ hi, ← getD_decodedValues (show i < 256 by omega)]
    simp only [List.getD_eq_getElem?_getD, List.getElem?_take_of_lt hi]
  · rw [List.getElem?_append_right (by simp), length_reorderFrame, Nat.mul_one, Nat.add_sub_cancel_left,
      getElem?_reorderFrame_muxToStrip _ hi, ← getD_decodedValues (show 128 + i < 256 by omega)]
    simp only [List.getD_eq_getElem?_getD, List.getElem?_drop]

/-- Settles O35: the values of a Scope body keep their order. -/
theorem decSamplesOfAScopeChannel : Obligations.DecSamplesOfAScopeChannel := by
  intro s ev c idx hres hmode hpc hlen
  have hbody : channelBody s.mem ev.mode .std idx c = scopeBody s.mem idx c := by rw [hmode]; rfl
  rw [scopeBody, if_neg (by omega)] at hbody
  exact exec_decSamples_of_body hres (by rw [hmode, hpc]; rfl) hbody

end

/-! ## Zero-suppressed bodies -/

section
variable {m : Memory} {c : ChannelEntry} {idx : Nat} {w : Width} {mode : DaqMode}

/-- A zero-suppressed body with room for its medians is its clusters (43_decoder.md R299). -/
theorem channelBody_of_zeroSuppressed (h : mode = .zeroSuppressed ∨ mode = .zeroSuppressedLite)
    (hroom : Spec.clusterStart mode c ≤ c.off + c.len) :
    channelBody m mode w idx c = clusterBody m mode w idx (c.off + c.len) (Spec.clusterStart mode c)
      (if mode = .zeroSuppressed then u16le m (c.off + 3) else 0)
      (if mode = .zeroSuppressed then u16le m (c.off + 5) else 0) := by
  rcases h with rfl | rfl
  · have hmedians : ¬ c.len - 3 < 4 := by
      simp only [Spec.clusterStart, if_true] at hroom
      omega
    rw [channelBody, zeroSuppressedBody, if_pos rfl, if_neg hmedians]
    rfl
  · rfl

/-- The walk ends where the channel does (43_decoder.md R300). -/
theorem walkClusters_of_end {last q : Nat} (h : last ≤ q) (fuel : Nat) :
    walkClusters m mode w idx last fuel q = .ok ([], 0) := by
  cases fuel with
  | zero => rfl
  | succ fuel => exact if_pos h

theorem clusterBody_of_clusters {last q : Nat} {cs : List (List Half)} (h : Spec.Clusters m mode w last q last cs)
    (cm0 cm1 : Half) : clusterBody m mode w idx last q cm0 cm1 =
      .ok { kind := 2, entries := cs.flatten, nclus := cs.length, cm0 := cm0, cm1 := cm1 } := by
  obtain ⟨rest, -, hwalk⟩ := walkClusters_append h idx (Nat.le_refl (last - q))
  rw [clusterBody, hwalk, walkClusters_of_end (Nat.le_refl last)]
  simp only [List.append_nil, Nat.add_zero]

/-- A bad cluster ends the walk, whatever clusters stand before it. -/
theorem clusterBody_of_clusterError {last q r : Nat} {cs : List (List Half)} (h : Spec.Clusters m mode w last q r cs)
    (hr : r < last) {e : CommandError} (hbad : ∀ fuel, walkClusters m mode w idx last (fuel + 1) r = .error e)
    (cm0 cm1 : Half) : clusterBody m mode w idx last q cm0 cm1 = .error e := by
  obtain ⟨rest, hrest, hwalk⟩ := walkClusters_append h idx (Nat.le_refl (last - q))
  obtain ⟨fuel, rfl⟩ : ∃ fuel, rest = fuel + 1 := ⟨rest - 1, by omega⟩
  rw [clusterBody, hwalk, hbad]

end

/-- Settles O36: the walk passes over the clusters to the channel's end. -/
theorem decSamplesOfClusters : Obligations.DecSamplesOfClusters := by
  intro s ev c idx w cs hres hmode hpc hroom hclusters
  have hbody := channelBody_of_zeroSuppressed (m := s.mem) (w := w) (idx := idx) hmode hroom
  rw [clusterBody_of_clusters hclusters] at hbody
  exact exec_decSamples_of_body hres hpc hbody

/-! ## Bodies that do not fit -/

section
variable {m : Memory} {idx last r : Nat} {w : Width} {mode : DaqMode}

theorem walkClusters_of_noHeader (hr : r < last) (h : last < r + 2) (fuel : Nat) :
    walkClusters m mode w idx last (fuel + 1) r = .error (payloadCorrupt r idx (r + 2) last) := by
  simp only [walkClusters, if_neg (Nat.not_le.2 hr), if_pos h]

theorem walkClusters_of_noWidth (hr : r < last) (hfit : r + 2 ≤ last) (h : (logicalByte m (r + 1)).toNat = 0) (fuel : Nat) :
    walkClusters m mode w idx last (fuel + 1) r = .error (payloadCorrupt (r + 1) idx 1 0) := by
  simp only [walkClusters, if_neg (Nat.not_le.2 hr), if_neg (Nat.not_lt.2 hfit), if_pos h]

theorem walkClusters_of_pastStrips (hr : r < last) (hfit : r + 2 ≤ last) (hw : (logicalByte m (r + 1)).toNat ≠ 0)
    (h : 256 < (logicalByte m r).toNat + (logicalByte m (r + 1)).toNat) (fuel : Nat) :
    walkClusters m mode w idx last (fuel + 1) r =
      .error (payloadCorrupt r idx 256 ((logicalByte m r).toNat + (logicalByte m (r + 1)).toNat)) := by
  simp only [walkClusters, if_neg (Nat.not_le.2 hr), if_neg (Nat.not_lt.2 hfit), if_neg hw, if_pos h]

theorem walkClusters_of_pastEnd (hr : r < last) (hfit : r + 2 ≤ last) (hw : (logicalByte m (r + 1)).toNat ≠ 0)
    (hstrips : (logicalByte m r).toNat + (logicalByte m (r + 1)).toNat ≤ 256)
    (h : last < r + 2 + codedSize (logicalByte m (r + 1)).toNat mode w) (fuel : Nat) :
    walkClusters m mode w idx last (fuel + 1) r =
      .error (payloadCorrupt r idx (r + 2 + codedSize (logicalByte m (r + 1)).toNat mode w) last) := by
  simp only [walkClusters, if_neg (Nat.not_le.2 hr), if_neg (Nat.not_lt.2 hfit), if_neg hw, if_neg (Nat.not_lt.2 hstrips),
    if_pos h]

end

/-- A bad cluster fails the whole DEC_SAMPLES. -/
theorem exec_decSamples_of_clusterError {s : State} {ev : EventRecord} {c : ChannelEntry} {idx r : Nat} {w : Width}
    {cs : List (List Half)} (hres : Spec.resolves s idx ev c) (hpc : packetCode ev.mode w = some c.pcode)
    (hmode : ev.mode = .zeroSuppressed ∨ ev.mode = .zeroSuppressedLite)
    (hclusters : Spec.Clusters s.mem ev.mode w (c.off + c.len) (Spec.clusterStart ev.mode c) r cs) (hr : r < c.off + c.len)
    {e : CommandError} (hbad : ∀ fuel, walkClusters s.mem ev.mode w idx (c.off + c.len) (fuel + 1) r = .error e) :
    exec (.decSamples idx) s = .next (Spec.failure (Spec.failureWrites (.decSamples idx) s) (errorCode e.name) e.offset
      e.channel e.expected e.actual) := by
  have hbody := channelBody_of_zeroSuppressed (m := s.mem) (w := w) (idx := idx) hmode ((clusters_le hclusters).trans hr.le)
  rw [clusterBody_of_clusterError hclusters hr hbad] at hbody
  exact exec_decSamples_of_bodyError hres hpc hbody

/-- Settles O38: the length check of each mode, and the four checks of a cluster in their order. -/
theorem payloadIsChecked : Obligations.PayloadIsChecked := by
  intro s ev c idx w hres hpc hlen
  refine ⟨fun hmode hbad => ?raw, fun hmode hodd => ?scope, fun hmode hshort => ?medians,
    fun hmode r cs hclusters hr => ?clusters⟩
  case raw =>
    have hbody := channelBody_of_raw (m := s.mem) (w := w) (idx := idx) (c := c) hmode
    rw [rawBody, if_pos (by omega)] at hbody
    exact exec_decSamples_of_bodyError hres hpc hbody
  case scope =>
    have hbody : channelBody s.mem ev.mode w idx c = scopeBody s.mem idx c := by rw [hmode]; rfl
    rw [scopeBody, if_pos (by omega)] at hbody
    exact exec_decSamples_of_bodyError hres hpc hbody
  case medians =>
    have hbody : channelBody s.mem ev.mode w idx c = .error (payloadCorrupt c.off idx 7 c.len) := by
      rw [hmode, channelBody, zeroSuppressedBody, if_pos rfl, if_pos (by omega)]
    exact exec_decSamples_of_bodyError hres hpc hbody
  case clusters =>
    have fails := fun {e} => exec_decSamples_of_clusterError (e := e) hres hpc hmode hclusters hr
    exact ⟨fun h => fails (walkClusters_of_noHeader hr h), fun hfit h => fails (walkClusters_of_noWidth hr hfit h),
      fun hfit hw h => fails (walkClusters_of_pastStrips hr hfit hw h),
      fun hfit hw hstrips h => fails (walkClusters_of_pastEnd hr hfit hw hstrips h)⟩

end Sys2Proof.Machine
end

section
/-! NOP and the buffer utilities (44_encoder.md R370-R372): where the words of a swapped or copied buffer come from. -/

namespace Sys2Proof.Machine

/-- Settles O9: NOP commits the state it finds. -/
theorem nopOnlyCompletes : Obligations.NopOnlyCompletes := fun _ => exec_eq_success .nop

/-! ## Words of a buffer that is stored to -/

theorem Memory.word_storeWords_of_ge {m : Memory} {a i : Nat} {ws : List Word} (h : ws.length ≤ i) :
    Memory.word (Memory.storeWords m a ws) (a + 4 * i) = Memory.word m (a + 4 * i) := by
  have outside : ∀ j, Memory.read (Memory.storeWords m a ws) (a + 4 * i + j) = Memory.read m (a + 4 * i + j) :=
    fun j => Memory.read_storeWords_outside (.inr (by omega))
  have outside0 := outside 0
  rw [Nat.add_zero] at outside0
  rw [Memory.word, Memory.word, outside, outside, outside, outside0]

/-- A lane of a word is a byte of its list of bytes (20_memory.md R103). -/
theorem getD_wordBytes (w : Word) {j : Nat} (hj : j < 4) : (wordBytes w).getD j 0 = w.extractLsb' (8 * j) 8 := by
  interval_cases j <;> rfl

/-- Words read from an address and stored back there read as the bytes they came from. -/
theorem Memory.read_storeWords_words (m n : Memory) (a k : Nat) {b : Nat} (h : a ≤ b ∧ b < a + 4 * k) :
    Memory.read (Memory.storeWords m a (Memory.words n a k)) b = Memory.read n b := by
  obtain ⟨i, j, hi, hj, rfl⟩ : ∃ i j, i < k ∧ j < 4 ∧ b = a + 4 * i + j :=
    ⟨(b - a) / 4, (b - a) % 4, by omega, by omega, by omega⟩
  have hstored := Memory.read_store_four length_wordBytes m a (Memory.words n a k) (by simpa using hi) hj
  rw [Memory.getElem_words] at hstored
  exact hstored.trans ((getD_wordBytes _ hj).trans (Memory.extract_word n _ hj))

/-- The words at the address that a list of words was stored to. -/
theorem Memory.words_storeWords (m : Memory) (a : Nat) (ws : List Word) :
    Memory.words (Memory.storeWords m a ws) a ws.length = ws :=
  List.ext_getElem (by simp) fun i _ hi => (Memory.getElem_words ..).trans (Memory.word_storeWords m a ws hi)

/-! ## SWAP64 -/

theorem xor_one_eq (i : Nat) : i ^^^ 1 = if i % 2 = 0 then i + 1 else i - 1 := by
  rcases Nat.mod_two_eq_zero_or_one i with h | h
  · rw [if_pos h, Nat.xor_one_of_even (Nat.even_iff.2 h)]
  · rw [if_neg (by omega), Nat.xor_one_of_odd (Nat.odd_iff.2 h)]

/-- The word that stands at i after SWAP64 of n words (44_encoder.md R371). -/
theorem ramWord_swapBuffer (m : Memory) (r : Ram) (n i : Nat) :
    ramWord (swapBuffer m r n) r i = ramWord m r (if i < n / 2 * 2 then i ^^^ 1 else i) := by
  have hlen : (swapPairs (Memory.words m (ramBase r) n)).length = n := by simp
  by_cases hi : i < n
  · have hswapped := getElem?_swapPairs (Memory.words m (ramBase r) n) i
    rw [Memory.length_words, ← xor_one_eq, List.getElem?_eq_getElem (by omega)] at hswapped
    obtain ⟨hsource, hvalue⟩ := List.getElem?_eq_some_iff.1 hswapped.symm
    rw [Memory.getElem_words] at hvalue
    exact (Memory.word_storeWords m (ramBase r) _ (by omega)).trans hvalue.symm
  · rw [if_neg (by omega)]
    exact Memory.word_storeWords_of_ge (by omega)

/-- SWAP64 of words that the buffer holds writes nothing outside it (44_encoder.md R371). -/
theorem read_swapBuffer_outside {m : Memory} {r : Ram} {n a : Nat} (hn : n ≤ ramEntries r) (ha : ¬ inRam r a) :
    Memory.read (swapBuffer m r n) a = Memory.read m a := by
  by_contra hne
  exact ha (inRam_of_storeWords_ne (by rwa [length_swapPairs, Memory.length_words]) hne)

/-- The second swap finds the words that the first one stored, and stores them back as they were. -/
theorem swapBuffer_swapBuffer {m : Memory} (h : Memory.wf m) (r : Ram) (n : Nat) :
    swapBuffer (swapBuffer m r n) r n = m := by
  have hwords := Memory.words_storeWords m (ramBase r) (swapPairs (Memory.words m (ramBase r) n))
  rw [length_swapPairs, Memory.length_words] at hwords
  have hback : swapBuffer (swapBuffer m r n) r n =
      Memory.storeWords (swapBuffer m r n) (ramBase r) (Memory.words m (ramBase r) n) := by
    rw [swapBuffer, swapBuffer, hwords, swapPairs_swapPairs]
  rw [hback]
  refine Memory.ext_of_wf (Memory.wf_storeWords (Memory.wf_storeWords h _ _) _ _) h fun a => ?_
  by_cases ha : ramBase r ≤ a ∧ a < ramBase r + 4 * n
  · exact Memory.read_storeWords_words _ m _ _ ha
  · rw [Memory.read_storeWords_outside (by simp; omega), swapBuffer, Memory.read_storeWords_outside (by simp; omega)]

theorem exec_swap64_ibuf_of_tooLong {s : State} (h : 16384 < s.decLen.toNat) :
    exec (.swap64 .ibuf) s = .next (Spec.failure s 0x31 0 0xFF 16384 s.decLen.toNat) := by
  have hlong : Config.ibufWords < s.decLen.toNat := h
  rw [exec, execSwap64, if_pos hlong]
  rfl

/-- Settles O47: each buffer's words are those of `swapBuffer`, and a length above IBUF's depth is refused. -/
theorem swap64ExchangesWordPairs : Obligations.Swap64ExchangesWordPairs := by
  intro s
  refine ⟨fun hlen => ?ibuf, exec_swap64_ibuf_of_tooLong, fun hlen => ?obuf⟩
  case ibuf =>
    exact ⟨_, exec_eq_success (.swapIbuf hlen), ⟨fun i _ => ramWord_swapBuffer s.mem .ibuf _ i,
      fun a ha => read_swapBuffer_outside hlen ha⟩, rfl⟩
  case obuf =>
    have hcommits := Commits.swapObuf (s := s)
    have hmin : min s.enc.len.toNat Config.obufWords = s.enc.len.toNat := Nat.min_eq_left hlen
    rw [hmin] at hcommits
    exact ⟨_, exec_eq_success hcommits, ⟨fun i _ => ramWord_swapBuffer s.mem .obuf _ i,
      fun a ha => read_swapBuffer_outside hlen ha⟩, rfl⟩

/-- What SWAP64 leaves in memory, and that a second one finds the same lengths (44_encoder.md R371). -/
theorem exec_swap64_mem {tgt : SwapTarget} {s t : State} (h : exec (.swap64 tgt) s = .next t) :
    t.decLen = s.decLen ∧ t.enc = s.enc ∧
      (tgt = .ibuf → t.mem = if 16384 < s.decLen.toNat then s.mem else swapBuffer s.mem .ibuf s.decLen.toNat) ∧
      (tgt = .obuf → t.mem = swapBuffer s.mem .obuf (min s.enc.len.toNat 16384)) := by
  cases tgt with
  | ibuf =>
    by_cases hlong : 16384 < s.decLen.toNat
    · obtain rfl := Host.Outcome.next.inj ((exec_swap64_ibuf_of_tooLong hlong).symm.trans h)
      exact ⟨rfl, rfl, fun _ => (if_pos hlong).symm, nofun⟩
    · obtain rfl := Host.Outcome.next.inj ((exec_eq_success (.swapIbuf (Nat.not_lt.1 hlong))).symm.trans h)
      exact ⟨rfl, rfl, fun _ => (if_neg hlong).symm, nofun⟩
  | obuf =>
    obtain rfl := Host.Outcome.next.inj ((exec_eq_success .swapObuf).symm.trans h)
    exact ⟨rfl, rfl, nofun, fun _ => rfl⟩

/-- Settles O48: both commands swap the same words of the same buffer, or both refuse. -/
theorem swap64TwiceRestores : Obligations.Swap64TwiceRestores := by
  intro s t u tgt hwf ht hu
  obtain ⟨hdecLen, henc, htIbuf, htObuf⟩ := exec_swap64_mem ht
  obtain ⟨-, -, huIbuf, huObuf⟩ := exec_swap64_mem hu
  cases tgt with
  | ibuf =>
    rw [huIbuf rfl, htIbuf rfl, hdecLen]
    split
    · rfl
    · exact swapBuffer_swapBuffer hwf _ _
  | obuf =>
    rw [huObuf rfl, htObuf rfl, henc]
    exact swapBuffer_swapBuffer hwf _ _

/-! ## COPY_O2I -/

/-- The words that COPY_O2I copies (44_encoder.md R372). -/
theorem ramWord_copied (m : Memory) {n i : Nat} (hi : i < n) :
    ramWord (Memory.storeWords m (ramBase .ibuf) (Memory.words m (ramBase .obuf) n)) .ibuf i = ramWord m .obuf i :=
  (Memory.word_storeWords m (ramBase .ibuf) _ (by simpa using hi)).trans (Memory.getElem_words ..)

/-- Settles O49: the commit is one store of the words read from OBUF. -/
theorem copyO2iCopiesTheEvent : Obligations.CopyO2iCopiesTheEvent := by
  intro s
  refine ⟨fun hlen => ⟨_, exec_eq_success (.copyO2i hlen), fun i hi => ramWord_copied s.mem hi, fun a ha => ?_, rfl⟩,
    fun hlong => ?refused⟩
  · exact Memory.read_storeWords_outside (by rwa [Memory.length_words])
  case refused =>
    have hpast : Config.ibufWords < s.enc.len.toNat := hlong
    rw [exec, execCopyO2i, if_pos hpast]
    rfl

end Sys2Proof.Machine
end

section
/-! Cluster finding on any list of strips, and the configuration checks of ENC_BUILD (44_encoder.md R342, R349). -/

namespace Sys2Proof.Machine

/-! ## Cluster finding -/

/-- A list is its values at the positions below its length. -/
theorem map_getD_range' (xs : List Half) : (List.range' 0 xs.length).map (fun k => xs.getD k 0) = xs :=
  List.ext_getElem (by simp) fun i _ hi => by simp [hi]

/-- A run of values is the part of the list where the run stands. -/
theorem runValues_getD_eq_take {xs : List Half} {r : Nat × Nat} (h : r.1 + r.2 ≤ xs.length) :
    (runValues (fun k => xs.getD k 0) r).2 = (xs.drop r.1).take r.2 :=
  List.ext_getElem (by simp [runValues]; omega) fun i hi _ => by
    have hi : i < r.2 := by simpa [runValues] using hi
    simp [runValues, show r.1 + i < xs.length by omega]

/-- A strip of the list above the threshold, as the obligation says it (44_encoder.md R349). -/
theorem aboveIn_getD_iff {threshold : Nat} {xs : List Half} {k : Nat} :
    aboveIn threshold (fun k => xs.getD k 0) 0 (0 + xs.length) k ↔
      ∃ h : k < xs.length, threshold < min xs[k].toNat 1023 := by
  rw [aboveIn, Nat.zero_add]
  refine ⟨fun ⟨_, hk, h⟩ => ⟨hk, ?_⟩, fun ⟨hk, h⟩ => ⟨Nat.zero_le k, hk, ?_⟩⟩
  · simpa [aboveThreshold, clampStrip, hk] using h
  · simpa [aboveThreshold, clampStrip, hk] using h

/-- Settles O43: `findRuns` finds the maximal runs of the list's positions, and a run's values are the list's there. -/
theorem clusterFindingGivesTheMaximalRuns : Obligations.ClusterFindingGivesTheMaximalRuns := by
  intro threshold strips
  obtain ⟨runs, hruns, hfind⟩ := (findRuns_finds threshold (fun k => strips.getD k 0) strips.length 0).1
  rw [map_getD_range'] at hfind
  have hpositions : (runs.map (runValues fun k => strips.getD k 0)).map (fun r => (r.1, r.2.length)) = runs := by
    simp [runValues, Function.comp_def]
  have hinside : ∀ r ∈ runs, r.1 + r.2 ≤ strips.length := fun r hr => by
    obtain ⟨hpos, hin⟩ := hruns.inside r hr
    obtain ⟨-, hlast, -⟩ := hin (r.2 - 1) (by omega)
    omega
  simp only [hfind, hpositions]
  refine ⟨(funext fun k => propext aboveIn_getD_iff : aboveIn _ _ _ _ = _) ▸ hruns, fun r hr => ?values⟩
  case values =>
    obtain ⟨q, hq, rfl⟩ := List.mem_map.1 hr
    rw [show (runValues (fun k => strips.getD k 0) q).2.length = q.2 by simp [runValues]]
    exact runValues_getD_eq_take (hinside q hq)

/-! ## The configuration checks -/

/-- A failing ENC_BUILD (60_exceptions.md R405). -/
theorem exec_encBuild_of_error {s : State} {e : CommandError} (h : encoderConfig s.enc = .error e) :
    exec .encBuild s = .next (Spec.failure (Spec.failureWrites .encBuild s) (errorCode e.name) e.offset e.channel
      e.expected e.actual) := by
  simp only [exec, execEncBuild, buildEvent, h]
  rfl

/-- Scope has the STD packet code alone (30_encoding.md R180). -/
theorem packetCode_scope_of_ne {w : Width} (h : w ≠ .std) : packetCode .scope w = none := by
  cases w with
  | std => exact absurd rfl h
  | _ => rfl

theorem widthOfCode_ne_std {n : Nat} (h : n ≠ 0) : widthOfCode n ≠ .std := by
  rcases n with _ | _ | _ | n
  · exact absurd rfl h
  all_goals nofun

/-- Settles O42: a reserved MODE stops at the first check, a Scope width other than STD at the second. -/
theorem encBuildRefusesBadConfiguration : Obligations.EncBuildRefusesBadConfiguration := by
  refine fun s => ⟨fun hmode => ?mode, fun hmode hwidth => ?width⟩
  case mode =>
    have hconfig : encoderConfig s.enc = .error (bufferError .configInvalid 4 (field s.enc.cfg0 12 3)) := by
      simp only [encoderConfig, modeOfCode_of_ge (n := field s.enc.cfg0 12 3) hmode]
      rfl
    exact exec_encBuild_of_error hconfig
  case width =>
    have hscope : modeOfCode (field s.enc.cfg0 12 3) = some .scope := congrArg modeOfCode hmode
    have hconfig : encoderConfig s.enc = .error (bufferError .configInvalid 0 (field s.enc.cfg0 16 2)) := by
      simp only [encoderConfig, hscope, packetCode_scope_of_ne (widthOfCode_ne_std (n := field s.enc.cfg0 16 2) hwidth)]
      rfl
    exact exec_encBuild_of_error hconfig

end Sys2Proof.Machine
end

section
/-! Lists of bytes in IBUF: what a list that stands at a logical offset says of the fields, words and pieces in it
(20_memory.md R104; 30_encoding.md R149-R151). -/

namespace Sys2Proof.Machine

/-- The logical bytes of IBUF from offset o on are these. -/
def IbufHolds (m : Memory) (o : Nat) (bytes : List Byte) : Prop :=
  ∀ j < bytes.length, logicalByte m (o + j) = bytes.getD j 0

section
variable {m : Memory} {o : Nat}

theorem ibufHolds_append {xs ys : List Byte} :
    IbufHolds m o (xs ++ ys) ↔ IbufHolds m o xs ∧ IbufHolds m (o + xs.length) ys := by
  refine ⟨fun h => ⟨fun j hj => ?_, fun j hj => ?_⟩, fun ⟨hx, hy⟩ j hj => ?_⟩
  · rw [h j (by rw [List.length_append]; omega), List.getD_append _ _ _ _ hj]
  · rw [Nat.add_assoc, h _ (by rw [List.length_append]; omega), List.getD_append_right _ _ _ _ (Nat.le_add_right _ _),
      Nat.add_sub_cancel_left]
  · rw [List.length_append] at hj
    by_cases hin : j < xs.length
    · rw [hx j hin, List.getD_append _ _ _ _ hin]
    · have hrest := hy (j - xs.length) (by omega)
      rwa [Nat.add_assoc, Nat.add_sub_cancel' (Nat.not_lt.1 hin),
        ← List.getD_append_right _ _ _ _ (Nat.not_lt.1 hin)] at hrest

theorem ibufHolds_cons {b : Byte} {bs : List Byte} :
    IbufHolds m o (b :: bs) ↔ logicalByte m o = b ∧ IbufHolds m (o + 1) bs := by
  rw [← List.singleton_append, ibufHolds_append, List.length_singleton]
  refine and_congr_left' ⟨fun h => h 0 (by simp), fun h j hj => ?_⟩
  obtain rfl : j = 0 := by simpa using hj
  exact h

/-- Where piece k starts when the pieces have these lengths. -/
def offsetOf (length : Nat → Nat) (k : Nat) : Nat := ((List.range k).map length).sum

@[simp] theorem offsetOf_zero (length : Nat → Nat) : offsetOf length 0 = 0 := rfl

theorem offsetOf_succ (length : Nat → Nat) (k : Nat) : offsetOf length (k + 1) = offsetOf length k + length k := by
  simp [offsetOf, List.range_succ]

theorem offsetOf_le (length : Nat → Nat) {j k : Nat} (h : j ≤ k) : offsetOf length j ≤ offsetOf length k := by
  induction h with
  | refl => exact Nat.le_refl _
  | step _ ih =>
    rw [offsetOf_succ]
    omega

theorem offsetOf_const (n k : Nat) : offsetOf (fun _ => n) k = n * k := by
  simp [offsetOf, Nat.mul_comm]

/-- One of the pieces of a list that stands in IBUF. -/
theorem IbufHolds.piece {f : Nat → List Byte} {n : Nat} (h : IbufHolds m o ((List.range n).flatMap f)) {k : Nat} (hk : k < n) :
    IbufHolds m (o + offsetOf (fun i => (f i).length) k) (f k) := by
  induction n with
  | zero => exact absurd hk (Nat.not_lt_zero k)
  | succ n ih =>
    rw [List.range_succ, List.flatMap_append, ibufHolds_append, List.length_flatMap, List.flatMap_singleton] at h
    obtain ⟨hfirst, hlast⟩ := h
    rcases Nat.lt_succ_iff_lt_or_eq.1 hk with hlt | rfl
    · exact ih hfirst hlt
    · exact hlast

/-- A little-endian field (30_encoding.md R149). -/
theorem IbufHolds.channelLength {n : Nat} (h : IbufHolds m o (le16 n)) (hn : n < 2 ^ 16) : Spec.channelLength m o = n := by
  rw [le16_eq_littleEndian] at h
  have hlow : logicalByte m o = BitVec.ofNat 8 n := h 0 (Nat.succ_pos 1)
  have hhigh : logicalByte m (o + 1) = BitVec.ofNat 8 (n / 256) := h 1 (Nat.lt_succ_self 1)
  rw [Spec.channelLength, hlow, hhigh, BitVec.toNat_ofNat, BitVec.toNat_ofNat]
  omega

/-- Four bytes that are neighbours in a 64-bit word (20_memory.md R105). -/
theorem be32_eq_extract {v : DWord} {k : Nat} (h0 : logicalByte m o = v.extractLsb' (k + 24) 8)
    (h1 : logicalByte m (o + 1) = v.extractLsb' (k + 16) 8) (h2 : logicalByte m (o + 2) = v.extractLsb' (k + 8) 8)
    (h3 : logicalByte m (o + 3) = v.extractLsb' k 8) : be32 m o = v.extractLsb' k 32 := by
  rw [be32, u16be, u16be, h0, h1, h2, h3,
    BitVec.extractLsb'_append_extractLsb'_eq_extractLsb' (by rfl : k + 24 = k + 16 + 8),
    BitVec.extractLsb'_append_extractLsb'_eq_extractLsb' (by rfl : k + 8 = k + 8),
    BitVec.extractLsb'_append_extractLsb'_eq_extractLsb' (by rfl : k + 16 = k + 16)]

/-- A header or trailer word in Standard order (30_encoding.md R150, R151). -/
theorem IbufHolds.rd64 {v : DWord} (h : IbufHolds m o (dwordBytes v)) : rd64 m o .standard = v := by
  have byte (j : Nat) (hj : j < 8) : logicalByte m (o + j) = v.extractLsb' (56 - 8 * j) 8 := by
    rw [h j (by rwa [length_dwordBytes]), getD_dwordBytes v hj]
  have high : be32 m o = v.extractLsb' 32 32 :=
    be32_eq_extract (byte 0 (by decide)) (byte 1 (by decide)) (byte 2 (by decide)) (byte 3 (by decide))
  have low : be32 m (o + 4) = v.extractLsb' 0 32 :=
    be32_eq_extract (byte 4 (by decide)) (byte 5 (by decide)) (byte 6 (by decide)) (byte 7 (by decide))
  rw [Machine.rd64, high, low]
  exact dfield_append_dfield v

end

end Sys2Proof.Machine
end

section
/-! An encoded event, copied to IBUF, the Slink64 swap undone (44_encoder.md R355, R371, R372): the state it leaves, and its bytes
in IBUF. -/

namespace Sys2Proof.Machine

/-- What DEC_CFG is written with for an encoded event (44_encoder.md R355). -/
def eventDecCfg (s : State) (skipCrc : Bool) (extEnable : BitVec 8) :
    BitVec (16 + 8 + 1 + 3 + 1 + 1 + 1 + 1) :=
  (0 : BitVec 16) ++ extEnable ++ (0 : BitVec 1) ++ s.enc.cfg0.extractLsb' 12 3 ++ BitVec.ofBool skipCrc ++ (0 : BitVec 1) ++
    s.enc.cfg0.extractLsb' 15 1 ++ (0 : BitVec 1)

/-- The state `u` after the event of `s` was built, copied and unswapped. -/
structure CopiedEvent (s u : State) (mode : DaqMode) (w : Width) (pc : Byte) (skipCrc : Bool) (extEnable : BitVec 8) : Prop where
  decCfg : u.decCfg = eventDecCfg s skipCrc extEnable
  decLen : u.decLen = u.enc.len
  encLen : 4 * u.enc.len.toNat = (encodedEvent s mode w pc).length + 8
  encCrc : u.enc.crc = encodedCrc s mode w pc
  word : ∀ i < u.enc.len.toNat, ramWord u.mem .ibuf i = Spec.eventWord s (builtState s mode w pc) i

/-- ENC_LEN counts the words of the event (44_encoder.md R352). -/
theorem builtState_encLen (s : State) (mode : DaqMode) (w : Width) (pc : Byte) :
    4 * (builtState s mode w pc).enc.len.toNat = (encodedEvent s mode w pc).length + 8 := by
  have h8 := encodedEvent_mod_eight s mode w pc
  have hle := encodedEvent_le s mode w pc
  have hlen : (builtState s mode w pc).enc.len = BitVec.ofNat 32 (((encodedEvent s mode w pc).length + 8) / 4) := rfl
  rw [hlen, BitVec.toNat_ofNat]
  omega

theorem builtState_encCrc (s : State) (mode : DaqMode) (w : Width) (pc : Byte) :
    (builtState s mode w pc).enc.crc = encodedCrc s mode w pc := by
  rw [builtState, complete_enc, commitBuild_enc, encodedCrc]

/-- What COPY_O2I leaves of an event that IBUF can hold (44_encoder.md R372). -/
theorem exec_copyO2i_fields {s t : State} (hfit : s.enc.len.toNat ≤ 16384) (h : exec .copyO2i s = .next t) :
    t.decLen = s.enc.len ∧ t.enc = s.enc ∧ ∀ i < s.enc.len.toNat, ramWord t.mem .ibuf i = ramWord s.mem .obuf i := by
  obtain rfl := Host.Outcome.next.inj ((exec_eq_success (.copyO2i hfit)).symm.trans h)
  exact ⟨rfl, rfl, fun i hi => ramWord_copied s.mem hi⟩

/-- The Slink64 word swap of a copied event undone, where it was applied (44_encoder.md R355, R371). -/
theorem ramWord_unswapped {t v : State} {slink : Bool} (hfit : t.decLen.toNat ≤ 16384) (heven : t.decLen.toNat % 2 = 0)
    (h : if slink then exec (.swap64 .ibuf) t = .next v else v = t) :
    v.decLen = t.decLen ∧ v.enc = t.enc ∧
      ∀ i < t.decLen.toNat, ramWord v.mem .ibuf i = ramWord t.mem .ibuf (if slink then i ^^^ 1 else i) := by
  cases slink with
  | false =>
    obtain rfl := (if_neg Bool.false_ne_true).mp h
    exact ⟨rfl, rfl, fun _ _ => rfl⟩
  | true =>
    obtain ⟨hdecLen, henc, hmem, -⟩ := exec_swap64_mem ((if_pos rfl).mp h)
    rw [if_neg (Nat.not_lt.2 hfit)] at hmem
    refine ⟨hdecLen, henc, fun i hi => ?_⟩
    rw [hmem rfl, ramWord_swapBuffer, if_pos (by omega), if_pos rfl]

/-- The commands of `Spec.encodedAndCopied` all succeed and leave the event's words in IBUF. -/
theorem copiedEvent_of_encodedAndCopied {s u : State} {mode : DaqMode} {w : Width} {pc : Byte} {skipCrc : Bool}
    {extEnable : BitVec 8} (hconfig : encoderConfig s.enc = .ok (encoderFields s.enc mode w, pc))
    (h : Spec.encodedAndCopied s u skipCrc extEnable) : CopiedEvent s u mode w pc skipCrc extEnable := by
  obtain ⟨t1, t2, t3, hbuild, hcopy, hswap, rfl⟩ := h
  obtain rfl := Host.Outcome.next.inj ((exec_encBuild hconfig).symm.trans hbuild)
  have h8 := encodedEvent_mod_eight s mode w pc
  have hle := encodedEvent_le s mode w pc
  have hlen := builtState_encLen s mode w pc
  obtain ⟨hdecLen, henc, hword⟩ := exec_copyO2i_fields (by omega) hcopy
  rw [← hdecLen] at hlen hword
  obtain ⟨hdecLen', henc', hword'⟩ := ramWord_unswapped (by omega) (by omega) hswap
  have hencLen : t3.enc.len = t2.decLen := by rw [henc', henc, hdecLen]
  refine CopiedEvent.mk ?_ ?_ ?_ ?_ fun i hi => ?_
  · rfl
  · exact hdecLen'.trans hencLen.symm
  · rw [← hlen, ← hencLen]
  · rw [← builtState_encCrc, ← henc, ← henc']
  · change i < t3.enc.len.toNat at hi
    rw [hencLen] at hi
    refine (hword' i hi).trans (hword _ ?_)
    split
    · exact xor_one_lt (by omega) hi
    · exact hi

theorem exists_encodedAndCopied (s : State) (skipCrc : Bool) (extEnable : BitVec 8) :
    ∃ u, Spec.encodedAndCopied s u skipCrc extEnable := by
  obtain ⟨t1, hbuild⟩ := exec_next .encBuild s
  obtain ⟨t2, hcopy⟩ := exec_next .copyO2i t1
  by_cases hslink : s.enc.cfg0.getLsbD 18 = true
  · obtain ⟨t3, hswap⟩ := exec_next (.swap64 .ibuf) t2
    exact ⟨_, t1, t2, t3, hbuild, hcopy, by rwa [if_pos hslink], rfl⟩
  · exact ⟨_, t1, t2, t2, hbuild, hcopy, by rw [if_neg hslink], rfl⟩

section
variable {s u : State} {mode : DaqMode} {w : Width} {pc : Byte} {skipCrc : Bool} {extEnable : BitVec 8}

/-- The logical bytes of IBUF are those of the event that ENC_BUILD left in OBUF. -/
theorem CopiedEvent.byte (h : CopiedEvent s u mode w pc skipCrc extEnable) {q : Nat}
    (hq : q < (encodedEvent s mode w pc).length + 8) : logicalByte u.mem q = Spec.eventByte s (builtState s mode w pc) q := by
  have hle := encodedEvent_le s mode w pc
  have hlen := h.encLen
  rw [logicalByte_eq_extract_ramWord u.mem (by omega), h.word _ (by omega)]
  rfl

theorem CopiedEvent.holds (h : CopiedEvent s u mode w pc skipCrc extEnable) :
    IbufHolds u.mem 0 (finishedBytes (encoderFields s.enc mode w) (encodedEvent s mode w pc)) := by
  have h8 := encodedEvent_mod_eight s mode w pc
  have hlen := length_finishedBytes (encoderFields s.enc mode w) (encodedEvent s mode w pc)
  intro q hq
  rw [Nat.zero_add, h.byte (by omega)]
  exact (holdsEvent_builtState s mode w pc).eventByte (by omega) hq

/-- The CRC that DEC_CHECK takes of the copied event is the one that ENC_BUILD took (41_crc.md R242). -/
theorem CopiedEvent.crc (h : CopiedEvent s u mode w pc skipCrc extEnable) :
    eventCrc u.mem (encodedEvent s mode w pc).length .standard = encodedCrc s mode w pc := by
  have h8 := encodedEvent_mod_eight s mode w pc
  have hmasked : maskedEventBytes u.mem (encodedEvent s mode w pc).length .standard =
      encodedEvent s mode w pc ++
        dwordBytes (trailerWord (encoderFields s.enc mode w) ((encodedEvent s mode w pc).length + 8) 0) := by
    rw [← (holdsEvent_builtState s mode w pc).maskedBytes (by omega)]
    refine List.map_congr_left fun i hi => ?_
    rw [h.byte (List.mem_range.1 hi)]
    exact if_congr (by rw [crcFieldOffset]; omega) rfl rfl
  rw [eventCrc, hmasked, encodedCrc, finishEvent_crc]

end

/-! ## The fields of DEC_CFG -/

section
variable (s : State) (skipCrc : Bool) (extEnable : BitVec 8)

theorem eventDecCfg_evfmt : (eventDecCfg s skipCrc extEnable).getLsbD 0 = false := by
  simp only [eventDecCfg, BitVec.getLsbD_append]
  simp

theorem eventDecCfg_hdrfmt : (eventDecCfg s skipCrc extEnable).getLsbD 1 = s.enc.cfg0.getLsbD 15 := by
  simp only [eventDecCfg, BitVec.getLsbD_append]
  simp

theorem eventDecCfg_legacy : (eventDecCfg s skipCrc extEnable).getLsbD 2 = false := by
  simp only [eventDecCfg, BitVec.getLsbD_append]
  simp

theorem eventDecCfg_skipCrc : (eventDecCfg s skipCrc extEnable).getLsbD 3 = skipCrc := by
  simp only [eventDecCfg, BitVec.getLsbD_append]
  simp

theorem eventDecCfg_mode : (eventDecCfg s skipCrc extEnable).extractLsb' 4 3 = s.enc.cfg0.extractLsb' 12 3 := by
  simp (disch := omega) only [eventDecCfg, BitVec.extractLsb'_append_eq_of_le, BitVec.extractLsb'_append_eq_of_add_le,
    Nat.reduceSub, BitVec.extractLsb'_eq_self]

end

end Sys2Proof.Machine
end

section
/-! The layout of an encoded event: where its parts lie, what they hold when the event stands in IBUF, and that DEC_PARSE's walk
finds them there (44_encoder.md R340-R351; 43_decoder.md R284-R288). -/

namespace Sys2Proof.Machine

/-! ## Offsets -/

section
variable (m : Memory) (c : EncoderConfig) (pc : Byte)

/-- The logical offset of the payload of unit u, and of the trailer for u = 8. -/
def unitOffset (u : Nat) : Nat := 16 + feHeaderSize c.hdrfmt + offsetOf (fun v => (encodedUnit m c pc v).length) u

/-- The logical offset of channel ch. -/
def channelOffset (ch : Nat) : Nat :=
  unitOffset m c pc (ch / 12) + offsetOf (fun k => (encodedChannel m c pc (12 * (ch / 12) + k)).length) (ch % 12)

theorem unitOffset_succ (u : Nat) : unitOffset m c pc (u + 1) = unitOffset m c pc u + (encodedUnit m c pc u).length := by
  rw [unitOffset, offsetOf_succ, ← Nat.add_assoc]
  rfl

theorem unitOffset_le {u v : Nat} (h : u ≤ v) : unitOffset m c pc u ≤ unitOffset m c pc v :=
  Nat.add_le_add_left (offsetOf_le _ h) _

theorem unitOffset_eight : unitOffset m c pc 8 = (eventBody c (encodedUnits m c pc)).length := (length_eventBody m c pc).symm

theorem channelOffset_add (u : Nat) {k : Nat} (hk : k < 12) :
    channelOffset m c pc (12 * u + k) =
      unitOffset m c pc u + offsetOf (fun k => (encodedChannel m c pc (12 * u + k)).length) k := by
  rw [channelOffset, show (12 * u + k) / 12 = u by omega, show (12 * u + k) % 12 = k by omega]

theorem channelOffset_first (u : Nat) : channelOffset m c pc (12 * u) = unitOffset m c pc u :=
  channelOffset_add m c pc u (k := 0) (by decide)

/-- Where channel k of unit u ends, counted from the unit's start. -/
theorem channelOffset_add_length (u : Nat) {k : Nat} (hk : k < 12) :
    channelOffset m c pc (12 * u + k) + (encodedChannel m c pc (12 * u + k)).length =
      unitOffset m c pc u + offsetOf (fun k => (encodedChannel m c pc (12 * u + k)).length) (k + 1) := by
  rw [channelOffset_add m c pc u hk, offsetOf_succ, Nat.add_assoc]

theorem length_unitChannels (u : Nat) :
    (unitChannels m c pc u).length = offsetOf (fun k => (encodedChannel m c pc (12 * u + k)).length) 12 :=
  List.length_flatMap

/-- The last channel ends where the unit's padding starts (44_encoder.md R350). -/
theorem channelOffset_last (u : Nat) :
    channelOffset m c pc (12 * u + 11) + (encodedChannel m c pc (12 * u + 11)).length =
      unitOffset m c pc u + (unitChannels m c pc u).length := by
  rw [channelOffset_add_length m c pc u (by decide), length_unitChannels]

/-- Every channel ends inside its unit. -/
theorem channelOffset_add_length_le (u : Nat) {k : Nat} (hk : k < 12) :
    channelOffset m c pc (12 * u + k) + (encodedChannel m c pc (12 * u + k)).length ≤ unitOffset m c pc (u + 1) := by
  have hpad := le_roundup8 (unitChannels m c pc u).length
  have hle := offsetOf_le (fun k => (encodedChannel m c pc (12 * u + k)).length) (show k + 1 ≤ 12 from hk)
  rw [channelOffset_add_length m c pc u hk, unitOffset_succ, length_encodedUnit]
  rw [length_unitChannels] at hpad ⊢
  omega

theorem length_encodedChannel_bounds (ch : Nat) :
    3 ≤ (encodedChannel m c pc ch).length ∧ (encodedChannel m c pc ch).length < 2 ^ 16 := by
  have hbody := length_encodedBody_le m c ch
  rw [length_encodedChannel]
  omega

theorem length_encodedUnit_lt (u : Nat) : (encodedUnit m c pc u).length < 2 ^ 16 :=
  Nat.lt_of_le_of_lt (length_encodedUnit_le (length_encodedBody_le m c) pc u) (by decide)

end

/-! ## The parts of a held event -/

/-- The TSH of an encoded event enables every unit (44_encoder.md R343). -/
theorem getLsbD_allUnits {u : Nat} (hu : u < 8) : (0xFF : BitVec 8).getLsbD u = true :=
  (by decide : ∀ u < 8, (0xFF : BitVec 8).getLsbD u = true) u hu

/-- The CRC of the event (44_encoder.md R351). -/
def builtCrc (m : Memory) (c : EncoderConfig) (pc : Byte) : Half := (finishEvent c (eventBody c (encodedUnits m c pc))).crc

theorem encodedCrc_eq_builtCrc (s : State) (mode : DaqMode) (w : Width) (pc : Byte) :
    encodedCrc s mode w pc = builtCrc s.mem (encoderFields s.enc mode w) pc := rfl

/-- IBUF of `n` holds, from logical offset 0 on, the event of configuration `c` with the strips and medians of `m`. -/
structure HeldEvent (n m : Memory) (c : EncoderConfig) (pc : Byte) : Prop where
  daqHeader : rd64 n 0 .standard = daqHeader c
  trackerHeader : rd64 n 8 .standard = trackerHeader c
  feHeaders : IbufHolds n 16 (feHeaderRegion c.hdrfmt ((encodedUnits m c pc).map List.length))
  unit : ∀ u < 8, IbufHolds n (unitOffset m c pc u) (encodedUnit m c pc u)
  trailer : rd64 n (unitOffset m c pc 8) .standard =
    trailerWord c (unitOffset m c pc 8 + 8) (builtCrc m c pc)

section
variable {n m : Memory} {c : EncoderConfig} {pc : Byte}

theorem heldEvent_of_ibufHolds (h : IbufHolds n 0 (finishedBytes c (eventBody c (encodedUnits m c pc)))) :
    HeldEvent n m c pc := by
  have hfe : (feHeaderRegion c.hdrfmt ((encodedUnits m c pc).map List.length)).length = feHeaderSize c.hdrfmt :=
    length_feHeaderRegion _ _ (by simp [encodedUnits])
  obtain ⟨hbody, htrailer⟩ := ibufHolds_append.1 h
  rw [Nat.zero_add, ← unitOffset_eight] at htrailer
  obtain ⟨hbody, hunits⟩ := ibufHolds_append.1 hbody
  obtain ⟨hbody, hheaders⟩ := ibufHolds_append.1 hbody
  obtain ⟨hdaq, htsh⟩ := ibufHolds_append.1 hbody
  simp only [List.length_append, length_dwordBytes, hfe, Nat.zero_add] at htsh hheaders hunits
  refine ⟨hdaq.rd64, htsh.rd64, hheaders, fun u hu => ?_, htrailer.rd64⟩
  exact IbufHolds.piece (f := encodedUnit m c pc) hunits hu

variable (h : HeldEvent n m c pc)
include h

theorem HeldEvent.channel {ch : Nat} (hch : ch < 96) :
    IbufHolds n (channelOffset m c pc ch) (encodedChannel m c pc ch) := by
  obtain ⟨u, k, hu, hk, rfl⟩ : ∃ u k, u < 8 ∧ k < 12 ∧ ch = 12 * u + k :=
    ⟨ch / 12, ch % 12, by omega, by omega, by omega⟩
  rw [channelOffset_add m c pc u hk]
  exact (ibufHolds_append.1 (h.unit u hu)).1.piece hk

/-- The length field of a channel (44_encoder.md R346). -/
theorem HeldEvent.channelLength {ch : Nat} (hch : ch < 96) :
    Spec.channelLength n (channelOffset m c pc ch) = (encodedChannel m c pc ch).length := by
  obtain ⟨hhead, -⟩ := ibufHolds_append.1 (h.channel hch)
  obtain ⟨hlen, -⟩ := ibufHolds_append.1 hhead
  rw [length_encodedChannel]
  refine hlen.channelLength ?_
  rw [← length_encodedChannel m c pc]
  exact (length_encodedChannel_bounds m c pc ch).2

/-- The packet code byte of a channel (44_encoder.md R346). -/
theorem HeldEvent.packetCode {ch : Nat} (hch : ch < 96) : logicalByte n (channelOffset m c pc ch + 2) = pc := by
  obtain ⟨hhead, -⟩ := ibufHolds_append.1 (h.channel hch)
  obtain ⟨-, hcode⟩ := ibufHolds_append.1 hhead
  exact (ibufHolds_cons.1 hcode).1

theorem HeldEvent.body {ch : Nat} (hch : ch < 96) :
    IbufHolds n (channelOffset m c pc ch + 3) (encodedBody m c ch) :=
  (ibufHolds_append.1 (h.channel hch)).2

/-- The FullDebug header of a unit: statuses, majority address, reserved word, recorded length (44_encoder.md R344, R350). -/
theorem HeldEvent.feHeader (hfmt : c.hdrfmt = .fullDebug) {u : Nat} (hu : u < 8) :
    IbufHolds n (16 + 16 * u) (List.replicate 9 (0xFF : Byte) ++ ([0x00] ++ (List.replicate 4 (0 : Byte) ++
      le16 (encodedUnit m c pc u).length))) := by
  have hregion := h.feHeaders
  simp only [hfmt, feHeaderRegion, encodedUnits, List.map_map, List.flatMap_map] at hregion
  have hpiece := hregion.piece hu
  simp only [List.length_append, List.length_replicate, length_le16, List.length_cons, List.length_nil, offsetOf_const,
    List.append_assoc] at hpiece
  exact hpiece

theorem HeldEvent.recordedLength (hfmt : c.hdrfmt = .fullDebug) {u : Nat} (hu : u < 8) :
    Spec.channelLength n (16 + 16 * u + 14) = (encodedUnit m c pc u).length := by
  obtain ⟨-, hrest⟩ := ibufHolds_append.1 (h.feHeader hfmt hu)
  obtain ⟨-, hrest⟩ := ibufHolds_append.1 hrest
  obtain ⟨-, hlen⟩ := ibufHolds_append.1 hrest
  exact hlen.channelLength (length_encodedUnit_lt m c pc u)

/-! ## The walk -/

/-- DEC_PARSE's walk of the event, all units enabled (43_decoder.md R284, R287, R288). -/
theorem HeldEvent.parseWalk {nb : Nat} (hnb : unitOffset m c pc 8 ≤ nb) :
    Spec.ParseWalk n c.hdrfmt 0xFF nb 16 (unitOffset m c pc) (channelOffset m c pc) 8 := by
  have hlength : ∀ u < 8, ∀ k < 12, Spec.channelLength n (channelOffset m c pc (12 * u + k)) =
      (encodedChannel m c pc (12 * u + k)).length := fun u hu k hk => h.channelLength (by omega)
  have hend : ∀ u < 8, channelOffset m c pc (12 * u + 11) + Spec.channelLength n (channelOffset m c pc (12 * u + 11)) =
      unitOffset m c pc u + (unitChannels m c pc u).length := fun u hu => by
    rw [hlength u hu 11 (by decide), channelOffset_last]
  have hsucc : ∀ u, unitOffset m c pc (u + 1) = unitOffset m c pc u + roundup8 (unitChannels m c pc u).length := fun u => by
    rw [unitOffset_succ, length_encodedUnit]
  refine { start := ?start, skipped := ?skipped, first := ?first, next := ?next, fits := ?fits, fullDebug := ?fullDebug,
           apvError := ?apvError }
  case start => rw [← feHeaderSize_eq]; rfl
  case skipped =>
    intro u hu hoff
    exact absurd ((getLsbD_allUnits hu).symm.trans hoff) nofun
  case first => exact fun u _ _ => channelOffset_first m c pc u
  case next =>
    intro u hu _ k hk
    rw [hlength u hu k (by omega), channelOffset_add_length m c pc u (by omega), Nat.add_assoc,
      channelOffset_add m c pc u (by omega)]
  case fits =>
    intro u hu _ k hk
    rw [hlength u hu k hk]
    exact ⟨(length_encodedChannel_bounds m c pc _).1,
      (channelOffset_add_length_le m c pc u hk).trans ((unitOffset_le m c pc hu).trans hnb)⟩
  case fullDebug =>
    intro hfmt u hu _
    rw [hend u hu, Nat.add_sub_cancel_left, h.recordedLength hfmt hu, length_encodedUnit, hsucc]
    refine ⟨le_roundup8 _, ?_⟩
    simp only [roundup8]
    omega
  case apvError =>
    intro _ u hu _
    rw [hend u hu, Nat.add_sub_cancel_left, hsucc]
    rfl

end

end Sys2Proof.Machine
end

section
/-! DEC_PARSE of an encoded event (44_encoder.md R355): the fields of the words that the encoder wrote, and the parse, which gives
back the event's layout and those words. -/

namespace Sys2Proof.Machine

/-! ## The fields of the encoded header words

Each word is first taken at the sum of its fields' widths, so that a field is found by passing over those below it. -/

section
variable (c : EncoderConfig)

theorem dfield_daqHeader (lo n : Nat) :
    dfield (daqHeader c) lo n = ((0x5 : BitVec 4) ++ c.evtTy ++ c.evtNum ++ c.bx ++ c.srcId ++ c.fov ++ (0 : BitVec 1) ++
      (0 : BitVec 3)).extractLsb' lo n := rfl

theorem dfield_trackerHeader (lo n : Nat) :
    dfield (trackerHeader c) lo n = (tshFormat c.hdrfmt ++ tshEventType c.mode ++ (0 : BitVec 8) ++ (0 : BitVec 8) ++
      (0xFF : BitVec 8) ++ (0 : BitVec 8) ++ (0 : BitVec 8) ++ (0 : BitVec 16)).extractLsb' lo n := rfl

theorem dfield_trailerWord (d : Nat) (crc : Half) (lo n : Nat) :
    dfield (trailerWord c d crc) lo n = ((0xA : BitVec 4) ++ (0 : BitVec 4) ++ BitVec.ofNat 24 (d / 8) ++ crc ++
      (0 : BitVec 1) ++ (0 : BitVec 3) ++ c.evtStat ++ c.tts ++ (0 : BitVec 4)).extractLsb' lo n := rfl

/-- The fields of the DAQ header (44_encoder.md R343). -/
theorem daqHeader_fields :
    dfield (daqHeader c) 56 4 = c.evtTy ∧ dfield (daqHeader c) 32 24 = c.evtNum ∧ dfield (daqHeader c) 20 12 = c.bx ∧
      dfield (daqHeader c) 8 12 = c.srcId ∧ dfield (daqHeader c) 4 4 = c.fov := by
  simp (disch := omega) only [dfield_daqHeader, BitVec.extractLsb'_append_eq_of_le,
    BitVec.extractLsb'_append_eq_of_add_le, Nat.reduceSub, BitVec.extractLsb'_eq_self, and_self]

/-- The fields of the tracker-special header (44_encoder.md R343). -/
theorem trackerHeader_fields :
    dfield (trackerHeader c) 60 4 = tshFormat c.hdrfmt ∧ dfield (trackerHeader c) 56 4 = tshEventType c.mode ∧
      dfield (trackerHeader c) 48 8 = 0 ∧ dfield (trackerHeader c) 40 8 = 0 ∧ dfield (trackerHeader c) 32 8 = 0xFF ∧
      dfield (trackerHeader c) 24 8 = 0 ∧ dfield (trackerHeader c) 0 16 = 0 := by
  simp (disch := omega) only [dfield_trackerHeader, BitVec.extractLsb'_append_eq_of_le,
    BitVec.extractLsb'_append_eq_of_add_le, Nat.reduceSub, BitVec.extractLsb'_eq_self, and_self]

/-- The fields of the trailer (44_encoder.md R351). -/
theorem trailerWord_fields (d : Nat) (crc : Half) :
    dfield (trailerWord c d crc) 32 24 = BitVec.ofNat 24 (d / 8) ∧ dfield (trailerWord c d crc) 16 16 = crc ∧
      dfield (trailerWord c d crc) 15 1 = 0 ∧ dfield (trailerWord c d crc) 8 4 = c.evtStat ∧
      dfield (trailerWord c d crc) 4 4 = c.tts := by
  simp (disch := omega) only [dfield_trailerWord, BitVec.extractLsb'_append_eq_of_le,
    BitVec.extractLsb'_append_eq_of_add_le, Nat.reduceSub, BitVec.extractLsb'_eq_self, and_self]

end

/-! ## The parse -/

section
variable (m : Memory) (c : EncoderConfig) (pc : Byte)

/-- The trailer of the event (44_encoder.md R351). -/
def eventTrailer : DWord :=
  trailerWord c (unitOffset m c pc 8 + 8) (builtCrc m c pc)

/-- EV.chan of a channel of an encoded event (43_decoder.md R287). -/
def eventChannel (ch : Nat) : ChannelEntry :=
  { off := channelOffset m c pc ch, len := (encodedChannel m c pc ch).length, pcode := pc }

/-- EV of an encoded event (43_decoder.md R289). -/
def eventRecord : EventRecord :=
  { evfmt := .standard
    hdrfmt := c.hdrfmt
    legacy := false
    mode := c.mode
    nbytes := unitOffset m c pc 8 + 8
    h0 := 16
    enable := 0xFF
    chan := Vector.ofFn fun ch => eventChannel m c pc ch
    t := unitOffset m c pc 8 }

/-- The unit registers of an encoded event (43_decoder.md R289). -/
def eventUnit (u : Nat) : UnitRegs :=
  { off := BitVec.ofNat 32 (unitOffset m c pc u), len := BitVec.ofNat 32 (encodedUnit m c pc u).length, maj := 0, rsv := 0 }

/-- The header registers of an encoded event (43_decoder.md R289). -/
def eventRegs : HeaderRegs :=
  headerRegs (daqHeader c) (trackerHeader c) (eventTrailer m c pc) 0xFF (unitOffset m c pc 8)
    ((Vector.range 8).map (eventUnit m c pc))

end

theorem logicalByte_of_replicate {m : Memory} {o n j : Nat} {b : Byte} (h : IbufHolds m o (List.replicate n b)) (hj : j < n) :
    logicalByte m (o + j) = b := by
  rw [h j (by simpa using hj), List.getD_replicate _ hj]

/-- The majority address and the reserved word of a FullDebug header are 0 (44_encoder.md R344). -/
theorem HeldEvent.unitHeader {n m : Memory} {c : EncoderConfig} {pc : Byte} (h : HeldEvent n m c pc)
    (hfmt : c.hdrfmt = .fullDebug) {u : Nat} (hu : u < 8) :
    logicalByte n (16 + 16 * u + 9) = 0 ∧ u32le n (16 + 16 * u + 10) = 0 := by
  obtain ⟨-, hrest⟩ := ibufHolds_append.1 (h.feHeader hfmt hu)
  obtain ⟨hmaj, hrest⟩ := ibufHolds_append.1 hrest
  obtain ⟨hrsv, -⟩ := ibufHolds_append.1 hrest
  have hbyte : ∀ j < 4, logicalByte n (16 + 16 * u + 10 + j) = 0 := fun j hj => logicalByte_of_replicate hrsv hj
  have hlow : u16le n (16 + 16 * u + 10) = 0 := congrArg₂ HAppend.hAppend (hbyte 1 (by decide)) (hbyte 0 (by decide))
  have hhigh : u16le n (16 + 16 * u + 10 + 2) = 0 := congrArg₂ HAppend.hAppend (hbyte 3 (by decide)) (hbyte 2 (by decide))
  exact ⟨(ibufHolds_cons.1 hmaj).1, congrArg₂ HAppend.hAppend hhigh hlow⟩

section
variable {s u : State} {mode : DaqMode} {w : Width} {pc : Byte} {skipCrc : Bool} {extEnable : BitVec 8}
  (h : CopiedEvent s u mode w pc skipCrc extEnable)
include h

theorem CopiedEvent.held : HeldEvent u.mem s.mem (encoderFields s.enc mode w) pc := heldEvent_of_ibufHolds h.holds

theorem CopiedEvent.length : 4 * u.decLen.toNat = unitOffset s.mem (encoderFields s.enc mode w) pc 8 + 8 := by
  rw [h.decLen, h.encLen, unitOffset_eight]
  rfl

/-- How DEC_CFG reads the event: its format, header format and unit mask (43_decoder.md R283, R285). -/
theorem CopiedEvent.config :
    Spec.decFormat u = .standard ∧ Spec.decHeaderFormat u = (encoderFields s.enc mode w).hdrfmt ∧ Spec.decStart u = 16 ∧
      Spec.decTsh u = trackerHeader (encoderFields s.enc mode w) ∧ Spec.decEnable u = 0xFF := by
  have hformat : Spec.decFormat u = .standard := by
    rw [Spec.decFormat, h.decCfg, eventDecCfg_evfmt, if_neg Bool.false_ne_true]
  have hlegacy : u.decCfg.getLsbD 2 = false := by rw [h.decCfg, eventDecCfg_legacy]
  have htsh : Spec.decTsh u = trackerHeader (encoderFields s.enc mode w) := by
    rw [Spec.decTsh, hlegacy, if_neg Bool.false_ne_true, hformat, h.held.trackerHeader]
  refine ⟨hformat, ?_, ?_, htsh, ?_⟩
  · rw [Spec.decHeaderFormat, h.decCfg, eventDecCfg_hdrfmt]
    rfl
  · rw [Spec.decStart, hlegacy, if_neg Bool.false_ne_true]
  · obtain ⟨-, -, -, -, henable, -⟩ := trackerHeader_fields (encoderFields s.enc mode w)
    rw [Spec.decEnable, hlegacy, if_neg Bool.false_ne_true, htsh]
    exact henable

theorem CopiedEvent.parseable (henc : Spec.encodes s mode w) : Spec.parseable u mode := by
  obtain ⟨hmode, -, -⟩ := henc
  obtain ⟨-, hhdrfmt, hstart, -, -⟩ := h.config
  have h8 := encodedEvent_mod_eight s mode w pc
  have hle := encodedEvent_le s mode w pc
  have hlen := h.encLen
  rw [← h.decLen] at hlen
  refine ⟨?_, by omega, by omega, ?_⟩
  · rw [h.decCfg, eventDecCfg_mode, hmode]
  · rw [h.length, hstart, Spec.decHeaderSize, hhdrfmt, ← feHeaderSize_eq]
    exact Nat.add_le_add_right (Nat.le_add_right _ _) 8

theorem CopiedEvent.walked :
    Spec.walked u (unitOffset s.mem (encoderFields s.enc mode w) pc) (channelOffset s.mem (encoderFields s.enc mode w) pc) 8 := by
  obtain ⟨-, hhdrfmt, hstart, -, henable⟩ := h.config
  rw [Spec.walked, hhdrfmt, hstart, henable, h.length]
  exact h.held.parseWalk (Nat.le_add_right _ _)

/-- The walk's entry of a channel (43_decoder.md R287). -/
theorem CopiedEvent.channelEntry {ch : Nat} (hch : ch < 96) :
    (((List.range 8).map (walkedUnit u (unitOffset s.mem (encoderFields s.enc mode w) pc)
        (channelOffset s.mem (encoderFields s.enc mode w) pc))).flatMap UnitWalk.chan).getD ch ChannelEntry.absent =
      eventChannel s.mem (encoderFields s.enc mode w) pc ch := by
  obtain ⟨-, -, -, -, henable⟩ := h.config
  rw [getD_chan_walkedUnits hch (by rw [henable]; exact getLsbD_allUnits (by omega)), h.held.channelLength hch,
    h.held.packetCode hch]
  rfl

/-- The walk's registers of a unit (43_decoder.md R289). -/
theorem CopiedEvent.unitRegs {v : Nat} (hv : v < 8) :
    Machine.unitRegs u.mem (encoderFields s.enc mode w).hdrfmt 0xFF 16 v
        (walkedUnit u (unitOffset s.mem (encoderFields s.enc mode w) pc)
          (channelOffset s.mem (encoderFields s.enc mode w) pc) v) =
      eventUnit s.mem (encoderFields s.enc mode w) pc v := by
  obtain ⟨-, -, -, -, henable⟩ := h.config
  rw [← henable, unitRegs_walkedUnit, henable, if_pos (getLsbD_allUnits hv), unitOffset_succ, Nat.add_sub_cancel_left]
  by_cases hfmt : (encoderFields s.enc mode w).hdrfmt = .fullDebug
  · obtain ⟨hmaj, hrsv⟩ := h.held.unitHeader hfmt hv
    rw [if_pos hfmt, if_pos hfmt, hmaj, hrsv]
    rfl
  · rw [if_neg hfmt, if_neg hfmt]
    rfl

/-- The parse of an encoded event gives its layout and header words back (44_encoder.md R355). -/
theorem CopiedEvent.parseEvent (henc : Spec.encodes s mode w) :
    Machine.parseEvent u.mem u.decCfg u.decLen.toNat =
      .ok { ev := eventRecord s.mem (encoderFields s.enc mode w) pc
            hdr := eventRegs s.mem (encoderFields s.enc mode w) pc } := by
  obtain ⟨hformat, hhdrfmt, hstart, htsh, henable⟩ := h.config
  have hformat : cfgEvfmt u.decCfg = .standard := hformat
  have hhdrfmt : cfgHdrfmt u.decCfg = (encoderFields s.enc mode w).hdrfmt := hhdrfmt
  have hlegacy : cfgLegacy u.decCfg = false := by rw [cfgLegacy, h.decCfg, eventDecCfg_legacy]
  have hstart : headerStart (cfgLegacy u.decCfg) = 16 := hstart
  have htsh : tshWord u.mem u.decCfg = trackerHeader (encoderFields s.enc mode w) := htsh
  have henable : enabledMask u.decCfg (tshWord u.mem u.decCfg) = 0xFF := henable
  have hunits (ws : List UnitWalk) (hws : ws = (List.range 8).map (walkedUnit u
      (unitOffset s.mem (encoderFields s.enc mode w) pc) (channelOffset s.mem (encoderFields s.enc mode w) pc))) :
      (Vector.ofFn fun v : Fin 8 => Machine.unitRegs u.mem (encoderFields s.enc mode w).hdrfmt 0xFF 16 v
        (ws.getD v UnitWalk.disabled)) = (Vector.range 8).map (eventUnit s.mem (encoderFields s.enc mode w) pc) := by
    ext1 v hv
    rw [Vector.getElem_ofFn, Vector.getElem_map, Vector.getElem_range, ← h.unitRegs hv, hws]
    simp [hv]
  rw [parseEvent_of_parseable (h.parseable henc), decWalk_of_walked h.walked]
  refine (if_neg (by rw [h.length]; exact Nat.lt_irrefl _)).trans ?_
  rw [parsedEvent, henable, hstart, htsh, hformat, hhdrfmt, hlegacy, h.length, h.held.daqHeader, h.held.trailer,
    hunits _ rfl, funext fun ch : Fin 96 => h.channelEntry ch.isLt]
  rfl

end

end Sys2Proof.Machine
end

section
/-! The registers that DEC_PARSE, DEC_CHECK and DEC_STATUSES leave of an encoded event (44_encoder.md R343, R344, R351, R355;
43_decoder.md R320). -/

namespace Sys2Proof.Machine

/-! ## Statuses -/

/-- Every status of an encoded event is all ones (44_encoder.md R344). -/
theorem HeldEvent.channelStatus {n m : Memory} {c : EncoderConfig} {pc : Byte} (h : HeldEvent n m c pc) {ch : Nat}
    (hch : ch < 96) : Machine.channelStatus n (eventRecord m c pc) ch = goodStatus c.hdrfmt := by
  have hones : ∀ k, (0xFF : Byte).getLsbD (k % 8) = true := fun k =>
    (by decide : ∀ j < 8, (0xFF : Byte).getLsbD j = true) _ (Nat.mod_lt k (by decide))
  refine BitVec.eq_of_getLsbD_eq fun j hj => ?_
  obtain ⟨hfull, hlow, hhigh⟩ := channelStatusBits n (eventRecord m c pc) ch j
  cases hfmt : c.hdrfmt with
  | fullDebug =>
    have hbyte : logicalByte n (16 + 16 * (ch / 12) + (6 * (ch % 12) + j) / 8) = 0xFF :=
      logicalByte_of_replicate (ibufHolds_append.1 (h.feHeader hfmt (by omega))).1 (by omega)
    rw [hfull hfmt hj]
    exact (congrArg (BitVec.getLsbD · _) hbyte).trans
      ((hones _).trans ((by decide : ∀ j < 6, (goodStatus .fullDebug).getLsbD j = true) j hj).symm)
  | apvError =>
    by_cases hj2 : j < 2
    · have hregion := h.feHeaders
      rw [hfmt] at hregion
      have hbyte : logicalByte n (16 + (2 * ch + j) / 8) = 0xFF := logicalByte_of_replicate hregion (by omega)
      rw [hlow hfmt hj2]
      exact (congrArg (BitVec.getLsbD · _) hbyte).trans
        ((hones _).trans ((by decide : ∀ j < 2, (goodStatus .apvError).getLsbD j = true) j hj2).symm)
    · rw [hhigh hfmt (Nat.not_lt.1 hj2)]
      exact ((by decide : ∀ j < 6, 2 ≤ j → (goodStatus .apvError).getLsbD j = false) j hj (Nat.not_lt.1 hj2)).symm

theorem badWord_of_good {m : Memory} {ev : EventRecord} {lo : Nat} (h : ∀ k < 32, badChannel m ev (lo + k) = false) :
    badWord m ev lo = 0 :=
  BitVec.eq_of_getLsbD_eq fun k hk => by rw [getLsbD_badWord, h k hk, Bool.and_false]; exact BitVec.getLsbD_zero.symm

/-- Without a bad channel the map and the count are 0 (43_decoder.md R320). -/
theorem statRegs_of_good {m : Memory} {ev : EventRecord} (h : ∀ ch < 96, badChannel m ev ch = false) :
    statRegs m ev = { bad0 := 0, bad1 := 0, bad2 := 0, count := 0 } := by
  have hcount : (List.range 96).countP (badChannel m ev) = 0 :=
    List.countP_eq_zero.2 fun ch hch => by rw [h ch (List.mem_range.1 hch)]; exact Bool.false_ne_true
  rw [statRegs, badWord_of_good fun k hk => h _ (by omega), badWord_of_good fun k hk => h _ (by omega),
    badWord_of_good fun k hk => h _ (by omega), hcount]
  rfl

/-! ## Registers -/

section
variable (m : Memory) (c : EncoderConfig) (pc : Byte)

theorem unitOffset_eight_bounds : unitOffset m c pc 8 % 8 = 0 ∧ unitOffset m c pc 8 + 8 ≤ 50200 := by
  rw [unitOffset_eight]
  exact ⟨(length_eventBody_bounds m c pc).1, length_eventBody_le_longest m c pc⟩

/-- TRL_LEN counts the 64-bit words of the event (44_encoder.md R351). -/
theorem eventRegs_trlLen : (eventRegs m c pc).trlLen.toNat * 8 = unitOffset m c pc 8 + 8 := by
  obtain ⟨h8, hle⟩ := unitOffset_eight_bounds m c pc
  obtain ⟨hlen, -⟩ := trailerWord_fields c (unitOffset m c pc 8 + 8) (builtCrc m c pc)
  have htrl : (eventRegs m c pc).trlLen = BitVec.ofNat 24 ((unitOffset m c pc 8 + 8) / 8) := hlen
  rw [htrl, BitVec.toNat_ofNat]
  omega

theorem eventRegs_decBytes : (eventRegs m c pc).decBytes.toNat = unitOffset m c pc 8 + 8 := by
  obtain ⟨-, hle⟩ := unitOffset_eight_bounds m c pc
  have hbytes : (eventRegs m c pc).decBytes = BitVec.ofNat 32 (unitOffset m c pc 8 + 8) := rfl
  rw [hbytes, BitVec.toNat_ofNat]
  omega

theorem eventRegs_units_toList : (eventRegs m c pc).units.toList = (List.range 8).map (eventUnit m c pc) := by
  rw [show (eventRegs m c pc).units = (Vector.range 8).map (eventUnit m c pc) from rfl, Vector.toList_map,
    Vector.toList_range]

/-- The unit lengths account for the event (44_encoder.md R345). -/
theorem sum_eventRegs_units_len :
    ((eventRegs m c pc).units.toList.map fun r => r.len.toNat).sum = offsetOf (fun u => (encodedUnit m c pc u).length) 8 := by
  rw [eventRegs_units_toList, List.map_map, offsetOf]
  refine congrArg List.sum (List.map_congr_left fun u _ => ?_)
  have hlt := length_encodedUnit_lt m c pc u
  rw [Function.comp_apply, eventUnit, BitVec.toNat_ofNat, Nat.mod_eq_of_lt (by omega)]

theorem eventRegs_units_zero {r : UnitRegs} (hr : r ∈ (eventRegs m c pc).units.toList) : r.maj = 0 ∧ r.rsv = 0 := by
  rw [eventRegs_units_toList] at hr
  obtain ⟨u, -, rfl⟩ := List.mem_map.1 hr
  exact ⟨rfl, rfl⟩

/-- EVT_NUM, BX, SRC_ID and EVT_INFO give the DAQ header back (44_encoder.md R343). -/
theorem eventRegs_daqHeader :
    (eventRegs m c pc).evtNum = c.evtNum ∧ (eventRegs m c pc).bx = c.bx ∧ (eventRegs m c pc).srcId = c.srcId ∧
      (eventRegs m c pc).evtInfo = c.fov ++ c.evtTy := by
  obtain ⟨hty, hnum, hbx, hsrc, hfov⟩ := daqHeader_fields c
  exact ⟨hnum, hbx, hsrc, congrArg₂ HAppend.hAppend hfov hty⟩

/-- FE_REGS and TSH_INFO give the tracker-special header back (44_encoder.md R343). -/
theorem eventRegs_trackerHeader :
    (eventRegs m c pc).feRegs = 0x000000FF ∧
      (eventRegs m c pc).tshInfo = (0 : BitVec 24) ++ tshEventType c.mode ++ tshFormat c.hdrfmt := by
  obtain ⟨hfmt, hty, h48, h40, -, h24, h0⟩ := trackerHeader_fields c
  refine ⟨?_, ?_⟩
  · rw [show (eventRegs m c pc).feRegs = dfield (trackerHeader c) 40 8 ++ dfield (trackerHeader c) 48 8 ++
      dfield (trackerHeader c) 24 8 ++ (0xFF : BitVec 8) from rfl, h40, h48, h24]
    rfl
  · rw [show (eventRegs m c pc).tshInfo = dfield (trackerHeader c) 0 16 ++ (0 : BitVec 8) ++ dfield (trackerHeader c) 56 4 ++
      dfield (trackerHeader c) 60 4 from rfl, hfmt, hty, h0]
    rfl

/-- TRL_INFO gives the trailer back (44_encoder.md R351). -/
theorem eventRegs_trlInfo :
    (eventRegs m c pc).trlInfo =
      (0 : BitVec 1) ++ c.tts ++ c.evtStat ++ builtCrc m c pc := by
  obtain ⟨-, hcrc, h15, hstat, htts⟩ :=
    trailerWord_fields c (unitOffset m c pc 8 + 8) (builtCrc m c pc)
  rw [show (eventRegs m c pc).trlInfo = dfield (eventTrailer m c pc) 15 1 ++ dfield (eventTrailer m c pc) 4 4 ++
    dfield (eventTrailer m c pc) 8 4 ++ dfield (eventTrailer m c pc) 16 16 from rfl, eventTrailer, hcrc, h15, hstat, htts]

/-- The CRC field of TRL_INFO (10_state.md R46). -/
theorem eventRegs_crc :
    (eventRegs m c pc).trlInfo.extractLsb' 0 16 = builtCrc m c pc := by
  rw [eventRegs_trlInfo]
  exact BitVec.extractLsb'_append_eq_right

end

/-! ## The three commands -/

section
variable {s u : State} {mode : DaqMode} {w : Width} {pc : Byte} {skipCrc : Bool} {extEnable : BitVec 8}

/-- The state that DEC_PARSE of the copied event leaves. -/
def parsedState (s u : State) (mode : DaqMode) (w : Width) (pc : Byte) : State :=
  Spec.success (commitParse
    { ev := eventRecord s.mem (encoderFields s.enc mode w) pc, hdr := eventRegs s.mem (encoderFields s.enc mode w) pc }
    (invalidate u))

/-- The state that DEC_CHECK leaves after it: no mismatch, and the CRC of the event unless SKIP_CRC is set. -/
def checkedState (s u : State) (mode : DaqMode) (w : Width) (pc : Byte) (skipCrc : Bool) : State :=
  Spec.success
    { parsedState s u mode w pc with
      crcComputed := if skipCrc then 0 else encodedCrc s mode w pc
      flags := { (parsedState s u mode w pc).flags with
        lenMismatch := false
        crcMismatch := false
        crcChecked := !skipCrc } }

theorem checkedState_crcComputed :
    (checkedState s u mode w pc skipCrc).crcComputed = if skipCrc then 0 else encodedCrc s mode w pc := rfl

variable (h : CopiedEvent s u mode w pc skipCrc extEnable)
include h

theorem CopiedEvent.exec_decParse (henc : Spec.encodes s mode w) : exec .decParse u = .next (parsedState s u mode w pc) :=
  exec_eq_success (.decParse (h.parseEvent henc))

theorem CopiedEvent.exec_decCheck :
    exec .decCheck (parsedState s u mode w pc) = .next (checkedState s u mode w pc skipCrc) := by
  have hskip : cfgSkipCrc (parsedState s u mode w pc).decCfg = skipCrc := by
    rw [show (parsedState s u mode w pc).decCfg = u.decCfg from rfl, cfgSkipCrc, h.decCfg, eventDecCfg_skipCrc]
  have hlen : lengthMismatch (parsedState s u mode w pc).hdr.trlLen.toNat
      (eventRecord s.mem (encoderFields s.enc mode w) pc).t = false :=
    decide_eq_false (not_not.2 (eventRegs_trlLen s.mem (encoderFields s.enc mode w) pc))
  have hcrc : eventCrc (parsedState s u mode w pc).mem (eventRecord s.mem (encoderFields s.enc mode w) pc).t
      (eventRecord s.mem (encoderFields s.enc mode w) pc).evfmt = encodedCrc s mode w pc := by
    rw [show (eventRecord s.mem (encoderFields s.enc mode w) pc).t = (encodedEvent s mode w pc).length from
      unitOffset_eight s.mem (encoderFields s.enc mode w) pc]
    exact h.crc
  have hfield : (parsedState s u mode w pc).hdr.trlInfo.extractLsb' 0 16 = encodedCrc s mode w pc :=
    (eventRegs_crc s.mem (encoderFields s.enc mode w) pc).trans (encodedCrc_eq_builtCrc s mode w pc).symm
  cases skipCrc with
  | true =>
    have hcommits := Commits.decCheckSkip (s := parsedState s u mode w pc) rfl hskip
    rw [hlen] at hcommits
    exact exec_eq_success hcommits
  | false =>
    have hcommits := Commits.decCheckCrc (s := parsedState s u mode w pc) rfl hskip
    rw [hlen, hcrc, hfield, decide_eq_false (not_not.2 rfl)] at hcommits
    exact exec_eq_success hcommits

theorem CopiedEvent.exec_decStatus :
    exec .decStatus (checkedState s u mode w pc skipCrc) = .next (Spec.success
      { checkedState s u mode w pc skipCrc with stat := { bad0 := 0, bad1 := 0, bad2 := 0, count := 0 } }) := by
  have hgood : ∀ ch < 96, badChannel u.mem (eventRecord s.mem (encoderFields s.enc mode w) pc) ch = false := fun ch hch => by
    rw [badChannel, h.held.channelStatus hch]
    exact (congrArg _ (bne_self_eq_false _)).trans (Bool.and_false _)
  have hcommits := Commits.decStatus (s := checkedState s u mode w pc skipCrc) rfl
  rw [show (checkedState s u mode w pc skipCrc).mem = u.mem from rfl, statRegs_of_good hgood] at hcommits
  exact exec_eq_success hcommits

end

/-- Settles O44: the parse gives the event's layout and header words back, and each register is a field of them. -/
theorem encodedEventParsesBack : Obligations.EncodedEventParsesBack := by
  intro s mode w skipCrc extEnable henc
  obtain ⟨pc, hpc, hconfig⟩ := encoderConfig_of_encodes henc
  obtain ⟨u, hu⟩ := exists_encodedAndCopied s skipCrc extEnable
  have h := copiedEvent_of_encodedAndCopied hconfig hu
  have hlen : 4 * u.enc.len.toNat = unitOffset s.mem (encoderFields s.enc mode w) pc 8 + 8 := h.decLen ▸ h.length
  have hcrc : u.enc.crc = encodedCrc s mode w pc := h.encCrc
  obtain ⟨hnum, hbx, hsrc, hinfo⟩ := eventRegs_daqHeader s.mem (encoderFields s.enc mode w) pc
  obtain ⟨hfe, htsh⟩ := eventRegs_trackerHeader s.mem (encoderFields s.enc mode w) pc
  refine ⟨u, _, _, _, hu, h.exec_decParse henc, h.exec_decCheck, h.exec_decStatus, rfl, ?decBytes, ?units, hnum, hbx, hsrc,
    hinfo, hfe, ?tshInfo, ?trlLen, ?trlInfo, fun r => eventRegs_units_zero s.mem _ pc, rfl, rfl, rfl, rfl,
    fun hskip => ?crc, rfl, rfl⟩
  case decBytes => rw [hlen]; exact eventRegs_decBytes s.mem _ pc
  case units =>
    rw [hlen, ← feHeaderSize_encoderFields s mode w]
    exact congrArg (16 + feHeaderSize (encoderFields s.enc mode w).hdrfmt + · + 8) (sum_eventRegs_units_len s.mem _ pc).symm
  case tshInfo =>
    refine htsh.trans (congrArg _ ?_)
    simp only [encoderFields, apply_ite tshFormat]
    rfl
  case trlLen => rw [hlen]; exact eventRegs_trlLen s.mem _ pc
  case trlInfo => rw [hcrc, encodedCrc_eq_builtCrc]; exact eventRegs_trlInfo s.mem _ pc
  case crc => rw [hcrc, checkedState_crcComputed, if_neg (by rw [hskip]; exact Bool.false_ne_true)]

end Sys2Proof.Machine
end

section
/-! DEC_SAMPLES of an encoded raw or Scope event (44_encoder.md R347, R355): the channel's values come back in the order they were
coded in, which the decoder's permutation turns into strip order. -/

namespace Sys2Proof.Machine

/-! ## A channel of a parsed event -/

/-- The registers that a DEC_SAMPLES that succeeds leaves (43_decoder.md R295). -/
theorem regs_of_samplesResult {s t : State} {ev : EventRecord} {idx : Nat} {c : ChannelEntry} {w : Width} {kind nclus : Nat}
    {cm0 cm1 : Half} {entries : List Half} (h : Spec.samplesResult s t ev idx c w kind nclus cm0 cm1 entries) :
    t.flags.err = false ∧ t.res.count = BitVec.ofNat 32 entries.length ∧ t.res.cm = cm1 ++ cm0 ∧
      t.res.nclus = BitVec.ofNat 32 nclus := by
  obtain ⟨-, -, hregs⟩ := h
  exact ⟨congrArg (·.flags.err) hregs, congrArg (·.res.count) hregs, congrArg (·.res.cm) hregs,
    congrArg (·.res.nclus) hregs⟩

theorem getElem_eventRecord_chan (m : Memory) (c : EncoderConfig) (pc : Byte) {ch : Nat} (hch : ch < 96) :
    (eventRecord m c pc).chan[ch] = eventChannel m c pc ch :=
  Vector.getElem_ofFn (f := fun ch : Fin 96 => eventChannel m c pc ch) hch

/-- Every channel of the parsed event resolves (43_decoder.md R290). -/
theorem parsedState_resolves (s u : State) (mode : DaqMode) (w : Width) (pc : Byte) {ch : Nat} (hch : ch < 96) :
    Spec.resolves (parsedState s u mode w pc) ch (eventRecord s.mem (encoderFields s.enc mode w) pc)
      (eventChannel s.mem (encoderFields s.enc mode w) pc ch) := by
  exact ⟨rfl, getLsbD_allUnits (by omega), hch, (getElem_eventRecord_chan _ _ pc hch).symm⟩

theorem length_eventChannel (m : Memory) (c : EncoderConfig) (pc : Byte) (ch : Nat) :
    (eventChannel m c pc ch).len = 3 + (encodedBody m c ch).length := length_encodedChannel m c pc ch

/-! ## The values of a raw channel -/

/-- VirginRaw, ProcessedRaw and Scope channels are written alike (44_encoder.md R347). -/
theorem encodedBody_of_raw (m : Memory) {c : EncoderConfig} (h : isRawMode c.mode = true) (ch : Nat) :
    encodedBody m c ch = rawChannelBody m c ch := by
  unfold encodedBody
  split <;> rename_i hmode
  case h_4 | h_5 => simp [hmode, isRawMode] at h
  all_goals rfl

/-- The strip whose value stands at position i of a raw channel (44_encoder.md R347). -/
def codedStrip (i : Nat) : Nat := 128 * (i / 128) + Spec.muxToStrip (i % 128)

theorem codedStrip_add (a : Nat) {i : Nat} (hi : i < 128) : codedStrip (128 * a + i) = 128 * a + Spec.muxToStrip i := by
  rw [codedStrip, show (128 * a + i) / 128 = a by omega, show (128 * a + i) % 128 = i by omega]

/-- Every strip is coded somewhere in its APV. -/
theorem exists_codedStrip {k : Nat} (hk : k < 256) :
    ∃ a i, a < 2 ∧ i < 128 ∧ k = 128 * a + Spec.muxToStrip i := by
  obtain ⟨hlt, hback⟩ := stripOfMux_muxOfStrip (Nat.mod_lt k (show 128 > 0 by decide))
  have hback : Spec.muxToStrip (muxOfStrip (k % 128)) = k % 128 := hback
  exact ⟨k / 128, muxOfStrip (k % 128), by omega, hlt, by omega⟩

theorem roundTripValue_lt (mode : DaqMode) (w : Width) (v : Nat) : Spec.roundTripValue mode w v < 1024 := by
  cases w with
  | std =>
    rw [Spec.roundTripValue]
    split <;> omega
  | _ =>
    simp only [Spec.roundTripValue]
    omega

/-- Raw values up to 1023 lose nothing with STD or W10 (30_encoding.md R182). -/
theorem roundTripValue_exact {mode : DaqMode} {w : Width} {v : Nat}
    (hmode : ¬ (mode = .zeroSuppressed ∨ mode = .zeroSuppressedLite)) (hw : w = .std ∨ w = .w10) (hv : v ≤ 1023) :
    Spec.roundTripValue mode w v = v := by
  rcases hw with rfl | rfl
  · rw [Spec.roundTripValue, if_neg hmode, Nat.min_eq_left hv]
  · exact Nat.min_eq_left hv

section
variable {s u : State} {mode : DaqMode} {w : Width} {pc : Byte} {skipCrc : Bool} {extEnable : BitVec 8}

theorem length_rawChannel (hraw : isRawMode mode = true) (ch : Nat) :
    (eventChannel s.mem (encoderFields s.enc mode w) pc ch).len = 3 + codedSize 256 mode w := by
  rw [length_eventChannel, encodedBody_of_raw s.mem (c := encoderFields s.enc mode w) hraw, length_rawChannelBody]
  rfl

variable (h : CopiedEvent s u mode w pc skipCrc extEnable)
include h

/-- Value i of a raw channel reads back as the coding leaves it (30_encoding.md R182). -/
theorem CopiedEvent.rawValue (hraw : isRawMode mode = true) {ch i : Nat} (hch : ch < 96) (hi : i < 256) :
    decodedValue u.mem mode (channelOffset s.mem (encoderFields s.enc mode w) pc ch + 3) i w =
      BitVec.ofNat 16 (Spec.roundTripValue mode w (Spec.stripValue s ch (codedStrip i)).toNat) := by
  have hbody := h.held.body hch
  rw [encodedBody_of_raw s.mem (c := encoderFields s.enc mode w) hraw, rawChannelBody_eq] at hbody
  have hvalue := decodedValue_of_coded (mode := mode) (w := w) hbody (i := i) (by simpa using hi)
  rw [hvalue, List.getElem_map, List.getElem_range]
  rfl

/-- RES holds the strips of a raw channel in physical order (43_decoder.md R297). -/
theorem CopiedEvent.exec_decSamples_raw (hmode : mode = .virginRaw ∨ mode = .processedRaw)
    (hpc : packetCode mode w = some pc) {ch : Nat} (hch : ch < 96) :
    ∃ v, exec (.decSamples ch) (parsedState s u mode w pc) = .next v ∧ v.flags.err = false ∧ v.res.count = 256 ∧
      ∀ k < 256, ramHalf v.mem .res k = BitVec.ofNat 16 (Spec.roundTripValue mode w (Spec.stripValue s ch k).toNat) := by
  have hraw : isRawMode mode = true := by rcases hmode with rfl | rfl <;> rfl
  obtain ⟨v, entries, hexec, hresult, hlen, hentries⟩ := decSamplesOfARawChannel (parsedState s u mode w pc) _ _ ch w
    (parsedState_resolves s u mode w pc hch) hmode hpc (length_rawChannel hraw ch)
  obtain ⟨herr, hcount, -, -⟩ := regs_of_samplesResult hresult
  obtain ⟨hstored, -, -⟩ := hresult
  refine ⟨v, hexec, herr, hcount.trans (by rw [hlen]; rfl), fun k hk => ?_⟩
  obtain ⟨a, i, ha, hi, rfl⟩ := exists_codedStrip hk
  obtain ⟨hin, hentry⟩ := List.getElem?_eq_some_iff.1 (hentries a ha i hi)
  have hvalue := h.rawValue hraw hch (i := 128 * a + i) (by omega)
  rw [codedStrip_add a hi] at hvalue
  exact (hstored _ hin).trans (hentry.trans hvalue)

/-- RES holds the strips of a Scope channel in MUX order (43_decoder.md R298). -/
theorem CopiedEvent.exec_decSamples_scope (hmode : mode = .scope) (hw : w = .std) (hpc : packetCode mode w = some pc)
    {ch : Nat} (hch : ch < 96) :
    ∃ v, exec (.decSamples ch) (parsedState s u mode w pc) = .next v ∧ v.flags.err = false ∧ v.res.count = 256 ∧
      ∀ i < 256, ramHalf v.mem .res i =
        BitVec.ofNat 16 (Spec.roundTripValue .scope .std (Spec.stripValue s ch (codedStrip i)).toNat) := by
  subst hmode hw
  have hlen : (eventChannel s.mem (encoderFields s.enc .scope .std) pc ch).len = 3 + 512 := length_rawChannel rfl ch
  obtain ⟨v, hexec, hresult⟩ := decSamplesOfAScopeChannel (parsedState s u .scope .std pc) _ _ ch
    (parsedState_resolves s u .scope .std pc hch) rfl (Option.some.inj hpc).symm (by rw [hlen])
  rw [hlen] at hresult
  obtain ⟨herr, hcount, -, -⟩ := regs_of_samplesResult hresult
  obtain ⟨hstored, -, -⟩ := hresult
  refine ⟨v, hexec, herr, hcount.trans (by rw [List.length_map, List.length_range]; rfl), fun i hi => ?_⟩
  refine (hstored i (by simpa using hi)).trans ?_
  rw [List.getElem_map, List.getElem_range]
  exact h.rawValue rfl hch hi

end

/-- Settles O45: the values read back in coded order, which is strip order once DEC_SAMPLES has permuted a raw channel. -/
theorem rawEventsRoundTrip : Obligations.RawEventsRoundTrip := by
  intro s u t mode w skipCrc extEnable henc hmode hcopied hparse ch hch
  obtain ⟨pc, hpc, hconfig⟩ := encoderConfig_of_encodes henc
  have ⟨_, _, hstd⟩ := henc
  have h := copiedEvent_of_encodedAndCopied hconfig hcopied
  obtain rfl := Host.Outcome.next.inj ((h.exec_decParse henc).symm.trans hparse)
  have htoNat (mode : DaqMode) (w : Width) (v : Nat) :
      (BitVec.ofNat 16 (Spec.roundTripValue mode w v)).toNat = Spec.roundTripValue mode w v := by
    have := roundTripValue_lt mode w v
    rw [BitVec.toNat_ofNat, Nat.mod_eq_of_lt (by omega)]
  by_cases hscope : mode = .scope
  · obtain ⟨v, hexec, herr, hcount, hvalue⟩ := h.exec_decSamples_scope hscope (hstd hscope) hpc hch
    refine ⟨v, hexec, herr, hcount, fun hne => absurd hscope hne, fun _ a ha i hi => ?_⟩
    rw [hvalue _ (by omega), htoNat, codedStrip_add a hi]
    rfl
  · have hmode : mode = .virginRaw ∨ mode = .processedRaw := by
      rcases hmode with hmode | hmode | hmode
      · exact .inl hmode
      · exact .inr hmode
      · exact absurd hmode hscope
    obtain ⟨v, hexec, herr, hcount, hvalue⟩ := h.exec_decSamples_raw hmode hpc hch
    refine ⟨v, hexec, herr, hcount, fun _ => ⟨fun k hk => ?_, fun hw k hk hle => ?_⟩, fun h => absurd h hscope⟩
    · rw [hvalue k hk, htoNat]
    · have hzs : ¬ (mode = .zeroSuppressed ∨ mode = .zeroSuppressedLite) := by rcases hmode with rfl | rfl <;> decide
      rw [hvalue k hk, roundTripValue_exact hzs hw hle, BitVec.ofNat_toNat, BitVec.setWidth_eq]

end Sys2Proof.Machine
end

section
/-! DEC_SAMPLES of an encoded zero-suppressed event (44_encoder.md R348, R349, R355): the stored clusters are clusters to the walk
of the decoder, one for each run, after the two medians where the mode has them. -/

namespace Sys2Proof.Machine

/-! ## Runs as they are stored and as they are decoded -/

/-- A run of strips as a cluster is stored (44_encoder.md R349). -/
def runBytes (s : State) (mode : DaqMode) (w : Width) (ch apv : Nat) (r : Nat × Nat) : List Byte :=
  BitVec.ofNat 8 (128 * apv + r.1) :: BitVec.ofNat 8 r.2 ::
    codeValues mode w ((List.range r.2).map fun k => Spec.stripValue s ch (128 * apv + r.1 + k))

/-- A run of strips as DEC_SAMPLES reports a cluster (43_decoder.md R301). -/
def runEntries (s : State) (mode : DaqMode) (w : Width) (ch apv : Nat) (r : Nat × Nat) : List Half :=
  BitVec.ofNat 16 (128 * apv + r.1) :: BitVec.ofNat 16 r.2 ::
    (List.range r.2).map fun k =>
      BitVec.ofNat 16 (Spec.roundTripValue mode w (Spec.stripValue s ch (128 * apv + r.1 + k)).toNat)

theorem clusterEntries_eq (s : State) (mode : DaqMode) (w : Width) (ch apv : Nat) (runs : List (Nat × Nat)) :
    Spec.clusterEntries s mode w ch apv runs = (runs.map (runEntries s mode w ch apv)).flatten :=
  List.flatMap_def ..

theorem length_runBytes (s : State) (mode : DaqMode) (w : Width) (ch apv : Nat) (r : Nat × Nat) :
    (runBytes s mode w ch apv r).length = 2 + codedSize r.2 mode w := by
  simp only [runBytes, List.length_cons, length_codeValues, List.length_map, List.length_range]
  omega

/-- A run of an APV lies in its 128 strips (44_encoder.md R349). -/
theorem run_bounds {s : State} {ch apv : Nat} {runs : List (Nat × Nat)} (h : Spec.Runs (Spec.aboveThreshold s ch apv) runs)
    {r : Nat × Nat} (hr : r ∈ runs) : 1 ≤ r.2 ∧ r.1 + r.2 ≤ 128 := by
  obtain ⟨hpos, hin⟩ := h.inside r hr
  obtain ⟨hlast, -⟩ := hin (r.2 - 1) (by omega)
  exact ⟨hpos, by omega⟩

/-! ## Stored clusters -/

section
variable {s : State} {n : Memory} {mode : DaqMode} {w : Width} {ch apv last : Nat}

/-- A stored run reads back: its strip, its width and its values (30_encoding.md R182, R189). -/
theorem IbufHolds.run {q : Nat} {r : Nat × Nat} (h : IbufHolds n q (runBytes s mode w ch apv r)) (hapv : apv < 2)
    (hr : 1 ≤ r.2 ∧ r.1 + r.2 ≤ 128) :
    128 * apv + r.1 = (logicalByte n q).toNat ∧ r.2 = (logicalByte n (q + 1)).toNat ∧
      (BitVec.ofNat 16 (128 * apv + r.1) :: BitVec.ofNat 16 r.2 :: decodedValues n mode w (q + 2) r.2) =
        runEntries s mode w ch apv r := by
  obtain ⟨hstrip, hrest⟩ := ibufHolds_cons.1 h
  obtain ⟨hwidth, hvalues⟩ := ibufHolds_cons.1 hrest
  obtain ⟨-, -, hroundTrip⟩ := decodeOfCodedValues
  have hdecoded := hroundTrip n mode w _ _ hvalues
  rw [List.length_map, List.length_range, List.map_map] at hdecoded
  refine ⟨?_, ?_, ?_⟩
  · rw [hstrip, BitVec.toNat_ofNat, Nat.mod_eq_of_lt (by omega)]
  · rw [hwidth, BitVec.toNat_ofNat, Nat.mod_eq_of_lt (by omega)]
  · rw [runEntries]
    exact congrArg (fun values => _ :: _ :: values) hdecoded

/-- Stored runs are clusters to the decoder's walk, in front of any others (43_decoder.md R300). -/
theorem clusters_of_runs {runs : List (Nat × Nat)} (hapv : apv < 2) (hruns : ∀ r ∈ runs, 1 ≤ r.2 ∧ r.1 + r.2 ≤ 128)
    {q stop : Nat} {rest : List (List Half)} (h : IbufHolds n q (runs.flatMap (runBytes s mode w ch apv)))
    (hlast : q + (runs.flatMap (runBytes s mode w ch apv)).length ≤ last)
    (hrest : Spec.Clusters n mode w last (q + (runs.flatMap (runBytes s mode w ch apv)).length) stop rest) :
    Spec.Clusters n mode w last q stop (runs.map (runEntries s mode w ch apv) ++ rest) := by
  induction runs generalizing q with
  | nil => exact hrest
  | cons r runs ih =>
    rw [List.flatMap_cons] at h hlast hrest
    rw [List.length_append, length_runBytes] at hlast hrest
    obtain ⟨hrun, hothers⟩ := ibufHolds_append.1 h
    rw [length_runBytes] at hothers
    have hr := hruns r List.mem_cons_self
    obtain ⟨hstrip, hwidth, hentries⟩ := hrun.run hapv hr
    rw [List.map_cons, List.cons_append, ← hentries]
    refine .cluster hstrip hwidth hr.1 (by omega) (by omega) ?_
    rw [Nat.add_assoc q]
    refine ih (fun r hr => hruns r (List.mem_cons_of_mem _ hr)) hothers (by omega) ?_
    rwa [Nat.add_assoc]

/-- Clusters take at least a byte for each of their entries, and every cluster has entries. -/
theorem clusters_length {q r : Nat} {cs : List (List Half)} (h : Spec.Clusters n mode w last q r cs) :
    q + cs.flatten.length ≤ r ∧ cs.length ≤ cs.flatten.length := by
  induction h with
  | done => exact ⟨Nat.le_refl _, Nat.le_refl _⟩
  | @cluster q r a wd cs _ _ hpos _ _ _ ih =>
    have hsize := codedSize_pos hpos mode w
    simp only [List.flatten_cons, List.length_append, List.length_cons, length_decodedValues]
    omega

end

/-! ## The body of a zero-suppressed channel -/

/-- The medians of a channel as they are stored, if the mode has them (44_encoder.md R348). -/
def storedMedians (m : Memory) (c : EncoderConfig) (ch : Nat) : List Byte :=
  if c.mode = .zeroSuppressed then encodedMedian m c (2 * ch) ++ encodedMedian m c (2 * ch + 1) else []

theorem length_storedMedians (m : Memory) (c : EncoderConfig) (ch : Nat) :
    (storedMedians m c ch).length = if c.mode = .zeroSuppressed then 4 else 0 := by
  unfold storedMedians
  split
  · rw [List.length_append, length_encodedMedian, length_encodedMedian]
  · rfl

theorem encodedBody_of_zeroSuppressed (m : Memory) {c : EncoderConfig}
    (h : c.mode = .zeroSuppressed ∨ c.mode = .zeroSuppressedLite) (ch : Nat) :
    encodedBody m c ch = storedMedians m c ch ++ channelClusters m c ch := by
  unfold encodedBody storedMedians
  rcases h with h | h <;> rw [h] <;> rfl

/-- A stored median reads back (44_encoder.md R348). -/
theorem IbufHolds.median {n m : Memory} {c : EncoderConfig} {o k : Nat} (h : IbufHolds n o (encodedMedian m c k)) :
    u16le n o = if c.cmValid then ramHalf m .cm k else 0 := by
  have hfield {v : Nat} (hv : v < 2 ^ 16) (h : IbufHolds n o (le16 v)) : u16le n o = BitVec.ofNat 16 v := by
    rw [← h.channelLength hv, ← toNat_u16le, BitVec.ofNat_toNat, BitVec.setWidth_eq]
  cases hvalid : c.cmValid with
  | true =>
    rw [encodedMedian, hvalid, if_pos rfl] at h
    rw [if_pos rfl, hfield (BitVec.isLt _) h, BitVec.ofNat_toNat, BitVec.setWidth_eq]
  | false =>
    rw [encodedMedian, hvalid, if_neg Bool.false_ne_true] at h
    rw [if_neg Bool.false_ne_true, hfield (by decide) h]
    rfl

section
variable {s u : State} {mode : DaqMode} {w : Width} {pc : Byte} {skipCrc : Bool} {extEnable : BitVec 8}
  (h : CopiedEvent s u mode w pc skipCrc extEnable) (hmode : mode = .zeroSuppressed ∨ mode = .zeroSuppressedLite)
  {ch : Nat} (hch : ch < 96)
include h hmode hch

theorem CopiedEvent.zeroSuppressedBody :
    IbufHolds u.mem (channelOffset s.mem (encoderFields s.enc mode w) pc ch + 3)
      (storedMedians s.mem (encoderFields s.enc mode w) ch ++ channelClusters s.mem (encoderFields s.enc mode w) ch) := by
  have hbody := h.held.body hch
  rwa [encodedBody_of_zeroSuppressed s.mem (c := encoderFields s.enc mode w) hmode] at hbody

/-- The two medians of the channel, 0 where they are not valid or the mode has none (44_encoder.md R348). -/
theorem CopiedEvent.medians :
    (if mode = .zeroSuppressed then u16le u.mem (channelOffset s.mem (encoderFields s.enc mode w) pc ch + 3) else 0) =
        (if mode = .zeroSuppressed ∧ s.enc.cfg0.getLsbD 19 = true then ramHalf s.mem .cm (2 * ch) else 0) ∧
      (if mode = .zeroSuppressed then u16le u.mem (channelOffset s.mem (encoderFields s.enc mode w) pc ch + 5) else 0) =
        (if mode = .zeroSuppressed ∧ s.enc.cfg0.getLsbD 19 = true then ramHalf s.mem .cm (2 * ch + 1) else 0) := by
  by_cases hzs : mode = .zeroSuppressed
  · obtain ⟨hmedians, -⟩ := ibufHolds_append.1 (h.zeroSuppressedBody hmode hch)
    rw [storedMedians, if_pos (show (encoderFields s.enc mode w).mode = .zeroSuppressed from hzs)] at hmedians
    obtain ⟨hfirst, hsecond⟩ := ibufHolds_append.1 hmedians
    rw [length_encodedMedian, Nat.add_assoc] at hsecond
    simp only [hzs, true_and, if_true] at hfirst hsecond ⊢
    exact ⟨hfirst.median, hsecond.median⟩
  · simp only [hzs, false_and, if_false, and_self]

/-- The stored clusters of the channel, from the runs of its two APVs (44_encoder.md R349; 43_decoder.md R300). -/
theorem CopiedEvent.clusters {runs0 runs1 : List (Nat × Nat)} (hruns0 : Spec.Runs (Spec.aboveThreshold s ch 0) runs0)
    (hruns1 : Spec.Runs (Spec.aboveThreshold s ch 1) runs1) {c : ChannelEntry}
    (hc : c = eventChannel s.mem (encoderFields s.enc mode w) pc ch) :
    Spec.clusterStart mode c ≤ c.off + c.len ∧
      Spec.Clusters u.mem mode w (c.off + c.len) (Spec.clusterStart mode c) (c.off + c.len)
        (runs0.map (runEntries s mode w ch 0) ++ runs1.map (runEntries s mode w ch 1)) := by
  obtain ⟨-, hstored⟩ := ibufHolds_append.1 (h.zeroSuppressedBody hmode hch)
  have hbytes : channelClusters s.mem (encoderFields s.enc mode w) ch =
      runs0.flatMap (runBytes s mode w ch 0) ++ runs1.flatMap (runBytes s mode w ch 1) := by
    rw [channelClusters, flatMap_clusterBytes_eq hruns0, flatMap_clusterBytes_eq hruns1]
    rfl
  have hoff : channelOffset s.mem (encoderFields s.enc mode w) pc ch = c.off := by rw [hc]; rfl
  have hstart : c.off + 3 + (storedMedians s.mem (encoderFields s.enc mode w) ch).length = Spec.clusterStart mode c :=
    congrArg _ (length_storedMedians _ _ _)
  have hend : c.off + c.len = Spec.clusterStart mode c + (runs0.flatMap (runBytes s mode w ch 0)).length +
      (runs1.flatMap (runBytes s mode w ch 1)).length := by
    rw [show c.len = _ from hc ▸ length_eventChannel _ _ pc ch,
      encodedBody_of_zeroSuppressed s.mem (c := encoderFields s.enc mode w) hmode, hbytes, List.length_append,
      List.length_append]
    omega
  rw [hoff, hstart, hbytes] at hstored
  obtain ⟨hfirst, hsecond⟩ := ibufHolds_append.1 hstored
  have hclusters1 := clusters_of_runs (mode := mode) (w := w) (stop := c.off + c.len) (rest := []) (by decide)
    (fun r => run_bounds hruns1) hsecond (Nat.le_of_eq hend.symm) (by rw [← hend]; exact .done _)
  rw [List.append_nil] at hclusters1
  exact ⟨by omega, clusters_of_runs (by decide) (fun r => run_bounds hruns0) hfirst (by omega) hclusters1⟩

end

/-- Settles O46: the stored clusters of the two APVs are the clusters that DEC_SAMPLES walks, with the medians before them. -/
theorem zeroSuppressedEventsRoundTrip : Obligations.ZeroSuppressedEventsRoundTrip := by
  intro s u t mode w skipCrc extEnable henc hmode hcopied hparse ch hch runs0 runs1 hruns0 hruns1
  obtain ⟨pc, hpc, hconfig⟩ := encoderConfig_of_encodes henc
  have h := copiedEvent_of_encodedAndCopied hconfig hcopied
  obtain rfl := Host.Outcome.next.inj ((h.exec_decParse henc).symm.trans hparse)
  obtain ⟨hroom, hclusters⟩ := h.clusters hmode hch hruns0 hruns1 rfl
  obtain ⟨hcm0, hcm1⟩ := h.medians hmode hch
  obtain ⟨v, hexec, hresult⟩ := decSamplesOfClusters (parsedState s u mode w pc) _ _ ch w _
    (parsedState_resolves s u mode w pc hch) hmode hpc hroom hclusters
  obtain ⟨herr, hcount, hcm, hnclus⟩ := regs_of_samplesResult hresult
  obtain ⟨hentries, -⟩ := hresult
  obtain ⟨hlen, hnum⟩ := clusters_length hclusters
  have hshort := (length_encodedChannel_bounds s.mem (encoderFields s.enc mode w) pc ch).2
  have hstart : (eventChannel s.mem (encoderFields s.enc mode w) pc ch).off + 3 ≤
      Spec.clusterStart mode (eventChannel s.mem (encoderFields s.enc mode w) pc ch) := Nat.le_add_right _ _
  have hlt : (runs0.map (runEntries s mode w ch 0) ++ runs1.map (runEntries s mode w ch 1)).flatten.length < 2 ^ 16 := by
    have : (eventChannel s.mem (encoderFields s.enc mode w) pc ch).len < 2 ^ 16 := hshort
    omega
  simp only [clusterEntries_eq, ← List.flatten_append]
  refine ⟨v, hexec, herr, ?_, ?_, ?_, hentries⟩
  · rw [hcount, BitVec.toNat_ofNat, Nat.mod_eq_of_lt (by omega)]
  · rw [hnclus, BitVec.toNat_ofNat, Nat.mod_eq_of_lt (by omega), List.length_append, List.length_map, List.length_map]
  · rw [hcm]
    exact congrArg₂ HAppend.hAppend hcm1 hcm0

end Sys2Proof.Machine
end

section
/-! The completion of a command and the IRQ output (60_exceptions.md R401-R405, R420, R421). A command commits or raises; neither
what it commits nor the writes of R405 touch the interrupt registers or the sticky flags, so only the completion changes them. -/

namespace Sys2Proof.Machine

/-- The interrupt registers and the sticky flags of `t` are those of `s` (10_state.md R41, R42). -/
structure KeepsIrqAndSticky (s t : State) : Prop where
  irq : t.irq = s.irq
  cmdOverrun : t.flags.cmdOverrun = s.flags.cmdOverrun
  busyAccess : t.flags.busyAccess = s.flags.busyAccess

theorem Commits.keepsIrqAndSticky {i : Instr} {s u : State} (hu : Commits s i u) : KeepsIrqAndSticky s u := by
  cases hu <;> exact ⟨rfl, rfl, rfl⟩

theorem onFail_keepsIrqAndSticky (i : Instr) (s : State) : KeepsIrqAndSticky s (onFail i s) := by
  cases i <;> exact ⟨rfl, rfl, rfl⟩

/-- Settles O6: the command commits and completes, or makes the writes of R405 and raises; what comes before the completion keeps
the enables, the pending bits and the sticky flags. -/
theorem everyCommandCompletes : Obligations.EveryCommandCompletes := by
  intro i s
  obtain ⟨t, ht⟩ := exec_next i s
  refine ⟨t, ht, ?_⟩
  rcases exec_cases ht with ⟨u, hu, rfl⟩ | ⟨e, rfl⟩
  · obtain ⟨hirq, hoverrun, haccess⟩ := hu.keepsIrqAndSticky
    simp [hirq, hoverrun, haccess, noError]
  · obtain ⟨hirq, hoverrun, haccess⟩ := onFail_keepsIrqAndSticky i s
    simpa [hirq, hoverrun, haccess, errorRegs] using errorCode_ne_zero e.name

/-- The writes of a failing command are the rows of the table of 60_exceptions.md R405, as the statements write them. -/
theorem onFail_eq_failureWrites (i : Instr) (s : State) : onFail i s = Spec.failureWrites i s := by
  cases i <;> rfl

/-- Settles O7: a command that ends with ERR set has raised, and a raise adds the error state to the writes of the table, none of
which is to memory. -/
theorem failureWritesOnlyItsTable : Obligations.FailureWritesOnlyItsTable := by
  intro i s t ht herr
  rcases exec_cases ht with ⟨u, -, rfl⟩ | ⟨e, rfl⟩
  · exact absurd herr Bool.false_ne_true
  · refine ⟨⟨errorCode e.name, e.offset, e.channel, e.expected, e.actual, ?_⟩, ?_⟩
    · rw [raiseError_eq_failure, onFail_eq_failureWrites]
    · rw [raiseError_mem, onFail_mem]

theorem irqLine_of_done {s : State} (hen : s.irq.doneEn = true) (hp : s.irq.doneP = true) : irqLine s = true := by
  simp [irqLine, hen, hp]

theorem irqLine_of_err {s : State} (hen : s.irq.errEn = true) (hp : s.irq.errP = true) : irqLine s = true := by
  simp [irqLine, hen, hp]

/-- IRQ_PEND takes a write whether the engine is idle or busy (20_memory.md R110). -/
theorem hostWrite_irqPend (v : Word) (s : State) : hostWrite 0x10 v s = { s with irq := clearIrqPend v s.irq } := by
  have htarget : busTarget 0x10 = .reg .irqPend := busTarget_eq_reg_iff.2 (by decide)
  rw [hostWrite, htarget]
  split <;> rfl

/-- A write of both 1s to IRQ_PEND leaves no cause pending (10_state.md R42; 60_exceptions.md R421). -/
theorem irqLine_clearIrqPend {v : Word} (h0 : v.getLsbD 0 = true) (h1 : v.getLsbD 1 = true) (s : State) :
    irqLine { s with irq := clearIrqPend v s.irq } = false := by
  simp only [irqLine, clearIrqPend, h0, h1, Bool.not_true, Bool.and_false, Bool.or_self]

/-- Settles O54: the completion sets the pending bit of its cause and keeps the enables, and a write of 1s clears the pending
bits. -/
theorem irqIsALevel : Obligations.IrqIsALevel := by
  refine ⟨fun _ => rfl, fun i s t ht => ?completion, fun s t v rest hin h0 h1 ht => ?cleared⟩
  case completion =>
    obtain ⟨u, hu, -, -, hdone, hdoneEn, herrEn, -, -, hfail, -⟩ := everyCommandCompletes i s
    obtain rfl := Host.Outcome.next.inj (hu.symm.trans ht)
    exact ⟨fun hen => irqLine_of_done (hdoneEn.trans hen) hdone,
      fun hen herr => irqLine_of_err (herrEn.trans hen) (hfail herr).1⟩
  case cleared =>
    obtain rfl := Host.Outcome.next.inj ((step_of_write hin).symm.trans ht)
    rw [hostWrite_irqPend]
    exact irqLine_clearIrqPend h0 h1 _

end Sys2Proof.Machine
end

section
/-! The reset values, register by register, and the step in which RST is asserted (70_reset_and_hazards.md R450). -/

namespace Sys2Proof.Machine

/-- The column of reset values in the table of R450: ID, ERR_CHANNEL and DEC_CFG have their own, every other register reads 0. -/
def resetWord : Reg → Word
  | .id => 0x46454443
  | .errChannel => 0xFF
  | .decCfg => 0x0000FF00
  | _ => 0

theorem reset_units (u : Fin 8) : State.reset.hdr.units[u] = UnitRegs.zero := Vector.getElem_replicate u.isLt

/-- Every register reads its reset value after reset. -/
theorem readReg_reset (r : Reg) : readReg State.reset r = resetWord r := by
  cases r with
  | unitOff u | unitLen u | fehMaj u | fehRsv u =>
    rw [readReg, reset_units]
    rfl
  | _ => rfl

/-- Among the offsets of the register map, 0x000, 0x01C and 0x040 are those of the three registers whose reset value is not 0. -/
theorem resetWord_eq_of_mem_registerMap : ∀ p ∈ registerMap, resetWord p.2 =
    if p.1 = 0x000 then 0x46454443 else if p.1 = 0x01C then 0xFF else if p.1 = 0x040 then 0x0000FF00 else 0 := by
  decide

theorem step_of_rst {s : State} {rest : List HostEvent} (h : s.inbox = .rst :: rest) :
    step s = .next (resetBlock { s with inbox := rest }) := by
  simp only [step, h]

/-- RST keeps nothing of the block: besides RAM and the draw counter, only what lies outside it is not that of the reset state. -/
theorem resetBlock_withoutRam (s : State) :
    { resetBlock s with mem := [], draws := 0 } = { State.reset with inbox := s.inbox, outbox := s.outbox } := rfl

/-- Settles O55: the offsets name the registers, which read their reset values, and RST leaves the reset state but for RAM. -/
theorem resetLeavesTheResetValues : Obligations.ResetLeavesTheResetValues := by
  refine ⟨?registers, rfl, rfl, fun s rest hin => ⟨_, step_of_rst hin, resetBlock_withoutRam _⟩⟩
  case registers =>
    intro x hx
    rw [registerTable_eq] at hx
    obtain ⟨⟨offset, r⟩, hp, rfl⟩ := List.mem_map.1 hx
    exact (readReg_reset r).trans (resetWord_eq_of_mem_registerMap _ hp)

end Sys2Proof.Machine
end
